-- ==== Sys2Proof/Word.lean ====
section
/-! DEFINITION. The two word types of the block: a byte (one cell, one operand) and a command word. -/

namespace Sys2Proof

/-- One byte: the content of one cell and the one operand an operation can have (`00_scope.md` R7). `DW = 8`
is PRESUMED: the spec takes it from general knowledge, D3 (assumption 6). -/
abbrev Byte := BitVec 8

/-- One command word of 12 bits, the only format `CMD` (`30_encoding.md` R80). -/
abbrev Cmd := BitVec 12

end Sys2Proof
end

