-- ==== Sys2Proof/Config.lean ====
section
/-! DEFINITION. What a construction of the block fixes: the open parameters `N`, `CW`, `L` (`00_scope.md` R7, R8),
the two terminator codes, and the free value a never-written cell holds. -/

namespace Sys2Proof

/-- The parameters of one ring (`00_scope.md` R7). `CW` is held as `N + 1 + slack`, so the constraint `CW >= N + 1`
(R8) is met by construction and every admitted `CW` is one value of `slack`. -/
structure RingParams where
  /-- `N`, the capacity bit-width; `N >= 0`. -/
  n     : Nat
  /-- by how much `CW` exceeds its least admitted value `N + 1` -/
  slack : Nat
  deriving DecidableEq, Repr

/-- `CW`, the width of `head` and of `tail` (R7, R8). -/
abbrev RingParams.cw (p : RingParams) : Nat := p.n + 1 + p.slack

/-- `CAP = 2^N`: the number of cells and of bytes the ring holds (R7). -/
abbrev RingParams.cap (p : RingParams) : Nat := 2 ^ p.n

/-- The parameters of one SerialTransport: those of its embedded ring and the fill limit `L` (R7). -/
structure TransportParams where
  ring : RingParams
  /-- `L`, the fill limit of the receive-line buffer; `L >= 0` -/
  l    : Nat
  deriving DecidableEq, Repr

/-- `LW = max(1, ceil(log2(L + 1)))`, the least width that holds `L` (R7). -/
def TransportParams.lw (p : TransportParams) : Nat := Nat.log2 p.l + 1

namespace Config

/-- The carriage return (`00_scope.md` R7). PRESUMED: the spec takes the code from general knowledge, D6 (assumption 6). -/
def CR : Byte := 0x0D

/-- The line feed (`00_scope.md` R7). PRESUMED, as `CR` (assumption 6). -/
def LF : Byte := 0x0A

/-- What a cell that nothing has written since its memory's last reset holds (`10_state.md` R39, `93` U1: any
value). `seed` names one memory between two of its resets, `index` the cell. It has no body: nothing can be proved of
its value. DESIGN CHOICE of form (assumption 4). -/
opaque freeCell (seed : Nat) (index : Nat) : Byte

end Config

end Sys2Proof
end

