-- ==== Sys2Proof/Syntax.lean ====
section
/-! DEFINITION. The operations of the block, one constructor per row of the operation map (`30_encoding.md` R81), and
the four command ports (R86). -/

namespace Sys2Proof

/-- The ten operations of `30_encoding.md` R81, in the table's order. The byte is the operand `cmd[7:0]` (R82). -/
inductive Instr where
  | nop                  -- a step in which a port presents no request, R150
  | send   (b : Byte)    -- `send(byte)`, R112
  | enq    (b : Byte)    -- the enqueue step of `sendBuffer`, R110
  | kick                 -- the bootstrap step of `sendBuffer`, R111
  | poll                 -- `pollLine()`, R132
  | put    (b : Byte)    -- `put(byte)` of a standalone ring, R100
  | txrdy                -- `onTransmitReady()`, R114
  | rxbyte (b : Byte)    -- `onByteReceived(byte)`, R130
  | get                  -- `get()` of a standalone ring, R101
  | reset                -- the reset input, R151
  deriving DecidableEq, Repr

/-- The command ports (`30_encoding.md` R86): `M` mainline and `I` interrupt event of the SerialTransport, `P` producer
and `C` consumer of the standalone RingBuffer. -/
inductive Port where
  | M | I | P | C
  deriving DecidableEq, Repr

end Sys2Proof
end

