-- ==== Sys2Proof/Decode.lean ====
section
/-! DEFINITION. The decoder, total on every 12-bit command word, the encoder, and the ports that accept an operation
(`30_encoding.md` R80 to R86). Both read the match and mask columns of R81. -/

namespace Sys2Proof

/-- The byte operand `cmd[7:0]` (R82). -/
def Cmd.data (w : Cmd) : Byte := w.extractLsb' 0 8

/-- The operation code `cmd[11:8]` (R80). -/
def Cmd.op (w : Cmd) : BitVec 4 := w.extractLsb' 8 4

/-- The context bit `cmd[11]` (R83). -/
def Cmd.ctx (w : Cmd) : Bool := w.getLsbD 11

/-- `w & mask == match` (R81). -/
def Cmd.selects (w mask mtch : Cmd) : Bool := w &&& mask == mtch

/-- The operation a command word stands for, row by row of R81; `none` for a reserved word (R85). -/
def decode (w : Cmd) : Option Instr :=
  if w.selects 0xFFF 0x000 then some .nop
  else if w.selects 0xF00 0x100 then some (.send w.data)
  else if w.selects 0xF00 0x200 then some (.enq w.data)
  else if w.selects 0xFFF 0x300 then some .kick
  else if w.selects 0xFFF 0x400 then some .poll
  else if w.selects 0xF00 0x500 then some (.put w.data)
  else if w.selects 0xFFF 0x800 then some .txrdy
  else if w.selects 0xF00 0x900 then some (.rxbyte w.data)
  else if w.selects 0xFFF 0xD00 then some .get
  else if w.selects 0xFFF 0xF00 then some .reset
  else none

/-- The column "accepted at" of R81 (R86). -/
def Instr.ports : Instr → List Port
  | .nop => [.M, .P]
  | .send _ => [.M]
  | .enq _ => [.M]
  | .kick => [.M]
  | .poll => [.M]
  | .put _ => [.P]
  | .txrdy => [.I]
  | .rxbyte _ => [.I]
  | .get => [.C]
  | .reset => [.M, .I, .P, .C]

/-- The port accepts the operation (R86). -/
def Port.accepts (p : Port) (i : Instr) : Bool := i.ports.contains p

/-- The ports that give a response: all but the interrupt event port (R84, R86). -/
def Port.responds : Port → Bool
  | .I => false
  | _ => true

/-- The port an operation is presented at when a program names none: the one R81 gives, `M` for `NOP` (R87); `M` for
`RESET`, which every port accepts (DESIGN CHOICE, assumption 9). -/
def Instr.homePort : Instr → Port
  | .nop => .M
  | .send _ => .M
  | .enq _ => .M
  | .kick => .M
  | .poll => .M
  | .put _ => .P
  | .txrdy => .I
  | .rxbyte _ => .I
  | .get => .C
  | .reset => .M

/-- The operation code of R81. -/
def Instr.opcode : Instr → BitVec 4
  | .nop => 0x0
  | .send _ => 0x1
  | .enq _ => 0x2
  | .kick => 0x3
  | .poll => 0x4
  | .put _ => 0x5
  | .txrdy => 0x8
  | .rxbyte _ => 0x9
  | .get => 0xD
  | .reset => 0xF

/-- The data field: the byte operand, `0x00` where the operation has none (R80, R82). -/
def Instr.operand : Instr → Byte
  | .nop => 0x00
  | .send b => b
  | .enq b => b
  | .kick => 0x00
  | .poll => 0x00
  | .put b => b
  | .txrdy => 0x00
  | .rxbyte b => b
  | .get => 0x00
  | .reset => 0x00

/-- The command word of an operation (R80, R81). -/
def encode (i : Instr) : Cmd := i.opcode ++ i.operand

/-- The command word of `RESET`. -/
def resetWord : Cmd := encode .reset

/-- What the decoder reads from `nbits` bits of value `w`: a command is twelve wires, so a value with a bit above them
is no command (DESIGN CHOICE, assumption 15). -/
def decodeTableWord (nbits w : Nat) : Option Instr :=
  if w % 2 ^ nbits < 2 ^ 12 then decode (BitVec.ofNat 12 (w % 2 ^ nbits)) else none

end Sys2Proof
end

