-- ==== Sys2Proof/Machine/State.lean ====
section
/-! DEFINITION. The whole state as plain data: one SerialTransport with its embedded ring and one standalone RingBuffer
(`10_state.md` R20, R40), the outcome of the step just taken (`00_scope.md` R12), and the agents that present
operations (R9): what each still has to present, the order in which the ports are served, the mainline's `suspended`
and the environment's `inflight`. -/

namespace Sys2Proof.Machine

/-- The reasons a step stops. -/
inductive Fault where
  /-- Raised by `POLL` at `lineReady == true` with `rxLen < 2`, a state the spec gives `POLL` no meaning for and no run
  reaches (`93` U6: fault; `42_receive.md` R132 corner (e); assumption 17). Safe. -/
  | pollShortLine
  deriving DecidableEq, Repr

/-- The reasons a step has no meaning. No operation of this model refuses. -/
inductive Refusal where
  /-- Raised by an arm of `exec` whose operation has no meaning yet; no arm does. Safe. -/
  | notModelled (mnemonic : String)
  deriving DecidableEq, Repr

/-- One memory of byte cells (`20_memory.md` R50): the written cells as (index, byte), indices strictly rising. An
unlisted cell holds the unspecified value `Config.freeCell seed index` (DESIGN CHOICE, assumption 4). -/
structure CellMem where
  cells : List Host.Cell
  /-- which unspecified contents this memory has had since its last reset; the model's own -/
  seed  : Nat
  deriving DecidableEq, Repr

/-- A RingBuffer (`10_state.md` R20 to R22, R36, R40). -/
structure Ring (p : RingParams) where
  /-- the next write position, free-running (R21) -/
  head : BitVec p.cw
  /-- the next read position, free-running (R22) -/
  tail : BitVec p.cw
  /-- the backing storage `TX`, `CAP` cells (R36) -/
  tx   : CellMem
  deriving DecidableEq, Repr

/-- A SerialTransport (`10_state.md` R20). -/
structure Transport (p : TransportParams) where
  /-- the outbound ring it owns -/
  ring      : Ring p.ring
  /-- `transmitActive` (R26) -/
  txActive  : Bool
  /-- the receive-line buffer `RX`, `L + 1` cells (R29) -/
  rx        : CellMem
  /-- the number of bytes accumulated in `RX`, values `0 .. L` (R27; DEDUCED, assumption 8) -/
  rxLen     : Fin (p.l + 1)
  /-- a complete, unconsumed line sits in `RX` (R28) -/
  lineReady : Bool
  deriving DecidableEq, Repr

/-- The statuses (`60_exceptions.md` R160). Codes 4, 5 and 6 are never produced and have no constructor. -/
inductive Status where
  | ok | overflow | empty | noLine | illegal
  deriving DecidableEq, Repr

/-- The outcome of an operation (`00_scope.md` R12). -/
structure Result where
  status : Option Status
  data   : Option Byte
  line   : Option (List Byte)
  tx     : Option Byte
  wake   : Bool
  deriving DecidableEq, Repr

/-- Nothing presented at a port that answers, nothing emitted: the outcome of a step that takes no operation. -/
def Result.silent : Result := { status := none, data := none, line := none, tx := none, wake := false }

/-- One thing the mainline agent still has to do (`00_scope.md` R9). -/
inductive MainStep where
  /-- present this word at port M -/
  | command (w : Cmd)
  /-- `WAIT`: suspend until `line_ready` (`43_system.md` R153) -/
  | wait
  /-- the rest of a `SENDBUF` (`41_transmit.md` R113): the bytes still to `ENQ`, then one `KICK`; `r` its result so far -/
  | sendbuf (bs : List Byte) (r : Status)
  deriving DecidableEq, Repr

/-- The agents of `00_scope.md` R9. None of this is state of the block (`10_state.md` R35); its form is a DESIGN CHOICE
(assumption 12). -/
structure Agents where
  /-- what the mainline still has to do, next first -/
  main          : List MainStep
  /-- the mainline is suspended (`43_system.md` R153) -/
  suspended     : Bool
  /-- the result of the last `SENDBUF` that ended (`41_transmit.md` R113) -/
  sendbufResult : Option Status
  /-- the events raised and not yet delivered at port I (`60_exceptions.md` R164), next first -/
  irq           : List Cmd
  /-- what the producer of the standalone ring still has to present at port P, next first; an agent of its own, which
  the mainline's `suspended` does not hold back (DESIGN CHOICE, assumption 23) -/
  prod          : List Cmd
  /-- what the consumer of the standalone ring still has to present at port C, next first -/
  cons          : List Cmd
  /-- the order in which the ports are served, next first: arbitrary (`60_exceptions.md` R166) -/
  grants        : List Port
  /-- the bytes in flight in the external transmitter (`41_transmit.md` R117, ghost) -/
  inflight      : Nat
  deriving DecidableEq, Repr

/-- The machine: both instances with their parameters, the port and the outcome of the last operation, the agents. That
one machine holds one of each kind is a DESIGN CHOICE (assumption 3). -/
structure State where
  /-- the parameters of the SerialTransport, fixed at construction -/
  tp         : TransportParams
  transport  : Transport tp
  /-- the parameters of the standalone RingBuffer, fixed at construction -/
  rp         : RingParams
  standalone : Ring rp
  /-- the port at which the current operation is presented (`30_encoding.md` R86) -/
  port       : Port
  /-- the outcome of the last step: response and output signals (`30_encoding.md` R84, R90) -/
  out        : Result
  agents     : Agents
  /-- the next unused seed of unspecified cell contents; the model's own -/
  fresh      : Nat
  deriving DecidableEq, Repr

/-- A memory none of whose cells is written. -/
def CellMem.unwritten (seed : Nat) : CellMem := { cells := [], seed := seed }

/-- A ring right after reset (`10_state.md` R39). -/
def Ring.reset (p : RingParams) (seed : Nat) : Ring p := { head := 0, tail := 0, tx := CellMem.unwritten seed }

/-- A transport right after reset (`10_state.md` R39). -/
def Transport.reset (p : TransportParams) (seed : Nat) : Transport p :=
  { ring := Ring.reset p.ring seed, txActive := false, rx := CellMem.unwritten (seed + 1), rxLen := 0, lineReady := false }

/-- Agents with nothing to present. -/
def Agents.idle : Agents :=
  { main := [], suspended := false, sendbufResult := none, irq := [], prod := [], cons := [], grants := [], inflight := 0 }

/-- The machine right after reset, for any parameters (`10_state.md` R39). The values of the port, the outcome, the agents
and the seeds are the model's own: DESIGN CHOICE (assumption 16). -/
def State.resetWith (tp : TransportParams) (rp : RingParams) : State :=
  { tp := tp, transport := Transport.reset tp 0, rp := rp, standalone := Ring.reset rp 2,
    port := .M, out := Result.silent, agents := Agents.idle, fresh := 3 }

/-- The machine right after reset with the parameters most vectors of `95_test_vectors.md` use: `N = 2`, `CW = 3`,
`L = 4`. DESIGN CHOICE (assumption 1): the spec leaves the parameters open; claims are over every state, hence over
every parameter value. -/
def State.reset : State := State.resetWith { ring := { n := 2, slack := 0 }, l := 4 } { n := 2, slack := 0 }

end Sys2Proof.Machine
end

