-- ==== Sys2Proof/Machine/Operands.lean ====
section
/-! DEFINITION. How a register names a cell (`10_state.md` R25, `20_memory.md` R56): the only operand forms the block has
beside the byte of the command word. -/

namespace Sys2Proof.Machine

/-- `MASK = 2^N - 1` (`00_scope.md` R7), as wide as the counters. -/
def maskOf (p : RingParams) : BitVec p.cw := BitVec.ofNat p.cw (p.cap - 1)

/-- The `TX` index a counter value addresses: `c & MASK` (R25). -/
def cellOf {p : RingParams} (c : BitVec p.cw) : Nat := (c &&& maskOf p).toNat

/-- The index of the cell the next successful `PUT` writes (R21). -/
def Ring.putCell {p : RingParams} (r : Ring p) : Nat := cellOf r.head

/-- The index of the cell the next successful `GET` reads (R22). -/
def Ring.getCell {p : RingParams} (r : Ring p) : Nat := cellOf r.tail

/-- The index of the cell the next append writes: `RX:rxLen` (`42_receive.md` R130). -/
def Transport.appendCell {p : TransportParams} (t : Transport p) : Nat := t.rxLen.val

end Sys2Proof.Machine
end

