-- ==== Sys2Proof/Machine/Flags.lean ====
section
/-! DEFINITION. Every condition the block computes: the derived values of a ring (`10_state.md` R23), the terminator test
(`42_receive.md` R131), the states of the two state machines (R37, `41_transmit.md` R116), the codes of the statuses and
the response and output signals (`30_encoding.md` R84, R90). -/

namespace Sys2Proof.Machine

/-- `occ = head -CW tail`, the number of bytes held (R23). -/
def Ring.occ {p : RingParams} (r : Ring p) : BitVec p.cw := r.head - r.tail

/-- `head == tail` (R23). -/
def Ring.isEmpty {p : RingParams} (r : Ring p) : Bool := r.head == r.tail

/-- `occ == CAP` (R23). -/
def Ring.isFull {p : RingParams} (r : Ring p) : Bool := r.occ == BitVec.ofNat p.cw p.cap

/-- A byte is a line terminator exactly when it equals `CR` or `LF` (R131). -/
def isTerm (b : Byte) : Bool := b == Config.CR || b == Config.LF

/-- The states of the receive path (R37). -/
inductive RxState where
  | idle | accumulating | lineReady
  deriving DecidableEq, Repr

/-- The receive path's state, read off the registers (R37). -/
def Transport.rxState {p : TransportParams} (t : Transport p) : RxState :=
  if t.lineReady then .lineReady else if t.rxLen.val = 0 then .idle else .accumulating

/-- The states of the transmit side (`41_transmit.md` R116). -/
inductive TxState where
  | idle | active
  deriving DecidableEq, Repr

/-- The transmit side's state (R116). -/
def Transport.txState {p : TransportParams} (t : Transport p) : TxState := if t.txActive then .active else .idle

/-- The status codes (`30_encoding.md` R84). -/
def Status.code : Status → BitVec 3
  | .ok => 0
  | .overflow => 1
  | .empty => 2
  | .noLine => 3
  | .illegal => 7

/-- The response word `rsp[10:0] = status, data`, present where the operation has a response; `data` is `0x00` where the
operation returns no byte (R84; DEDUCED, assumption 7). -/
def Result.response (r : Result) : Option (BitVec 11) := r.status.map fun st => st.code ++ r.data.getD 0x00

/-- `line_len`, present beside a response that returns a line, `LW` bits (R84). -/
def Result.lineLen (p : TransportParams) (r : Result) : Option (BitVec p.lw) :=
  r.line.map fun bs => BitVec.ofNat p.lw bs.length

/-- `tx_valid`: the step executed `emit tx` (R90). -/
def State.txValid (s : State) : Bool := s.out.tx.isSome

/-- `tx_data`, meaningful while `tx_valid` (R90). -/
def State.txData (s : State) : Option Byte := s.out.tx

/-- The `wake` pulse (R90). -/
def State.wake (s : State) : Bool := s.out.wake

/-- The `line_ready` level: the register after the step (R90). -/
def State.lineReadyLevel (s : State) : Bool := s.transport.lineReady

end Sys2Proof.Machine
end

