-- ==== Sys2Proof/Machine/Ops.lean ====
section
/-! DEFINITION. The operations the meanings share: reading and writing one cell, the inner `PUT` and `GET` of a ring, the
enqueue and bootstrap steps, the handlers' effects, and returning an outcome. The block has no trap of any kind
(`60_exceptions.md` R161, R168): `raise X()` is `State.respond X`, a status and nothing else. -/

namespace Sys2Proof.Machine

/-! ### Cells (`20_memory.md` R50, R57, R58) -/

/-- The byte written at an index, if one was. -/
def cellAt : List Host.Cell → Nat → Option Byte
  | [], _ => none
  | c :: cs, i => if c.1 = i then some c.2 else cellAt cs i

/-- Writes one cell, keeping the indices rising. -/
def setCell : List Host.Cell → Nat → Byte → List Host.Cell
  | [], i, b => [(i, b)]
  | c :: cs, i, b =>
    if i < c.1 then (i, b) :: c :: cs
    else if c.1 = i then (i, b) :: cs
    else c :: setCell cs i b

/-- The canonical form: indices strictly rising. (An unlisted cell holds no known value, so no entry can equal it.) -/
abbrev CellMem.wf (m : CellMem) : Prop := m.cells.Pairwise fun a b => a.1 < b.1

/-- `MemRead(_:i, 1)` (`00_scope.md` R11). -/
def CellMem.read (m : CellMem) (i : Nat) : Byte := (cellAt m.cells i).getD (Config.freeCell m.seed i)

/-- `MemWrite(_:i, 1, b)` (`00_scope.md` R11). -/
def CellMem.write (m : CellMem) (i : Nat) (b : Byte) : CellMem := { m with cells := setCell m.cells i b }

/-- Some operation since the last reset wrote the cell. -/
def CellMem.written (m : CellMem) (i : Nat) : Bool := (cellAt m.cells i).isSome

/-! ### The ring (`40_ringbuffer.md`) -/

/-- The inner `PUT` (R100): the ring and the status. -/
def Ring.put {p : RingParams} (r : Ring p) (b : Byte) : Ring p × Status :=
  if r.isFull then (r, .overflow)
  else ({ r with tx := r.tx.write r.putCell b, head := r.head + 1 }, .ok)

/-- The inner `GET` (R101): the byte and the ring, or nothing when the ring is empty. -/
def Ring.get {p : RingParams} (r : Ring p) : Option (Byte × Ring p) :=
  if r.isEmpty then none
  else some (r.tx.read r.getCell, { r with tail := r.tail + 1 })

/-- The bytes the ring holds, oldest first (`10_state.md` R36): the live cells `TX:((tail +CW i) & MASK)`. -/
def Ring.contents {p : RingParams} (r : Ring p) : List Byte :=
  (List.range r.occ.toNat).map fun i => r.tx.read (cellOf (r.tail + BitVec.ofNat p.cw i))

/-! ### The transmit side (`41_transmit.md`) -/

/-- The enqueue step (R110). -/
def Transport.enqueue {p : TransportParams} (t : Transport p) (b : Byte) : Transport p × Status :=
  ({ t with ring := (t.ring.put b).1 }, (t.ring.put b).2)

/-- The bootstrap step (R111): the transport and the byte dispatched, if any. -/
def Transport.bootstrap {p : TransportParams} (t : Transport p) : Transport p × Option Byte :=
  if t.txActive then (t, none)
  else match t.ring.get with
    | none => (t, none)
    | some (v, r) => ({ t with ring := r, txActive := true }, some v)

/-- The transmit-ready handler (R114): the transport and the byte dispatched, if any. -/
def Transport.transmitReady {p : TransportParams} (t : Transport p) : Transport p × Option Byte :=
  match t.ring.get with
  | none => ({ t with txActive := false }, none)
  | some (v, r) => ({ t with ring := r }, some v)

/-! ### The receive side (`42_receive.md`) -/

/-- The byte-received handler (R130), its four cases in the order of R167: the transport and the `wake` pulse. -/
def Transport.byteReceived {p : TransportParams} (t : Transport p) (b : Byte) : Transport p × Bool :=
  if t.lineReady then (t, false)
  else if h : t.rxLen.val = p.l then ({ t with rxLen := 0 }, false)
  else
    let appended : Transport p :=
      { t with rx := t.rx.write t.appendCell b, rxLen := ⟨t.rxLen.val + 1, by have := t.rxLen.isLt; omega⟩ }
    if isTerm b then
      if appended.rxLen.val = 1 then ({ appended with rxLen := 0 }, false)
      else ({ appended with lineReady := true }, true)
    else (appended, false)

/-- The accumulated bytes without their terminator: `RX:0 .. RX:(rxLen-2)` (R132). -/
def Transport.line {p : TransportParams} (t : Transport p) : List Byte :=
  (List.range (t.rxLen.val - 1)).map t.rx.read

/-- Consuming the line: `rxLen <- 0; lineReady <- false` (R132). -/
def Transport.consumeLine {p : TransportParams} (t : Transport p) : Transport p :=
  { t with rxLen := 0, lineReady := false }

/-! ### Outcomes (`00_scope.md` R11, R12; `60_exceptions.md` R160, R161) -/

/-- A response with this status and nothing else. -/
def Result.of (st : Status) : Result := { Result.silent with status := some st }

/-- The state with another transport. -/
def State.setTransport (s : State) (t : Transport s.tp) : State := { s with transport := t }

/-- The state with another standalone ring. -/
def State.setStandalone (s : State) (r : Ring s.rp) : State := { s with standalone := r }

/-- The state with the outcome of this step. -/
def State.setOut (s : State) (r : Result) : State := { s with out := r }

/-- Ends the operation with a status, whatever else it did (`raise`, `return`). -/
def State.respond (s : State) (st : Status) : State := s.setOut (Result.of st)

/-- A reserved word, or an operation at a port that does not accept it: nothing changes, `ILLEGAL` at a port that
responds, nothing at port I (`43_system.md` R152, `30_encoding.md` R85). -/
def State.illegal (s : State) : State :=
  s.setOut (if s.port.responds then Result.of .illegal else Result.silent)

/-- The operation's own effect `o` where the port accepts it, `ILLEGAL` elsewhere (R86, R152). -/
def State.accepting (s : State) (i : Instr) (o : Host.Outcome State Fault Refusal) :
    Host.Outcome State Fault Refusal :=
  if s.port.accepts i then o else .next s.illegal

/-- `RESET` of the SerialTransport (`43_system.md` R151): the five registers cleared, its cells unspecified from here on
(DEDUCED, assumption 5). -/
def State.resetTransport (s : State) : State :=
  { s with transport := Transport.reset s.tp s.fresh, fresh := s.fresh + 2 }

/-- `RESET` of the standalone RingBuffer (R151). -/
def State.resetStandalone (s : State) : State :=
  { s with standalone := Ring.reset s.rp s.fresh, fresh := s.fresh + 1 }

end Sys2Proof.Machine
end

