-- ==== Sys2Proof/Machine/Agents.lean ====
section
/-! DEFINITION. The agents that present operations (`00_scope.md` R9): which request stands at each port, which port is
served in a step, and what a step leaves the agents with. The order of service is `Agents.grants`, any list of ports:
a statement about every state is a statement about every order (`60_exceptions.md` R166). The form of all this is a
DESIGN CHOICE (assumptions 12 and 14). -/

namespace Sys2Proof.Machine

/-- The mainline is suspended and not yet runnable: it is woken by the level `line_ready` (`43_system.md` R153). -/
def State.blocked (s : State) : Bool := s.agents.suspended && !s.transport.lineReady

/-- The word a step of the mainline presents at port M, if that step is a command (R113 for a `SENDBUF`). -/
def MainStep.word? : MainStep → Option Cmd
  | .command w => some w
  | .wait => none
  | .sendbuf (b :: _) _ => some (encode (.enq b))
  | .sendbuf [] _ => some (encode .kick)

/-- The word standing at port M: a suspended mainline presents nothing, but `RESET` is the environment's (R151, R153). -/
def State.mainWord (s : State) : Option Cmd :=
  match s.agents.main.head?.bind MainStep.word? with
  | none => none
  | some w => if s.blocked && w != resetWord then none else some w

/-- The word standing at a port in this step. A suspended mainline presents nothing at port M only: port P is served
from `Agents.prod` all the same, although `60_exceptions.md` R170 counts it to the mainline context. R153 names `SEND`,
`ENQ`, `KICK` and `POLL` and says nothing of a standalone ring's producer: DESIGN CHOICE (assumption 23). -/
def State.standing (s : State) : Port → Option Cmd
  | .M => s.mainWord
  | .I => s.agents.irq.head?
  | .P => s.agents.prod.head?
  | .C => s.agents.cons.head?

/-- The first port at which `RESET` stands: it is taken before any other request of the same step (R151, R166). Which of
several comes first is a DESIGN CHOICE (assumption 10). -/
def State.resetPort (s : State) : Option Port :=
  [Port.M, .I, .P, .C].find? fun p => s.standing p == some resetWord

/-- The port served in this step: at most one over all ports (`30_encoding.md` R86). -/
def State.served (s : State) : Option Port := s.resetPort.or s.agents.grants.head?

/-- The operation this step takes, with its port; none for a reserved word or when nothing is taken. -/
def State.nextOp (s : State) : Option (Port × Instr) :=
  match s.served with
  | none => none
  | some p => ((s.standing p).bind decode).map fun i => (p, i)

/-- The mainline's list after its first step is taken: a `SENDBUF` stays until its `KICK` (R113). -/
def afterMainStep : List MainStep → List MainStep
  | [] => []
  | .sendbuf (_ :: bs) r :: rest => .sendbuf bs r :: rest
  | _ :: rest => rest

/-- The agents after the request standing at a port is taken. -/
def Agents.consume (a : Agents) : Port → Agents
  | .M => { a with main := afterMainStep a.main }
  | .I => { a with irq := a.irq.tail }
  | .P => { a with prod := a.prod.tail }
  | .C => { a with cons := a.cons.tail }

/-- The agents after this step's turn is used up; a `RESET` uses no turn. -/
def State.useTurn (s : State) : Agents :=
  if s.resetPort.isSome then s.agents else { s.agents with grants := s.agents.grants.tail }

/-- The state in which the request standing at `p` is executed: presented there, and no longer waiting. -/
def State.take (s : State) (p : Port) : State := { s with port := p, agents := s.useTurn.consume p }

/-- The bytes in flight after an operation at a port: `TXRDY` is the event owed for one, `emit tx` puts one in flight
(R117); a reset of the transport resets the ghost with it (R151 (b); DESIGN CHOICE, assumption 11). -/
def inflightAfter (p : Port) (i : Option Instr) (tx : Option Byte) (n : Nat) : Nat :=
  let left := match i, p with
    | some .txrdy, .I => n - 1
    | some .reset, .M => 0
    | some .reset, .I => 0
    | _, _ => n
  if tx.isSome then left + 1 else left

/-- What the mainline does with the status of a step of a `SENDBUF` (R113): the first `OVERFLOW` ends the enqueues, the
`KICK` ends the whole. `before` is its list before the step. -/
def Agents.sendbufStatus (a : Agents) (before : List MainStep) (st : Option Status) : Agents :=
  match before with
  | .sendbuf (_ :: _) _ :: rest =>
    if st = some .overflow then { a with main := .sendbuf [] .overflow :: rest } else a
  | .sendbuf [] r :: _ => { a with sendbufResult := some r }
  | _ => a

/-- A suspended mainline becomes runnable as soon as `line_ready` is true (R153; DEDUCED, assumption 13). -/
def State.wakeUp (s : State) : State := { s with agents := { s.agents with suspended := s.blocked } }

/-- What a step adds around the operation `i` it took at `p` in state `s`, once that gave `t`. -/
def State.settle (s : State) (p : Port) (i : Option Instr) (t : State) : State :=
  let a := { t.agents with inflight := inflightAfter p i t.out.tx t.agents.inflight }
  State.wakeUp { t with agents := if p = Port.M then a.sendbufStatus s.agents.main t.out.status else a }

/-- A step in which no operation is taken (R150): the block is untouched, and no port is answered (DESIGN CHOICE,
assumption 19). -/
def State.quietStep (s : State) (a : Agents) : State :=
  State.wakeUp { s with out := Result.silent, agents := a }

/-- `WAIT` (R153): falls through if `line_ready` is true, suspends otherwise; test and suspension are one step. -/
def State.wait (s : State) (a : Agents) : Agents :=
  { a with main := a.main.tail, suspended := !s.transport.lineReady }

/-- The turn of an agent with no request standing at its port: a runnable mainline may be at a `WAIT`; otherwise there
is nothing to take. -/
def State.agentTurn (s : State) (p : Port) : State :=
  match p, s.blocked, s.agents.main with
  | .M, false, .wait :: _ => s.quietStep (s.wait s.useTurn)
  | _, _, _ => s.quietStep s.useTurn

/-- Puts a word in front at a port, gives that port the next turn (`RESET` needs none), and takes away a `RESET` standing
elsewhere, so that the next step takes exactly this word. -/
def Agents.offer (a : Agents) (p : Port) (w : Cmd) : Agents :=
  let clear (ws : List Cmd) : List Cmd := ws.dropWhile fun v => v == resetWord
  let base : Agents :=
    { a with main := a.main.dropWhile (fun m => m.word? == some resetWord),
             irq := clear a.irq, prod := clear a.prod, cons := clear a.cons,
             grants := if w == resetWord then a.grants else p :: a.grants }
  match p with
  | .M => { base with main := .command w :: base.main, suspended := false }
  | .I => { base with irq := w :: base.irq }
  | .P => { base with prod := w :: base.prod }
  | .C => { base with cons := w :: base.cons }

/-- The port a word is presented at when none is named: that of its operation, `M` for a reserved word. -/
def Cmd.homePort (w : Cmd) : Port := ((decode w).map Instr.homePort).getD .M

end Sys2Proof.Machine
end

