-- ==== Sys2Proof/Machine/Receive.lean ====
section
/-! DEFINITION. The receive path of a SerialTransport (`42_receive.md`). -/

namespace Sys2Proof.Machine

/-- `RXBYTE b` (R130): no response. -/
def execRxbyte (b : Byte) (s : State) : Host.Outcome State Fault Refusal :=
  s.accepting (.rxbyte b) (.next ((s.setTransport (s.transport.byteReceived b).1).setOut
    { Result.silent with wake := (s.transport.byteReceived b).2 }))

/-- `POLL` (R132). At `lineReady == true` with `rxLen < 2`, which no run reaches, the spec gives it no meaning: a fault
(corner (e), `93` U6). -/
def execPoll (s : State) : Host.Outcome State Fault Refusal :=
  s.accepting .poll <|
    if s.transport.lineReady = false then .next (s.respond .noLine)
    else if s.transport.rxLen.val < 2 then .fault .pollShortLine
    else .next ((s.setTransport s.transport.consumeLine).setOut
      { Result.of .ok with line := some s.transport.line })

end Sys2Proof.Machine
end

