-- ==== Sys2Proof/Machine/RingBuffer.lean ====
section
/-! DEFINITION. The operations of a standalone RingBuffer, ports P and C (`40_ringbuffer.md`). -/

namespace Sys2Proof.Machine

/-- `PUT b` (R100). -/
def execPut (b : Byte) (s : State) : Host.Outcome State Fault Refusal :=
  s.accepting (.put b) (.next ((s.setStandalone (s.standalone.put b).1).respond (s.standalone.put b).2))

/-- `GET` (R101). -/
def execGet (s : State) : Host.Outcome State Fault Refusal :=
  s.accepting .get <| match s.standalone.get with
    | none => .next (s.respond .empty)
    | some (v, r) => .next ((s.setStandalone r).setOut { Result.of .ok with data := some v })

end Sys2Proof.Machine
end

