-- ==== Sys2Proof/Machine/System.lean ====
section
/-! DEFINITION. The system operations (`43_system.md`). -/

namespace Sys2Proof.Machine

/-- `NOP` (R150). -/
def execNop (s : State) : Host.Outcome State Fault Refusal :=
  s.accepting .nop (.next (s.respond .ok))

/-- `RESET` (R151): every port accepts it; it resets the instance the port belongs to (DEDUCED,
assumption 10); port I has no response (R84). -/
def execReset (s : State) : Host.Outcome State Fault Refusal :=
  s.accepting .reset <| match s.port with
    | .M => .next (s.resetTransport.respond .ok)
    | .I => .next (s.resetTransport.setOut Result.silent)
    | .P => .next (s.resetStandalone.respond .ok)
    | .C => .next (s.resetStandalone.respond .ok)

end Sys2Proof.Machine
end

