-- ==== Sys2Proof/Machine/Transmit.lean ====
section
/-! DEFINITION. The transmit path of a SerialTransport (`41_transmit.md`). -/

namespace Sys2Proof.Machine

/-- `ENQ b` (R110). -/
def execEnq (b : Byte) (s : State) : Host.Outcome State Fault Refusal :=
  s.accepting (.enq b) (.next ((s.setTransport (s.transport.enqueue b).1).respond (s.transport.enqueue b).2))

/-- `KICK` (R111). -/
def execKick (s : State) : Host.Outcome State Fault Refusal :=
  s.accepting .kick (.next ((s.setTransport s.transport.bootstrap.1).setOut
    { Result.of .ok with tx := s.transport.bootstrap.2 }))

/-- `SEND b` (R112): the enqueue step, then the bootstrap step whatever the enqueue's status. -/
def execSend (b : Byte) (s : State) : Host.Outcome State Fault Refusal :=
  s.accepting (.send b) (.next ((s.setTransport (s.transport.enqueue b).1.bootstrap.1).setOut
    { Result.of (s.transport.enqueue b).2 with tx := (s.transport.enqueue b).1.bootstrap.2 }))

/-- `TXRDY` (R114): no response. -/
def execTxrdy (s : State) : Host.Outcome State Fault Refusal :=
  s.accepting .txrdy (.next ((s.setTransport s.transport.transmitReady.1).setOut
    { Result.silent with tx := s.transport.transmitReady.2 }))

end Sys2Proof.Machine
end

