-- ==== Sys2Proof/Machine/Dispatch.lean ====
section
/-! DEFINITION. One arm per operation of `30_encoding.md` R81, in the table's order. -/

namespace Sys2Proof.Machine

def exec (i : Instr) (s : State) : Host.Outcome State Fault Refusal :=
  match i with
  | .nop => Sys2Proof.Machine.execNop s
  | .send b => Sys2Proof.Machine.execSend b s
  | .enq b => Sys2Proof.Machine.execEnq b s
  | .kick => Sys2Proof.Machine.execKick s
  | .poll => Sys2Proof.Machine.execPoll s
  | .put b => Sys2Proof.Machine.execPut b s
  | .txrdy => Sys2Proof.Machine.execTxrdy s
  | .rxbyte b => Sys2Proof.Machine.execRxbyte b s
  | .get => Sys2Proof.Machine.execGet s
  | .reset => Sys2Proof.Machine.execReset s

end Sys2Proof.Machine
end

