-- ==== Sys2Proof/Machine/Step.lean ====
section
/-! DEFINITION. One step: at most one operation over all ports is taken, wholly (`00_scope.md` R9, `20_memory.md` R59). -/

namespace Sys2Proof.Machine

/-- What a step does with the outcome of the operation it took. -/
def settled (s : State) (p : Port) (i : Instr) (o : Host.Outcome State Fault Refusal) :
    Host.Outcome State Fault Refusal :=
  match o with
  | .next t => .next (s.settle p (some i) t)
  | .fault f => .fault f
  | .refused r => .refused r

/-- The word `w` taken at port `p`: a reserved word is `ILLEGAL` (`43_system.md` R152). -/
def State.present (s : State) (p : Port) (w : Cmd) : Host.Outcome State Fault Refusal :=
  match decode w with
  | none => .next (s.settle p none (s.take p).illegal)
  | some i => settled s p i (exec i (s.take p))

/-- One step of the machine. -/
def step (s : State) : Host.Outcome State Fault Refusal :=
  match s.served with
  | none => .next (s.quietStep s.agents)
  | some p =>
    match s.standing p with
    | none => .next (s.agentTurn p)
    | some w => s.present p w

/-- `s` with the word of value `w` presented for the very next step, at the port `30_encoding.md` R81 and R87 give its
operation (DESIGN CHOICE, assumption 2: operations come from outside the block; nothing is fetched). -/
def State.withFetchWord (s : State) (nbits w : Nat) : State :=
  let c : Cmd := BitVec.ofNat 12 (w % 2 ^ nbits)
  { s with agents := s.agents.offer (Cmd.homePort c) c }

end Sys2Proof.Machine
end

