-- ==== Sys2Proof/Machine/Micro.lean ====
section
/-! DEFINITION. The micro-step model (`70_reset_and_hazards.md` R200 to R209), beside the atomic one: each micro-step is
one read or write of one register or cell, one test of values already read, or one `emit`. Two machines: a standalone
ring whose producer and consumer interleave micro-step by micro-step, and a transport whose mainline operations are
preempted by whole handlers. Each has its atomic counterpart over the same record. (What counts as one micro-step is
DEDUCED, assumption 20.) -/

namespace Sys2Proof.Machine

/-! ### `PUT` and `GET` in micro-steps -/

/-- Where a `PUT` stands: the micro-step it takes next (R201), with the values it has read. -/
inductive PutPc (p : RingParams) where
  | p1 (b : Byte)
  | p2 (b : Byte) (t : BitVec p.cw)
  | p3 (b : Byte) (t h : BitVec p.cw)
  | p4 (b : Byte) (h : BitVec p.cw)
  | p5 (h : BitVec p.cw)
  | done (st : Status)
  deriving DecidableEq, Repr

/-- One micro-step of a `PUT` (R201): the cell is written before `head`. -/
def putStep {p : RingParams} (r : Ring p) : PutPc p → Ring p × PutPc p
  | .p1 b => (r, .p2 b r.tail)
  | .p2 b t => (r, .p3 b t r.head)
  | .p3 b t h => (r, if h - t = BitVec.ofNat p.cw p.cap then .done .overflow else .p4 b h)
  | .p4 b h => ({ r with tx := r.tx.write (cellOf h) b }, .p5 h)
  | .p5 h => ({ r with head := h + 1 }, .done .ok)
  | .done st => (r, .done st)

/-- Where a `GET` stands (R202); `done none` is `EMPTY`. -/
inductive GetPc (p : RingParams) where
  | g1
  | g2 (h : BitVec p.cw)
  | g3 (h t : BitVec p.cw)
  | g4 (t : BitVec p.cw)
  | g5 (t : BitVec p.cw) (v : Byte)
  | done (v : Option Byte)
  deriving DecidableEq, Repr

/-- One micro-step of a `GET` (R202): the cell is read before `tail` is written. -/
def getStep {p : RingParams} (r : Ring p) : GetPc p → Ring p × GetPc p
  | .g1 => (r, .g2 r.head)
  | .g2 h => (r, .g3 h r.tail)
  | .g3 h t => (r, if h = t then .done none else .g4 t)
  | .g4 t => (r, .g5 t (r.tx.read (cellOf t)))
  | .g5 t v => ({ r with tail := t + 1 }, .done (some v))
  | .done v => (r, .done v)

/-! ### The handlers in micro-steps, as an observer beside them would see them (R202, R209 (5)) -/

/-- Where a `TXRDY` stands; `done v` is its end, with the byte it dispatched. -/
inductive TxrdyPc (p : TransportParams) where
  | get (pc : GetPc p.ring)
  | halt
  | send (v : Byte)
  | done (v : Option Byte)
  deriving DecidableEq, Repr

/-- One micro-step of a `TXRDY` (`41_transmit.md` R114, with the dequeue of R202). -/
def txrdyStep {p : TransportParams} (t : Transport p) : TxrdyPc p → Transport p × TxrdyPc p
  | .get pc =>
    let x := getStep t.ring pc
    ({ t with ring := x.1 },
      match x.2 with
      | .done none => .halt
      | .done (some v) => .send v
      | pc' => .get pc')
  | .halt => ({ t with txActive := false }, .done none)
  | .send v => (t, .done (some v))
  | .done v => (t, .done v)

/-- Where an `RXBYTE` stands; `done w` is its end, with its wake. An append stands below `L`. -/
inductive RxbytePc (p : TransportParams) where
  | b1 (b : Byte)
  | b2 (b : Byte)
  | b3 (b : Byte) (n : Fin p.l)
  | b4 (b : Byte) (n : Fin p.l)
  | b5
  | b6
  | clear
  | done (w : Bool)
  deriving DecidableEq, Repr

/-- One micro-step of an `RXBYTE` (`42_receive.md` R130): the cell and `rxLen` are written before `lineReady` (R209 (5)). -/
def rxbyteStep {p : TransportParams} (t : Transport p) : RxbytePc p → Transport p × RxbytePc p
  | .b1 b => (t, if t.lineReady then .done false else .b2 b)
  | .b2 b => (t, if h : t.rxLen.val < p.l then .b3 b ⟨t.rxLen.val, h⟩ else .clear)
  | .b3 b n => ({ t with rx := t.rx.write n.val b }, .b4 b n)
  | .b4 b n => ({ t with rxLen := n.succ }, if isTerm b then (if n.val = 0 then .clear else .b5) else .done false)
  | .b5 => ({ t with lineReady := true }, .b6)
  | .b6 => (t, .done true)
  | .clear => ({ t with rxLen := 0 }, .done false)
  | .done w => (t, .done w)

/-! ### A standalone ring with two truly concurrent agents (R203) -/

/-- The ring, what its two agents still have to do, the operation each is in, and the results so far, oldest first. -/
structure MicroRing (p : RingParams) where
  ring    : Ring p
  puts    : List Byte
  putting : Option (PutPc p)
  putLog  : List Status
  gets    : Nat
  getting : Option (GetPc p)
  getLog  : List (Option Byte)
  deriving DecidableEq, Repr

/-- The two agents of a standalone ring. -/
inductive Side where
  | producer | consumer
  deriving DecidableEq, Repr

/-- The producer's record after a micro-step of its `PUT`. -/
def MicroRing.afterPut {p : RingParams} (m : MicroRing p) (x : Ring p × PutPc p) : MicroRing p :=
  match x.2 with
  | .done st => { m with ring := x.1, putting := none, putLog := m.putLog ++ [st] }
  | pc => { m with ring := x.1, putting := some pc }

/-- The consumer's record after a micro-step of its `GET`. -/
def MicroRing.afterGet {p : RingParams} (m : MicroRing p) (x : Ring p × GetPc p) : MicroRing p :=
  match x.2 with
  | .done v => { m with ring := x.1, getting := none, getLog := m.getLog ++ [v] }
  | pc => { m with ring := x.1, getting := some pc }

/-- One micro-step of one agent (R200); an agent with nothing to do changes nothing. -/
def MicroRing.micro {p : RingParams} (m : MicroRing p) : Side → MicroRing p
  | .producer =>
    match m.putting, m.puts with
    | some pc, _ => m.afterPut (putStep m.ring pc)
    | none, b :: bs => ({ m with puts := bs } : MicroRing p).afterPut (putStep m.ring (.p1 b))
    | none, [] => m
  | .consumer =>
    match m.getting, m.gets with
    | some pc, _ => m.afterGet (getStep m.ring pc)
    | none, n + 1 => ({ m with gets := n } : MicroRing p).afterGet (getStep m.ring .g1)
    | none, 0 => m

/-- One whole operation of one agent (`00_scope.md` R9). -/
def MicroRing.whole {p : RingParams} (m : MicroRing p) : Side → MicroRing p
  | .producer =>
    match m.puts with
    | b :: bs => { m with ring := (m.ring.put b).1, puts := bs, putLog := m.putLog ++ [(m.ring.put b).2] }
    | [] => m
  | .consumer =>
    match m.gets with
    | n + 1 =>
      match m.ring.get with
      | none => { m with gets := n, getLog := m.getLog ++ [none] }
      | some (v, r) => { m with ring := r, gets := n, getLog := m.getLog ++ [some v] }
    | 0 => m

/-- Neither agent is inside an operation. -/
def MicroRing.atRest {p : RingParams} (m : MicroRing p) : Prop := m.putting = none ∧ m.getting = none

/-! ### A transport whose mainline is preempted by whole handlers (R200, R204 to R207) -/

/-- The mainline operations that can be preempted (R200). -/
inductive MainOp where
  | send (b : Byte)
  | enq  (b : Byte)
  | kick
  | poll
  deriving DecidableEq, Repr

/-- The operation of the syntax. -/
def MainOp.instr : MainOp → Instr
  | .send b => .send b
  | .enq b => .enq b
  | .kick => .kick
  | .poll => .poll

/-- Where a mainline operation stands: the micro-step it takes next. `st` is the status it will return. -/
inductive MainPc (p : TransportParams) where
  /-- in the `PUT` of an `ENQ`, or of a `SEND` (`boot`), which goes on to the bootstrap step -/
  | put (boot : Bool) (pc : PutPc p.ring)
  | k1 (st : Status)
  | k2 (st : Status) (pc : GetPc p.ring)
  | k3 (st : Status) (v : Byte)
  | k4 (st : Status) (v : Byte)
  | q1
  | q2
  /-- `got` are the bytes read so far, of `n - 1` -/
  | q3 (n : Nat) (got : List Byte)
  | q4 (got : List Byte)
  | q5 (got : List Byte)
  deriving DecidableEq, Repr

/-- The first micro-step of an operation. -/
def MainOp.start {p : TransportParams} : MainOp → MainPc p
  | .send b => .put true (.p1 b)
  | .enq b => .put false (.p1 b)
  | .kick => .k1 .ok
  | .poll => .q1

/-- What a mainline operation answers: its status and the line it returns. -/
structure Answer where
  status : Status
  line   : Option (List Byte)
  deriving DecidableEq, Repr

/-- The transport, the mainline's operations still to come and the one it is in, the environment's `inflight` (R117),
and the answers, dispatched bytes and wake pulses so far. -/
structure MicroTransport (p : TransportParams) where
  transport : Transport p
  todo      : List MainOp
  running   : Option (MainPc p)
  inflight  : Nat
  answers   : List Answer
  sent      : List Byte
  wakes     : Nat
  deriving DecidableEq, Repr

/-- Who moves: the mainline, or a handler. -/
inductive Turn where
  | main
  | txrdy
  | rxbyte (b : Byte)
  deriving DecidableEq, Repr

/-- The mainline operation ends with an answer. -/
def MicroTransport.finish {p : TransportParams} (m : MicroTransport p) (a : Answer) : MicroTransport p :=
  { m with running := none, answers := m.answers ++ [a] }

/-- The mainline operation goes on at `pc`. -/
def MicroTransport.goto {p : TransportParams} (m : MicroTransport p) (pc : MainPc p) : MicroTransport p :=
  { m with running := some pc }

/-- `emit tx(v)`: one more byte in flight (R117). -/
def MicroTransport.emit {p : TransportParams} (m : MicroTransport p) (v : Option Byte) : MicroTransport p :=
  { m with sent := m.sent ++ v.toList, inflight := m.inflight + v.toList.length }

/-- One micro-step of the mainline operation that stands at `pc`: `PUT` R201, bootstrap R204, `POLL` R206. -/
def MicroTransport.mainAt {p : TransportParams} (m : MicroTransport p) : MainPc p → MicroTransport p
  | .put boot pc =>
    let x := putStep m.transport.ring pc
    let m' : MicroTransport p := { m with transport := { m.transport with ring := x.1 } }
    match x.2 with
    | .done st => if boot then m'.goto (.k1 st) else m'.finish { status := st, line := none }
    | pc' => m'.goto (.put boot pc')
  | .k1 st => if m.transport.txActive then m.finish { status := st, line := none } else m.goto (.k2 st .g1)
  | .k2 st pc =>
    let x := getStep m.transport.ring pc
    let m' : MicroTransport p := { m with transport := { m.transport with ring := x.1 } }
    match x.2 with
    | .done none => m'.finish { status := st, line := none }
    | .done (some v) => m'.goto (.k3 st v)
    | pc' => m'.goto (.k2 st pc')
  | .k3 st v => ({ m with transport := { m.transport with txActive := true } } : MicroTransport p).goto (.k4 st v)
  | .k4 st v => (m.emit (some v)).finish { status := st, line := none }
  | .q1 => if m.transport.lineReady then m.goto .q2 else m.finish { status := .noLine, line := none }
  | .q2 => m.goto (.q3 m.transport.rxLen.val [])
  | .q3 n got =>
    if got.length + 1 < n then m.goto (.q3 n (got ++ [m.transport.rx.read got.length])) else m.goto (.q4 got)
  | .q4 got => ({ m with transport := { m.transport with rxLen := 0 } } : MicroTransport p).goto (.q5 got)
  | .q5 got =>
    ({ m with transport := { m.transport with lineReady := false } } : MicroTransport p).finish
      { status := .ok, line := some got }

/-- A handler, whole, between any two micro-steps of the mainline (R200, R169). It is total: a `TXRDY` with no byte in
flight has the effect R114 gives it (R211, `93` U7), and the environment contract of R117 is a premise of the statements
that need it (`KeepsContractAlong`). `inflight` is counted as `inflightAfter` counts it (assumption 11). -/
def MicroTransport.handler {p : TransportParams} (m : MicroTransport p) : Turn → MicroTransport p
  | .main => m
  | .txrdy =>
    ({ m with transport := m.transport.transmitReady.1, inflight := m.inflight - 1 } : MicroTransport p).emit
      m.transport.transmitReady.2
  | .rxbyte b =>
    { m with transport := (m.transport.byteReceived b).1, wakes := m.wakes + (m.transport.byteReceived b).2.toNat }

/-- One micro-step of the mainline, or one handler (R200). -/
def MicroTransport.micro {p : TransportParams} (m : MicroTransport p) : Turn → MicroTransport p
  | .main =>
    match m.running, m.todo with
    | some pc, _ => m.mainAt pc
    | none, op :: ops => ({ m with todo := ops } : MicroTransport p).mainAt op.start
    | none, [] => m
  | t => m.handler t

/-- A whole mainline operation, with the effects the meanings of `exec` have. -/
def MicroTransport.perform {p : TransportParams} (m : MicroTransport p) : MainOp → MicroTransport p
  | .send b =>
    ((({ m with transport := (m.transport.enqueue b).1.bootstrap.1 } : MicroTransport p).emit
      (m.transport.enqueue b).1.bootstrap.2)).finish { status := (m.transport.enqueue b).2, line := none }
  | .enq b =>
    ({ m with transport := (m.transport.enqueue b).1 } : MicroTransport p).finish
      { status := (m.transport.enqueue b).2, line := none }
  | .kick =>
    (({ m with transport := m.transport.bootstrap.1 } : MicroTransport p).emit m.transport.bootstrap.2).finish
      { status := .ok, line := none }
  | .poll =>
    if m.transport.lineReady then
      ({ m with transport := m.transport.consumeLine } : MicroTransport p).finish
        { status := .ok, line := some m.transport.line }
    else m.finish { status := .noLine, line := none }

/-- One whole mainline operation, or one handler (`00_scope.md` R9). -/
def MicroTransport.whole {p : TransportParams} (m : MicroTransport p) : Turn → MicroTransport p
  | .main =>
    match m.todo with
    | op :: ops => ({ m with todo := ops } : MicroTransport p).perform op
    | [] => m
  | t => m.handler t

end Sys2Proof.Machine
end

