-- ==== Sys2Proof/WellFormed.lean ====
section
/-! DEFINITION. What is checked of a program and of a construction before it is run: each line presents its operation at
a port that accepts it (`30_encoding.md` R86, R87), its word is no reserved one (R85), and the counters are wider than the
index (`00_scope.md` R8). An operation by itself has no ill-formed term: its operand is a byte, and all 256 values are
legal (R82). -/

namespace Sys2Proof

/-- One line of a program: an operation at a port (R87). -/
structure Line where
  port : Port
  op   : Instr
  deriving DecidableEq, Repr

/-- The port accepts the operation (R86). -/
def Line.wf (l : Line) : Bool := l.port.accepts l.op

/-- A program every line of which is well formed. -/
def programWf (ls : List Line) : Bool := ls.all Line.wf

/-- The ring parameters of the given `N` and `CW`: a configuration with `CW <= N` is refused (`00_scope.md` R8,
`93` U4). -/
def RingParams.ofWidths (n cw : Nat) : Option RingParams :=
  if n < cw then some { n := n, slack := cw - (n + 1) } else none

/-- The word is a command of R81, not a reserved one (R85). -/
def Cmd.wf (w : Cmd) : Bool := (decode w).isSome

end Sys2Proof
end

