-- ==== Sys2Proof/Machine/Runs.lean ====
section
/-! DEFINITION. Sequences of whole operations at ports (`20_memory.md` R59: the state after a sequence is the fold of the
step function over it), what such a sequence accepted, returned and dispatched, and the views of a state that do not
depend on its parameters. -/

namespace Sys2Proof.Machine

/-- The operation `i` presented at port `p`. -/
def State.perform (s : State) (p : Port) (i : Instr) : Host.Outcome State Fault Refusal := exec i { s with port := p }

/-- One operation that was taken, with its outcome. -/
structure Event where
  port : Port
  op   : Instr
  out  : Result
  deriving DecidableEq, Repr

/-- The operations of a list, one after the other: the state they leave and their outcomes, unless one stops. -/
def runOps (s : State) : List Line → Option (State × List Event)
  | [] => some (s, [])
  | l :: ls =>
    match s.perform l.port l.op with
    | .next t => (runOps t ls).map fun r => (r.1, { port := l.port, op := l.op, out := t.out } :: r.2)
    | .fault _ => none
    | .refused _ => none

/-- The byte an event put into the standalone ring. -/
def Event.put? (e : Event) : Option Byte :=
  match e.op with
  | .put b => if e.out.status = some .ok then some b else none
  | _ => none

/-- The byte an event accepted for transmission. -/
def Event.accepted? (e : Event) : Option Byte :=
  match e.op with
  | .send b => if e.out.status = some .ok then some b else none
  | .enq b => if e.out.status = some .ok then some b else none
  | _ => none

/-- The bytes accepted by the `PUT`s of a run, in order. -/
def bytesPut (es : List Event) : List Byte := es.filterMap Event.put?

/-- The bytes returned by the `GET`s of a run, in order. -/
def bytesGot (es : List Event) : List Byte := es.filterMap fun e => e.out.data

/-- The bytes accepted by the `ENQ`s and `SEND`s of a run, in order. -/
def bytesAccepted (es : List Event) : List Byte := es.filterMap Event.accepted?

/-- The bytes dispatched (`emit tx`) in a run, in order. -/
def bytesSent (es : List Event) : List Byte := es.filterMap fun e => e.out.tx

/-- The lines delivered in a run, in order. -/
def linesDelivered (es : List Event) : List (List Byte) := es.filterMap fun e => e.out.line

/-! ### Views -/

/-- `TX:j` of the embedded ring. -/
def State.readTx (s : State) (j : Nat) : Byte := s.transport.ring.tx.read j

/-- `RX:j`. -/
def State.readRx (s : State) (j : Nat) : Byte := s.transport.rx.read j

/-- `TX:j` of the standalone ring. -/
def State.readRing (s : State) (j : Nat) : Byte := s.standalone.tx.read j

/-- The registers of both instances, as numbers and flags. -/
structure Regs where
  head      : Nat
  tail      : Nat
  txActive  : Bool
  rxLen     : Nat
  lineReady : Bool
  ringHead  : Nat
  ringTail  : Nat
  deriving DecidableEq, Repr

/-- The registers of a state. -/
def State.regs (s : State) : Regs :=
  { head := s.transport.ring.head.toNat, tail := s.transport.ring.tail.toNat, txActive := s.transport.txActive,
    rxLen := s.transport.rxLen.val, lineReady := s.transport.lineReady,
    ringHead := s.standalone.head.toNat, ringTail := s.standalone.tail.toNat }

/-- A state less the port and the outcome of its last step: the two instances, the agents and the seeds. -/
def State.bare (s : State) : State := { s with port := .M, out := Result.silent }

end Sys2Proof.Machine
end

