-- ==== Sys2Proof/Safety.lean ====
section
/-! DEFINITION. What holds of every state a run reaches (`10_state.md` R38), what the environment promises
(`41_transmit.md` R117), and what a safe step is (`60_exceptions.md` R161). -/

namespace Sys2Proof.Machine

/-- A ring as the operations keep it: I1, the canonical form of its memory, its address space (`20_memory.md` R50), and
every live cell written (R58). -/
structure Ring.Inv {p : RingParams} (r : Ring p) : Prop where
  bounded  : r.occ.toNat ≤ p.cap
  wf       : r.tx.wf
  inSpace  : ∀ c ∈ r.tx.cells, c.1 < p.cap
  liveTx   : ∀ i, i < r.occ.toNat → r.tx.written (cellOf (r.tail + BitVec.ofNat p.cw i)) = true

/-- The receive side as the operations keep it: the canonical form of `RX`, the cells ever written (R29), every live cell
written (R58), I3 and I4. (I2, `rxLen <= L`, is the range of the register.) -/
structure Transport.RxInv {p : TransportParams} (t : Transport p) : Prop where
  wf         : t.rx.wf
  inSpace    : ∀ c ∈ t.rx.cells, c.1 < p.l
  liveRx     : ∀ i, i < t.rxLen.val → t.rx.written i = true
  lineLength : t.lineReady = true → 2 ≤ t.rxLen.val
  lineEnd    : t.lineReady = true → isTerm (t.rx.read (t.rxLen.val - 1)) = true
  linePrefix : t.lineReady = true → ∀ i, i + 1 < t.rxLen.val → isTerm (t.rx.read i) = false
  partialLine : t.lineReady = false → ∀ i, i < t.rxLen.val → isTerm (t.rx.read i) = false

/-- I1 to I4 of `10_state.md` R38 with R58, of both instances; and no suspended mainline has a line to wake it
(`70_reset_and_hazards.md` R210). -/
structure State.Inv (s : State) : Prop where
  ring       : s.transport.ring.Inv
  rx         : s.transport.RxInv
  standalone : s.standalone.Inv
  asleep     : s.agents.suspended = true → s.transport.lineReady = false

/-- I5: the transport is `Active` exactly when one byte is in flight, and never more than one is. -/
def State.OneInFlight (s : State) : Prop :=
  s.agents.inflight ≤ 1 ∧ (s.transport.txActive = true ↔ s.agents.inflight = 1)

/-- I6: an idle transport has an empty ring. -/
def State.Drained (s : State) : Prop := s.transport.txActive = false → s.transport.ring.isEmpty = true

/-- The environment contract at a step (R117): a `TXRDY` is delivered only while a byte is in flight. -/
def State.KeepsContract (s : State) : Prop := s.nextOp = some (.I, .txrdy) → s.agents.inflight = 1

/-- The environment contract along a run of the micro-step model, or of its whole operations (R117, R205): every `TXRDY`
is delivered while a byte is in flight. `move` is `MicroTransport.micro` or `MicroTransport.whole`. -/
def KeepsContractAlong {p : TransportParams} (move : MicroTransport p → Turn → MicroTransport p) :
    MicroTransport p → List Turn → Prop
  | _, [] => True
  | m, t :: ts => (t = .txrdy → m.inflight = 1) ∧ KeepsContractAlong move (move m t) ts

/-- A safe outcome: the machine goes on (R161: no fatal errors). -/
def Safe (o : Host.Outcome State Fault Refusal) : Prop := ∃ t, o = .next t

end Sys2Proof.Machine
end

