-- ==== Sys2Proof/Certificates/Slice0/Obligations.lean ====
section
/-! DEFINITION. The statements for the provers. Each docstring names the rules of spec/ it formalises; a clause that rests
on the model's own layout says so. -/

open Sys2Proof Sys2Proof.Machine

/-! ### Encoding -/

/-- R81: match, mask and operand of each row, and the ports that accept it. -/
def Obligations.OperationMapIsTheTable : Prop :=
  (∀ w : Cmd,
    (decode w = some .nop ↔ w &&& 0xFFF = 0x000) ∧
    (∀ b, decode w = some (.send b) ↔ w &&& 0xF00 = 0x100 ∧ b = w.setWidth 8) ∧
    (∀ b, decode w = some (.enq b) ↔ w &&& 0xF00 = 0x200 ∧ b = w.setWidth 8) ∧
    (decode w = some .kick ↔ w &&& 0xFFF = 0x300) ∧
    (decode w = some .poll ↔ w &&& 0xFFF = 0x400) ∧
    (∀ b, decode w = some (.put b) ↔ w &&& 0xF00 = 0x500 ∧ b = w.setWidth 8) ∧
    (decode w = some .txrdy ↔ w &&& 0xFFF = 0x800) ∧
    (∀ b, decode w = some (.rxbyte b) ↔ w &&& 0xF00 = 0x900 ∧ b = w.setWidth 8) ∧
    (decode w = some .get ↔ w &&& 0xFFF = 0xD00) ∧
    (decode w = some .reset ↔ w &&& 0xFFF = 0xF00)) ∧
  (∀ (q : Port) (b : Byte),
    (q.accepts .nop = true ↔ q = .M ∨ q = .P) ∧
    (q.accepts (.send b) = true ↔ q = .M) ∧
    (q.accepts (.enq b) = true ↔ q = .M) ∧
    (q.accepts .kick = true ↔ q = .M) ∧
    (q.accepts .poll = true ↔ q = .M) ∧
    (q.accepts (.put b) = true ↔ q = .P) ∧
    (q.accepts .txrdy = true ↔ q = .I) ∧
    (q.accepts (.rxbyte b) = true ↔ q = .I) ∧
    (q.accepts .get = true ↔ q = .C) ∧
    q.accepts .reset = true)

/-- R81: words of the table written out. A check on a few fixed words. -/
def Obligations.WordsWrittenOutDecode : Prop :=
  decode 0b000000000000 = some .nop ∧ decode 0b000101000001 = some (.send 0x41) ∧
  decode 0b001011111111 = some (.enq 0xFF) ∧ decode 0b001100000000 = some .kick ∧
  decode 0b010000000000 = some .poll ∧ decode 0b010110100101 = some (.put 0xA5) ∧
  decode 0b100000000000 = some .txrdy ∧ decode 0b100100001101 = some (.rxbyte 0x0D) ∧
  decode 0b110100000000 = some .get ∧ decode 0b111100000000 = some .reset

/-- R80 to R82: an operation and its word determine each other. -/
def Obligations.DecodeAndEncodeAgree : Prop :=
  (∀ i : Instr, decode (encode i) = some i) ∧ (∀ (w : Cmd) (i : Instr), decode w = some i → encode i = w)

/-- R83: the context bit tells the mainline and producer operations from the interrupt and consumer ones; `RESET`
belongs to neither. -/
def Obligations.ContextBitIsTheIssuer : Prop :=
  ∀ i : Instr, i ≠ .reset →
    ((encode i).getLsbD 11 = false ↔ Port.M.accepts i = true ∨ Port.P.accepts i = true) ∧
    ((encode i).getLsbD 11 = true ↔ Port.I.accepts i = true ∨ Port.C.accepts i = true)

/-- R85, R152: which words are reserved; a reserved word, or an operation at a port that does not accept it, changes no
register and no cell, emits nothing, and answers `ILLEGAL` where there is a response. -/
def Obligations.ReservedAndMisplacedAreIllegal : Prop :=
  (∀ w : Cmd, decode w = none ↔
    w.extractLsb' 8 4 ∈ [0x6#4, 0x7#4, 0xA#4, 0xB#4, 0xC#4, 0xE#4] ∨
    (w.extractLsb' 8 4 ∈ [0x0#4, 0x3#4, 0x4#4, 0x8#4, 0xD#4, 0xF#4] ∧ w.extractLsb' 0 8 ≠ 0x00#8)) ∧
  (∀ (i : Instr) (s : State), s.port.accepts i = false → ∃ t, exec i s = .next t ∧ t = { s with out := t.out } ∧
    t.out = { status := if s.port = .I then none else some .illegal, data := none, line := none, tx := none,
              wake := false }) ∧
  (∀ (s : State) (q : Port) (w : Cmd), s.served = some q → s.standing q = some w → decode w = none →
    ∃ t, step s = .next t ∧ t = { s with port := q, out := t.out, agents := t.agents } ∧
      t.out = { status := if q = .I then none else some .illegal, data := none, line := none, tx := none,
                wake := false })

/-! ### The step -/

/-- `20_memory.md` R59, `30_encoding.md` R86: the operation standing at the port a step serves is executed in that step;
the step adds only the agents' bookkeeping. (The agents' fields are the model's layout of R9, R113, R117, R153,
assumption 12.) -/
def Obligations.StepRunsTheDecodedOperation : Prop :=
  ∀ (s : State) (q : Port) (w : Cmd) (i : Instr),
    s.served = some q → s.standing q = some w → decode w = some i →
    (∀ t, exec i (s.take q) = .next t → ∃ u, step s = .next u ∧ u = { t with agents := u.agents } ∧
      u.agents.inflight = inflightAfter q (some i) t.out.tx s.agents.inflight ∧
      u.agents.suspended = (s.agents.suspended && !t.transport.lineReady)) ∧
    (∀ f, exec i (s.take q) = .fault f → step s = .fault f)

/-- The model's choice (assumption 2): a presented word is executed by the very next step, at its home port, in any
state; the two instances are as they were. -/
def Obligations.PresentedWordRunsNext : Prop :=
  ∀ (s : State) (i : Instr),
    let u := s.withFetchWord 16 (encode i).toNat
    u = { s with agents := u.agents } ∧ u.nextOp = some (i.homePort, i) ∧
      step u = settled u i.homePort i (exec i (u.take i.homePort))

/-- R151: `RESET` is taken before any other request of the same step. -/
def Obligations.ResetIsTakenFirst : Prop :=
  ∀ (s : State) (q : Port), s.standing q = some (0xF00 : Cmd) → ∃ q', s.nextOp = some (q', .reset)

/-- R86: a step takes nothing where no request stands at the port it serves; the block is then untouched. That the
outcome of such a step is silent, with no status, is the model's choice (DESIGN CHOICE, assumption 19): R150 calls a step
without a request a `NOP`, whose status is `OK`. (Which port is served is the model's `Agents.grants`, assumption 12.) -/
def Obligations.StepWithoutRequestIsQuiet : Prop :=
  ∀ s : State, (∀ q, s.served = some q → s.standing q = none) →
    ∃ t, step s = .next t ∧ t = { s with out := t.out, agents := t.agents } ∧
      t.out = { status := none, data := none, line := none, tx := none, wake := false } ∧
      t.agents.inflight = s.agents.inflight

/-- R153, R210 (the level form is D14, assumption 13): `WAIT` suspends exactly when no line is ready, in one step, and leaves the block as it was; while no line
is ready a suspended mainline presents no operation (a `RESET` at its port is the environment's, R151); and after any
step a mainline is suspended only while no line is ready. -/
def Obligations.WaitAndWakeAreByLevel : Prop :=
  (∀ (s : State) (rest : List MainStep), s.served = some .M → s.agents.suspended = false →
    s.agents.main = .wait :: rest → ∃ t, step s = .next t ∧ t = { s with out := t.out, agents := t.agents } ∧
      t.agents.main = rest ∧ t.agents.suspended = !s.transport.lineReady) ∧
  (∀ (s : State) (i : Instr), s.agents.suspended = true → s.transport.lineReady = false →
    s.nextOp = some (.M, i) → i = .reset) ∧
  (∀ s t : State, step s = .next t → t.agents.suspended = true → t.transport.lineReady = false)

/-! ### Counters and cells -/

/-- R23: `occ`, `empty` and `full` from the counters, correct across a wrap. -/
def Obligations.DerivedValuesOfTheCounters : Prop :=
  ∀ (p : RingParams) (r : Ring p),
    r.occ.toNat = (2 ^ p.cw + r.head.toNat - r.tail.toNat) % 2 ^ p.cw ∧
    (r.isEmpty = true ↔ r.head = r.tail) ∧ (r.isFull = true ↔ r.occ.toNat = 2 ^ p.n)

/-- R25: a counter addresses the cell of its low `N` bits; the bits above take no part. -/
def Obligations.CellIndexIsTheLowBits : Prop :=
  ∀ (p : RingParams) (c : BitVec p.cw),
    cellOf c = c.toNat % 2 ^ p.n ∧ cellOf c < 2 ^ p.n ∧ (p.n = 0 → cellOf c = 0)

/-- R104 (a), (c): the increment wraps from `2^CW - 1` to 0 and the cell index goes round without a jump. -/
def Obligations.CellIndexGoesRound : Prop :=
  ∀ (p : RingParams) (c : BitVec p.cw),
    (c + 1).toNat = (if c.toNat = 2 ^ p.cw - 1 then 0 else c.toNat + 1) ∧ cellOf (c + 1) = (cellOf c + 1) % 2 ^ p.n

/-- R8: exactly the configurations with `CW <= N` are refused, and every other is one of the model's. -/
def Obligations.NarrowCountersAreRefused : Prop :=
  ∀ n cw : Nat, (RingParams.ofWidths n cw = none ↔ cw ≤ n) ∧
    ∀ p, RingParams.ofWidths n cw = some p → p.n = n ∧ p.cw = cw

/-- R131: which bytes are terminators (the two codes are the spec's own choice, D6, assumption 6). -/
def Obligations.TerminatorsAreCrAndLf : Prop := ∀ b : Byte, isTerm b = true ↔ b = 0x0D ∨ b = 0x0A

/-! ### Each operation: where it completes and what it leaves -/

/-- R150, at both ports that accept it. -/
def Obligations.NopChangesNothing : Prop :=
  decode 0x000 = some .nop ∧ ∀ s : State, s.port = .M ∨ s.port = .P →
    exec .nop s = .next { s with out := { status := some .ok, data := none, line := none, tx := none, wake := false } }

/-- R151, R39: all five registers of the instance at whose port it is presented are cleared, whatever they were; the
other instance (assumption 10), the parameters and the agents are as before. Nothing is said of the cells of the instance that is
reset. -/
def Obligations.ResetClearsTheRegisters : Prop :=
  decode 0xF00 = some .reset ∧
  (∀ s : State, s.port = .M ∨ s.port = .I → ∃ t, exec .reset s = .next t ∧
    t.regs = { s.regs with head := 0, tail := 0, txActive := false, rxLen := 0, lineReady := false } ∧
    (∃ tr fr, t = { s with transport := tr, out := t.out, fresh := fr }) ∧
    t.out = { status := if s.port = .I then none else some .ok, data := none, line := none, tx := none, wake := false }) ∧
  (∀ s : State, s.port = .P ∨ s.port = .C → ∃ t, exec .reset s = .next t ∧
    t.regs = { s.regs with ringHead := 0, ringTail := 0 } ∧
    (∃ r fr, t = { s with standalone := r, out := t.out, fresh := fr }) ∧
    t.out = { status := some .ok, data := none, line := none, tx := none, wake := false })

/-- R100: `OVERFLOW` and nothing else when full, else the byte in the cell of `head`, and `head` moved on by one. -/
def Obligations.PutStoresOrOverflows : Prop :=
  (∀ b : Byte, decode (0x500 ||| b.setWidth 12) = some (.put b)) ∧
  ∀ (s : State) (b : Byte), s.port = .P →
    (s.standalone.head - s.standalone.tail = BitVec.ofNat s.rp.cw (2 ^ s.rp.n) →
      exec (.put b) s = .next { s with out := { status := some .overflow, data := none, line := none, tx := none,
                                                wake := false } }) ∧
    (s.standalone.head - s.standalone.tail ≠ BitVec.ofNat s.rp.cw (2 ^ s.rp.n) → ∃ t tx,
      t = { s with standalone := { s.standalone with head := s.standalone.head + 1, tx := tx },
                   out := { status := some .ok, data := none, line := none, tx := none, wake := false } } ∧
      exec (.put b) s = .next t ∧
      ∀ j, t.readRing j = if j = cellOf s.standalone.head then b else s.readRing j)

/-- R101; its corner (d) in the last clause, under the invariant that every live cell was written (R58). -/
def Obligations.GetReturnsOrIsEmpty : Prop :=
  decode 0xD00 = some .get ∧
  ∀ s : State, s.port = .C →
    (s.standalone.head = s.standalone.tail →
      exec .get s = .next { s with out := { status := some .empty, data := none, line := none, tx := none,
                                            wake := false } }) ∧
    (s.standalone.head ≠ s.standalone.tail →
      exec .get s = .next { s with
        standalone := { s.standalone with tail := s.standalone.tail + 1 },
        out := { status := some .ok, data := some (s.readRing (cellOf s.standalone.tail)), line := none, tx := none,
                 wake := false } }) ∧
    (s.standalone.Inv → s.standalone.head ≠ s.standalone.tail →
      s.standalone.tx.written (cellOf s.standalone.tail) = true)

/-- R110: as `PUT`, on the ring of the transport; nothing is dispatched and `txActive` stays. -/
def Obligations.EnqStoresOrOverflows : Prop :=
  (∀ b : Byte, decode (0x200 ||| b.setWidth 12) = some (.enq b)) ∧
  ∀ (s : State) (b : Byte), s.port = .M →
    (s.transport.ring.head - s.transport.ring.tail = BitVec.ofNat s.tp.ring.cw (2 ^ s.tp.ring.n) →
      exec (.enq b) s = .next { s with out := { status := some .overflow, data := none, line := none, tx := none,
                                                wake := false } }) ∧
    (s.transport.ring.head - s.transport.ring.tail ≠ BitVec.ofNat s.tp.ring.cw (2 ^ s.tp.ring.n) → ∃ t tx,
      t = { s with transport := { s.transport with
                     ring := { s.transport.ring with head := s.transport.ring.head + 1, tx := tx } },
                   out := { status := some .ok, data := none, line := none, tx := none, wake := false } } ∧
      exec (.enq b) s = .next t ∧
      ∀ j, t.readTx j = if j = cellOf s.transport.ring.head then b else s.readTx j)

/-- R111: the oldest byte is dispatched and `txActive` set when idle and not empty; nothing otherwise. -/
def Obligations.KickBootstrapsWhenIdle : Prop :=
  decode 0x300 = some .kick ∧
  ∀ s : State, s.port = .M →
    (s.transport.txActive = true ∨ s.transport.ring.head = s.transport.ring.tail →
      exec .kick s = .next { s with out := { status := some .ok, data := none, line := none, tx := none,
                                             wake := false } }) ∧
    (s.transport.txActive = false → s.transport.ring.head ≠ s.transport.ring.tail →
      exec .kick s = .next { s with
        transport := { s.transport with ring := { s.transport.ring with tail := s.transport.ring.tail + 1 },
                                        txActive := true },
        out := { status := some .ok, data := none, line := none,
                 tx := some (s.readTx (cellOf s.transport.ring.tail)), wake := false } })

/-- R112: the enqueue part by `full`, the bootstrap part by `txActive` and what the ring then holds. -/
def Obligations.SendEnqueuesThenBootstraps : Prop :=
  (∀ b : Byte, decode (0x100 ||| b.setWidth 12) = some (.send b)) ∧
  ∀ (s : State) (b : Byte), s.port = .M → ∃ t, exec (.send b) s = .next t ∧
    (let full : Bool := s.transport.ring.head - s.transport.ring.tail == BitVec.ofNat s.tp.ring.cw (2 ^ s.tp.ring.n)
     let stored : Nat → Byte := fun j => if full = false ∧ j = cellOf s.transport.ring.head then b else s.readTx j
     let head' := if full then s.transport.ring.head else s.transport.ring.head + 1
     let boots : Bool := !s.transport.txActive && head' != s.transport.ring.tail
     ∃ tx, t = { s with
       transport := { s.transport with
         ring := { head := head', tail := if boots then s.transport.ring.tail + 1 else s.transport.ring.tail, tx := tx },
         txActive := s.transport.txActive || boots },
       out := { status := some (if full then .overflow else .ok), data := none, line := none,
                tx := if boots then some (stored (cellOf s.transport.ring.tail)) else none, wake := false } } ∧
      ∀ j, t.readTx j = stored j)

/-- R114: the next byte is dispatched, or `txActive` cleared when there is none. No response. -/
def Obligations.TxrdyDrainsOrHalts : Prop :=
  decode 0x800 = some .txrdy ∧
  ∀ s : State, s.port = .I →
    (s.transport.ring.head = s.transport.ring.tail →
      exec .txrdy s = .next { s with
        transport := { s.transport with txActive := false },
        out := { status := none, data := none, line := none, tx := none, wake := false } }) ∧
    (s.transport.ring.head ≠ s.transport.ring.tail →
      exec .txrdy s = .next { s with
        transport := { s.transport with ring := { s.transport.ring with tail := s.transport.ring.tail + 1 } },
        out := { status := none, data := none, line := none,
                 tx := some (s.readTx (cellOf s.transport.ring.tail)), wake := false } })

/-- R130, in the order of R167: backpressure, overflow reset, append, terminator test, blank-line test. No response. -/
def Obligations.RxbyteFollowsItsFourCases : Prop :=
  (∀ b : Byte, decode (0x900 ||| b.setWidth 12) = some (.rxbyte b)) ∧
  ∀ (s : State) (b : Byte), s.port = .I → ∃ t rx len, exec (.rxbyte b) s = .next t ∧
    t = { s with transport := { s.transport with rx := rx, rxLen := len, lineReady := t.lineReadyLevel },
                 out := { status := none, data := none, line := none, tx := none, wake := t.wake } } ∧
    (s.transport.lineReady = true →
      t.regs = s.regs ∧ t.wake = false ∧ ∀ j, t.readRx j = s.readRx j) ∧
    (s.transport.lineReady = false → s.transport.rxLen.val = s.tp.l →
      t.regs = { s.regs with rxLen := 0 } ∧ t.wake = false ∧ ∀ j, t.readRx j = s.readRx j) ∧
    (s.transport.lineReady = false → s.transport.rxLen.val < s.tp.l →
      (∀ j, t.readRx j = if j = s.transport.rxLen.val then b else s.readRx j) ∧
      (b ≠ 0x0D ∧ b ≠ 0x0A → t.regs = { s.regs with rxLen := s.regs.rxLen + 1 } ∧ t.wake = false) ∧
      (b = 0x0D ∨ b = 0x0A →
        (s.regs.rxLen = 0 → t.regs = s.regs ∧ t.wake = false) ∧
        (s.regs.rxLen ≠ 0 → t.regs = { s.regs with rxLen := s.regs.rxLen + 1, lineReady := true } ∧ t.wake = true)))

/-- R132: no line; a line, with its length and, under I3, its freedom from terminators (corner (a)). The last clause is not R132's: its
corner (e) gives the state no meaning, and the fault is the model's reading of `93_implementation_defined.md` U6 and
`92_eei_decisions.md` D27 (DEDUCED, assumption 17). -/
def Obligations.PollDeliversTheLine : Prop :=
  decode 0x400 = some .poll ∧
  ∀ s : State, s.port = .M →
    (s.transport.lineReady = false →
      exec .poll s = .next { s with out := { status := some .noLine, data := none, line := none, tx := none,
                                             wake := false } }) ∧
    (s.transport.lineReady = true → 2 ≤ s.transport.rxLen.val →
      exec .poll s = .next { s with
        transport := { s.transport with rxLen := 0, lineReady := false },
        out := { status := some .ok, data := none,
                 line := some ((List.range (s.transport.rxLen.val - 1)).map fun j => s.readRx j),
                 tx := none, wake := false } } ∧
      1 ≤ s.transport.rxLen.val - 1 ∧ s.transport.rxLen.val - 1 ≤ s.tp.l - 1) ∧
    (s.transport.RxInv → s.transport.lineReady = true →
      2 ≤ s.transport.rxLen.val ∧ ∀ j, j < s.transport.rxLen.val - 1 → isTerm (s.readRx j) = false) ∧
    (s.transport.lineReady = true → s.transport.rxLen.val < 2 → exec .poll s = .fault .pollShortLine)

/-- `00_scope.md` R12, R132 corner (e): every operation answers a next state in every state and at every port, but for
`POLL` at `lineReady` with `rxLen < 2`. -/
def Obligations.OnlyTheShortLinePollStops : Prop :=
  ∀ (i : Instr) (s : State), (∃ t, exec i s = .next t) ∨
    (i = .poll ∧ s.port = .M ∧ s.transport.lineReady = true ∧ s.transport.rxLen.val < 2)

/-! ### What each operation leaves alone -/

/-- Frame of `PUT` and `GET` (R100, R101, R102): one register and, for a `PUT` with room, one cell; the transport, the
parameters and the agents stay. -/
def Obligations.RingOperationsFrame : Prop :=
  ∀ (i : Instr) (s t : State), (i = .get ∨ ∃ b, i = .put b) → exec i s = .next t →
    (∃ r, t = { s with standalone := r, out := t.out }) ∧
    ((∃ b, i = .put b) → t.regs = { s.regs with ringHead := t.regs.ringHead } ∧
      (s.port = .P → s.standalone.isFull = false → ∀ j, j ≠ s.standalone.putCell → t.readRing j = s.readRing j) ∧
      (s.port ≠ .P ∨ s.standalone.isFull = true → t.regs = s.regs ∧ ∀ j, t.readRing j = s.readRing j)) ∧
    (i = .get → t.regs = { s.regs with ringTail := t.regs.ringTail } ∧ ∀ j, t.readRing j = s.readRing j)

/-- Frame of `ENQ`, `KICK`, `SEND`, `TXRDY` (R110 to R112, R114, `20_memory.md` R57, R63): the receive side, the standalone
ring, the parameters and the agents stay; `ENQ` writes `head` only, `KICK` and `TXRDY` no cell; every `TX` cell stays but
the one at `head & MASK` of an accepted byte. -/
def Obligations.TransmitOperationsFrame : Prop :=
  ∀ (i : Instr) (s t : State),
    (i = .kick ∨ i = .txrdy ∨ (∃ b, i = .enq b) ∨ ∃ b, i = .send b) → exec i s = .next t →
    (∃ tr, t = { s with transport := tr, out := t.out }) ∧
    t.regs = { s.regs with head := t.regs.head, tail := t.regs.tail, txActive := t.regs.txActive } ∧
    (∀ j, t.readRx j = s.readRx j) ∧
    ((i = .kick ∨ i = .txrdy) → t.regs.head = s.regs.head ∧ ∀ j, t.readTx j = s.readTx j) ∧
    ((∃ b, i = .enq b) → t.regs.tail = s.regs.tail ∧ t.regs.txActive = s.regs.txActive) ∧
    (s.port = .M → s.transport.ring.isFull = false → ∀ j, j ≠ s.transport.ring.putCell → t.readTx j = s.readTx j) ∧
    (s.port ≠ .M ∨ s.transport.ring.isFull = true → t.regs.head = s.regs.head ∧ ∀ j, t.readTx j = s.readTx j)

/-- Frame of `RXBYTE` and `POLL` (R130, R132, `20_memory.md` R57, R63): the transmit side, the standalone ring, the
parameters and the agents stay; every `RX` cell stays but the one at `rxLen` of an appended byte. -/
def Obligations.ReceiveOperationsFrame : Prop :=
  ∀ (i : Instr) (s t : State), (i = .poll ∨ ∃ b, i = .rxbyte b) → exec i s = .next t →
    (∃ tr, t = { s with transport := tr, out := t.out }) ∧
    t.regs = { s.regs with rxLen := t.regs.rxLen, lineReady := t.regs.lineReady } ∧
    (∀ j, t.readTx j = s.readTx j) ∧
    ((∃ b, i = .rxbyte b) → s.port = .I → s.transport.lineReady = false → s.transport.rxLen.val < s.tp.l →
      ∀ j, j ≠ s.transport.appendCell → t.readRx j = s.readRx j) ∧
    (i = .poll ∨ s.port ≠ .I ∨ s.transport.lineReady = true ∨ s.transport.rxLen.val = s.tp.l →
      ∀ j, t.readRx j = s.readRx j)

/-- `10_state.md` R40, `60_exceptions.md` R174, D24: no operation at a port of one instance touches the other instance.
For `RESET` (R151) this is the model's reading, DEDUCED and unsafe (assumption 10): R151 accepts it at any port and clears
all five registers, and the model lets it reset the instance of its port alone and leave the agents as they are. That one
machine holds both instances is a DESIGN CHOICE (assumption 3). -/
def Obligations.InstancesDoNotTouchEachOther : Prop :=
  ∀ (i : Instr) (s t : State), exec i s = .next t →
    (s.port = .M ∨ s.port = .I → ∃ tr fr, t = { s with transport := tr, out := t.out, fresh := fr }) ∧
    (s.port = .P ∨ s.port = .C → ∃ r fr, t = { s with standalone := r, out := t.out, fresh := fr })

/-! ### Whole-machine rules -/

/-- `10_state.md` R21, R22, R26, R27, R28: only the operations these rules name write each register. That a `RESET` at a
port of the standalone ring writes none of them is DEDUCED (R151, assumption 10). -/
def Obligations.OnlyTheNamedOperationsWrite : Prop :=
  ∀ (i : Instr) (s t : State), exec i s = .next t → ¬ (i = .reset ∧ (s.port = .M ∨ s.port = .I)) →
    (t.regs.head ≠ s.regs.head → s.port = .M ∧ s.transport.ring.isFull = false ∧
      ((∃ b, i = .enq b) ∨ ∃ b, i = .send b)) ∧
    (t.regs.tail ≠ s.regs.tail → t.out.tx.isSome = true ∧
      (i = .txrdy ∧ s.port = .I ∨ (i = .kick ∨ ∃ b, i = .send b) ∧ s.port = .M)) ∧
    (s.regs.txActive = false → t.regs.txActive = true →
      t.out.tx.isSome = true ∧ s.port = .M ∧ (i = .kick ∨ ∃ b, i = .send b)) ∧
    (s.regs.txActive = true → t.regs.txActive = false →
      i = .txrdy ∧ s.port = .I ∧ s.transport.ring.isEmpty = true) ∧
    (t.regs.rxLen ≠ s.regs.rxLen → (∃ b, i = .rxbyte b) ∧ s.port = .I ∨ i = .poll ∧ s.port = .M) ∧
    (s.regs.lineReady = false → t.regs.lineReady = true → ∃ b, i = .rxbyte b ∧ s.port = .I ∧
      isTerm b = true ∧ 1 < t.regs.rxLen) ∧
    (s.regs.lineReady = true → t.regs.lineReady = false → i = .poll ∧ s.port = .M)

/-- `10_state.md` R30: who writes `tail` and `rxLen` is handed over by `txActive` and `lineReady`. The clause about `tail`
at port I has the environment contract (R117) as its premise. -/
def Obligations.WritersAreHandedOver : Prop :=
  ∀ (i : Instr) (s t : State), exec i s = .next t → i ≠ .reset →
    (s.port = .M → t.regs.tail ≠ s.regs.tail → s.regs.txActive = false) ∧
    (s.port = .I → s.OneInFlight → (i = .txrdy → s.agents.inflight = 1) → t.regs.tail ≠ s.regs.tail →
      s.regs.txActive = true) ∧
    (s.port = .M → t.regs.rxLen ≠ s.regs.rxLen → s.regs.lineReady = true) ∧
    (s.port = .I → t.regs.rxLen ≠ s.regs.rxLen → s.regs.lineReady = false)

/-- R84: the response word, the status codes, and `line_len = rxLen - 1` beside a line. That `data` is `0x00` where no byte
is returned is R84's word, while `93_implementation_defined.md` U8 lists that field as any value; the model follows R84
(DEDUCED, assumption 7). -/
def Obligations.ResponseWordIsStatusAndData : Prop :=
  ∀ (i : Instr) (s t : State), exec i s = .next t →
    (s.port = .I → t.out.response = none) ∧
    (s.port ≠ .I → ∃ (code : BitVec 3) (data : Byte), t.out.response = some (code ++ data) ∧
      code ∈ [0#3, 1#3, 2#3, 3#3, 7#3] ∧
      ((code = 0 ↔ t.out.status = some .ok) ∧ (code = 1 ↔ t.out.status = some .overflow) ∧
        (code = 2 ↔ t.out.status = some .empty) ∧ (code = 3 ↔ t.out.status = some .noLine) ∧
        (code = 7 ↔ t.out.status = some .illegal)) ∧
      (i = .get ∧ code = 0 → data = s.readRing (cellOf s.standalone.tail)) ∧ (i ≠ .get ∨ code ≠ 0 → data = 0)) ∧
    (∀ bs, t.out.line = some bs → i = .poll ∧ s.port = .M ∧ bs.length = s.transport.rxLen.val - 1 ∧
      1 ≤ bs.length ∧ bs.length ≤ s.tp.l - 1 ∧
      ∃ n, t.out.lineLen s.tp = some n ∧ n.toNat = bs.length)

/-- R137: the wake pulse marks exactly the steps in which `lineReady` goes from false to true; only an `RXBYTE` does. -/
def Obligations.WakeMarksTheRiseOfLineReady : Prop :=
  ∀ (i : Instr) (s t : State), exec i s = .next t →
    (t.wake = true ↔ s.lineReadyLevel = false ∧ t.lineReadyLevel = true) ∧
    (t.wake = true → ∃ b, i = .rxbyte b)

/-- R116: the transmit-activity state machine and the only dispatches. -/
def Obligations.TransmitStateMachine : Prop :=
  ∀ (i : Instr) (s t : State), exec i s = .next t → i ≠ .reset →
    (s.transport.txState = .idle → t.transport.txState = .active →
      s.port = .M ∧ (i = .kick ∨ ∃ b, i = .send b) ∧ t.out.tx.isSome = true) ∧
    (s.transport.txState = .active → t.transport.txState = .idle →
      s.port = .I ∧ i = .txrdy ∧ s.transport.ring.isEmpty = true ∧ t.out.tx = none) ∧
    (s.transport.txState = .active → t.out.tx.isSome = true → s.port = .I ∧ i = .txrdy) ∧
    (∀ v, t.out.tx = some v → (i = .txrdy ∧ s.port = .I) ∨
      (s.transport.txState = .idle ∧ t.transport.txState = .active ∧ s.port = .M))

/-- R133: the receive-path state machine, row by row, and that no other operation changes its state. -/
def Obligations.ReceiveStateMachine : Prop :=
  ∀ s t : State,
    (∀ b, s.port = .I → exec (.rxbyte b) s = .next t →
      (s.transport.rxState = .idle → isTerm b = false → 1 ≤ s.tp.l →
        t.transport.rxState = .accumulating ∧ t.readRx 0 = b ∧ t.regs.rxLen = 1) ∧
      (s.transport.rxState = .idle → isTerm b = true → 1 ≤ s.tp.l →
        t.transport.rxState = .idle ∧ t.readRx 0 = b ∧ t.wake = false) ∧
      (s.transport.rxState = .idle → s.tp.l = 0 → t.transport.rxState = .idle ∧ t.wake = false) ∧
      (s.transport.rxState = .accumulating → s.regs.rxLen < s.tp.l → isTerm b = false →
        t.transport.rxState = .accumulating ∧ t.readRx s.regs.rxLen = b ∧ t.regs.rxLen = s.regs.rxLen + 1) ∧
      (s.transport.rxState = .accumulating → s.regs.rxLen < s.tp.l → isTerm b = true →
        t.transport.rxState = .lineReady ∧ t.readRx s.regs.rxLen = b ∧ t.regs.rxLen = s.regs.rxLen + 1 ∧
        2 ≤ t.regs.rxLen ∧ t.wake = true) ∧
      (s.transport.rxState = .accumulating → s.regs.rxLen = s.tp.l →
        t.transport.rxState = .idle ∧ t.regs.rxLen = 0 ∧ t.wake = false ∧ ∀ j, t.readRx j = s.readRx j) ∧
      (s.transport.rxState = .lineReady → t.transport.rxState = .lineReady ∧ t.regs = s.regs ∧ t.wake = false ∧
        ∀ j, t.readRx j = s.readRx j)) ∧
    (s.port = .M → exec .poll s = .next t →
      (s.transport.rxState = .lineReady →
        t.transport.rxState = .idle ∧ t.out.line.isSome = true ∧ t.regs.rxLen = 0 ∧ t.regs.lineReady = false) ∧
      (s.transport.rxState ≠ .lineReady → t.regs = s.regs ∧ t.out.status = some .noLine)) ∧
    (∀ i, exec i s = .next t → i ≠ .reset → t.transport.rxState ≠ s.transport.rxState →
      (∃ b, i = .rxbyte b) ∧ s.port = .I ∧ s.transport.rxState ≠ .lineReady ∨
      i = .poll ∧ s.port = .M ∧ s.transport.rxState = .lineReady)

/-! ### Laws over operations and their sequences -/

/-- R88 (b): `SEND b` is `ENQ b; KICK` with nothing between: the same state, the status of the `ENQ`, the dispatch of
the `KICK`. -/
def Obligations.SendIsEnqThenKick : Prop :=
  ∀ (s : State) (b : Byte), ∃ x y z, s.perform .M (.send b) = .next x ∧ s.perform .M (.enq b) = .next y ∧
    y.perform .M .kick = .next z ∧ x.bare = z.bare ∧ x.out.status = y.out.status ∧ x.out.tx = z.out.tx

/-- R102: a `PUT` and a `GET` that both succeed commute. -/
def Obligations.PutAndGetCommute : Prop :=
  ∀ (s : State) (b : Byte), s.standalone.occ.toNat ≤ s.rp.cap → s.standalone.isFull = false →
    s.standalone.isEmpty = false →
    ∃ x y z w, s.perform .P (.put b) = .next x ∧ x.perform .C .get = .next y ∧
      s.perform .C .get = .next z ∧ z.perform .P (.put b) = .next w ∧
      y.bare = w.bare ∧ x.out = w.out ∧ y.out = z.out

/-- R63: every transmit-side operation commutes with every receive-side operation. -/
def Obligations.TransmitAndReceiveCommute : Prop :=
  ∀ (s : State) (l k : Line),
    (l = ⟨.I, .txrdy⟩ ∨ l = ⟨.M, .kick⟩ ∨ (∃ b, l = ⟨.M, .enq b⟩) ∨ ∃ b, l = ⟨.M, .send b⟩) →
    (k = ⟨.M, .poll⟩ ∨ ∃ b, k = ⟨.I, .rxbyte b⟩) →
    (s.transport.lineReady = true → 2 ≤ s.transport.rxLen.val) →
    ∃ x y z w, s.perform l.port l.op = .next x ∧ x.perform k.port k.op = .next y ∧
      s.perform k.port k.op = .next z ∧ z.perform l.port l.op = .next w ∧
      y.bare = w.bare ∧ x.out = w.out ∧ y.out = z.out

/-- R103: the FIFO law, over any run of operations from any state with `occ <= CAP`, as long as the ring is not reset:
what it held and what it accepted is what it returned and what it holds; and the round trip of up to `CAP` bytes from any
empty ring, wherever its counters stand. That a `RESET` at a port of the transport does not reset the ring is DEDUCED
(R151, assumption 10). -/
def Obligations.RingIsFifo : Prop :=
  (∀ (ls : List Line) (s t : State) (es : List Event), s.standalone.occ.toNat ≤ s.rp.cap →
    (∀ l ∈ ls, l.op = .reset → l.port = .M ∨ l.port = .I) → runOps s ls = some (t, es) →
    s.standalone.contents ++ bytesPut es = bytesGot es ++ t.standalone.contents ∧ t.standalone.occ.toNat ≤ t.rp.cap) ∧
  (∀ (bs : List Byte) (s : State), s.standalone.isEmpty = true → bs.length ≤ s.rp.cap →
    ∃ t es, runOps s (bs.map (fun b => ⟨.P, .put b⟩) ++ List.replicate bs.length ⟨.C, .get⟩) = some (t, es) ∧
      bytesPut es = bs ∧ bytesGot es = bs ∧ t.standalone.isEmpty = true)

/-- R60, R115: the dispatched bytes are the accepted ones in order, over any run in which the transport is not reset.
That a `RESET` at a port of the standalone ring does not reset it is DEDUCED (R151, assumption 10). -/
def Obligations.TransmissionIsInOrder : Prop :=
  ∀ (ls : List Line) (s t : State) (es : List Event), s.transport.ring.occ.toNat ≤ s.tp.ring.cap →
    (∀ l ∈ ls, l.op = .reset → l.port = .P ∨ l.port = .C) → runOps s ls = some (t, es) →
    s.transport.ring.contents ++ bytesAccepted es = bytesSent es ++ t.transport.ring.contents ∧
      t.transport.ring.occ.toNat ≤ t.tp.ring.cap

/-- R118: one `TXRDY` for each byte held and one more dispatch them all, in order, and leave the transport idle. -/
def Obligations.DrainDispatchesEverything : Prop :=
  ∀ s : State, ∃ t es,
    runOps s (List.replicate (s.transport.ring.occ.toNat + 1) ⟨.I, .txrdy⟩) = some (t, es) ∧
    bytesSent es = s.transport.ring.contents ∧ t.transport.txActive = false ∧ t.transport.ring.isEmpty = true

/-- R134 (a), R138, R61: payload without terminators, at most `L - 1` bytes, then a terminator, then a `POLL`: exactly
the payload is delivered, once, and the path is idle again. -/
def Obligations.FramedLineIsDelivered : Prop :=
  ∀ (s : State) (bs : List Byte) (term : Byte), s.transport.rxState = .idle →
    (∀ b ∈ bs, isTerm b = false) → isTerm term = true → 1 ≤ bs.length → bs.length + 1 ≤ s.tp.l →
    ∃ t es, runOps s (bs.map (fun b => ⟨.I, .rxbyte b⟩) ++ [⟨.I, .rxbyte term⟩, ⟨.M, .poll⟩, ⟨.M, .poll⟩]) = some (t, es) ∧
      linesDelivered es = [bs] ∧ t.transport.rxState = .idle

/-- R134 (b), R136: `L` payload bytes and then any byte deliver nothing, report nothing and empty the buffer. -/
def Obligations.OverlongLineIsDiscarded : Prop :=
  ∀ (s : State) (bs : List Byte) (b : Byte), s.transport.rxState = .idle →
    (∀ c ∈ bs, isTerm c = false) → bs.length = s.tp.l →
    ∃ t es, runOps s (bs.map (fun c => ⟨.I, .rxbyte c⟩) ++ [⟨.I, .rxbyte b⟩]) = some (t, es) ∧
      t.transport.rxState = .idle ∧ ∀ e ∈ es, e.out = Result.silent

/-- R134 (a): every delivered line has 1 to `L - 1` bytes and no terminator. -/
def Obligations.DeliveredLinesAreFramed : Prop :=
  ∀ (i : Instr) (s t : State) (bs : List Byte), s.Inv → exec i s = .next t → t.out.line = some bs →
    1 ≤ bs.length ∧ bs.length + 1 ≤ s.tp.l ∧ ∀ b ∈ bs, isTerm b = false

/-- R113, in the model's form of a `SENDBUF` (assumption 14): on an idle, empty transport, taken without other operations between: the first `CAP` bytes are
accepted, the result is `OVERFLOW` exactly when there were more, and one `KICK` dispatches the first byte. -/
def Obligations.SendbufAcceptsAtMostCap : Prop :=
  ∀ (s : State) (bs : List Byte) (rest : List MainStep),
    s.agents.main = .sendbuf bs .ok :: rest → s.agents.suspended = false →
    s.agents.irq.head? ≠ some resetWord → s.agents.prod.head? ≠ some resetWord → s.agents.cons.head? ≠ some resetWord →
    s.agents.grants = List.replicate (min bs.length (s.tp.ring.cap + 1) + 1) .M →
    s.transport.txActive = false → s.transport.ring.isEmpty = true →
    ∃ t : State, Host.Core.run Sys2Proof.core (min bs.length (s.tp.ring.cap + 1) + 1) s = .next t ∧
      t.agents.sendbufResult = some (if bs.length ≤ s.tp.ring.cap then .ok else .overflow) ∧
      t.agents.main = rest ∧ t.out.tx = bs.head? ∧
      t.transport.ring.contents = (bs.take s.tp.ring.cap).drop 1 ∧ t.transport.txActive = !bs.isEmpty

/-! ### Invariants -/

/-- R39: the values after reset, for every choice of the parameters, with no cell written; and the same after `RESET`, in
any state and at every port, of the instance the port belongs to (that it is that one is DEDUCED, assumption 10). -/
def Obligations.ResetStateValues : Prop :=
  (∀ (tp : TransportParams) (rp : RingParams),
    (State.resetWith tp rp).regs =
      { head := 0, tail := 0, txActive := false, rxLen := 0, lineReady := false, ringHead := 0, ringTail := 0 } ∧
    (State.resetWith tp rp).transport.ring.isEmpty = true ∧ (State.resetWith tp rp).transport.ring.occ.toNat = 0 ∧
    (State.resetWith tp rp).standalone.isEmpty = true ∧ (State.resetWith tp rp).standalone.occ.toNat = 0 ∧
    (State.resetWith tp rp).transport.rxState = .idle ∧
    (∀ j, (State.resetWith tp rp).transport.ring.tx.written j = false ∧
      (State.resetWith tp rp).transport.rx.written j = false ∧
      (State.resetWith tp rp).standalone.tx.written j = false)) ∧
  (∀ s : State, s.port = .M ∨ s.port = .I → ∃ t, exec .reset s = .next t ∧ t.transport.ring.isEmpty = true ∧
    t.transport.ring.occ.toNat = 0 ∧ t.transport.rxState = .idle ∧
    t.regs = { s.regs with head := 0, tail := 0, txActive := false, rxLen := 0, lineReady := false } ∧
    ∀ j, t.transport.ring.tx.written j = false ∧ t.transport.rx.written j = false) ∧
  (∀ s : State, s.port = .P ∨ s.port = .C → ∃ t, exec .reset s = .next t ∧ t.standalone.isEmpty = true ∧
    t.standalone.occ.toNat = 0 ∧ t.regs = { s.regs with ringHead := 0, ringTail := 0 } ∧
    ∀ j, t.standalone.tx.written j = false)

/-- R38: the invariants hold after reset, for every choice of the parameters; I5 and I6 too. -/
def Obligations.ResetStateMeetsTheInvariants : Prop :=
  ∀ (tp : TransportParams) (rp : RingParams), (State.resetWith tp rp).Inv ∧ (State.resetWith tp rp).OneInFlight ∧
    (State.resetWith tp rp).Drained

/-- R38 I1 to I4, R58, R210: every step keeps them, whatever is presented and in whatever order. -/
def Obligations.StepKeepsTheInvariants : Prop := ∀ s t : State, s.Inv → step s = .next t → t.Inv

/-- R161: no fatal errors: from a state with the invariants every step goes on. -/
def Obligations.StepNeverStops : Prop := ∀ s : State, s.Inv → Safe (step s)

/-- R59, R161: any sequence of operations at any ports runs to its end from a state with the invariants. -/
def Obligations.RunsNeverStop : Prop :=
  ∀ (ls : List Line) (s : State), s.Inv → ∃ t es, runOps s ls = some (t, es) ∧
    t.transport.ring.Inv ∧ t.transport.RxInv ∧ t.standalone.Inv

/-- R38 I5, R117: under the environment contract every step keeps `txActive` equal to one byte in flight. The ghost
`inflight` is cleared by a `RESET` of the transport (the model's choice, assumption 11). -/
def Obligations.StepKeepsOneInFlight : Prop :=
  ∀ s t : State, s.OneInFlight → s.KeepsContract → step s = .next t → t.OneInFlight

/-- R38 I6: `KICK` and `SEND` leave an idle transport empty, and every operation but `ENQ` keeps that. -/
def Obligations.ClosedRunsLeaveIdleEmpty : Prop :=
  (∀ (i : Instr) (s t : State), (i = .kick ∨ ∃ b, i = .send b) → s.port = .M → exec i s = .next t → t.Drained) ∧
  (∀ (i : Instr) (s t : State), (∀ b, i ≠ .enq b) → s.Drained → exec i s = .next t → t.Drained)

/-! ### Micro-steps -/

/-- R203: with one producer and one consumer, every interleaving of the micro-steps of `PUT`s and `GET`s that ends at
rest gives the statuses, the returned bytes and the final state of some order of the whole operations. -/
def Obligations.RingMicroStepsAreWholeOperations : Prop :=
  ∀ (p : RingParams) (m : MicroRing p) (turns : List Side), m.atRest → m.ring.occ.toNat ≤ p.cap →
    (turns.foldl MicroRing.micro m).atRest →
    ∃ order : List Side, order.foldl MicroRing.whole m = turns.foldl MicroRing.micro m

/-- R205, R207: under the environment contract, mainline operations preempted between any two micro-steps by whole
handlers give the answers, the dispatches, the wakes and the final state of some order of whole operations, in which the
contract holds too. -/
def Obligations.PreemptedMainlineIsWholeOperations : Prop :=
  ∀ (p : TransportParams) (m : MicroTransport p) (turns : List Turn), m.running = none →
    m.transport.ring.occ.toNat ≤ p.ring.cap → (m.transport.lineReady = true → 2 ≤ m.transport.rxLen.val) →
    m.inflight ≤ 1 → (m.transport.txActive = true ↔ m.inflight = 1) →
    KeepsContractAlong MicroTransport.micro m turns → (turns.foldl MicroTransport.micro m).running = none →
    ∃ order : List Turn, KeepsContractAlong MicroTransport.whole m order ∧
      order.foldl MicroTransport.whole m = turns.foldl MicroTransport.micro m

/-- R200 to R202, R209: the micro-steps of `PUT`, `GET`, `TXRDY` and `RXBYTE`, taken with nothing between, do what the whole
operation does. (An operation that has ended stays as it is, so the count is the longest one's.) -/
def Obligations.UninterruptedMicroStepsAreTheOperation : Prop :=
  (∀ (p : RingParams) (r : Ring p) (b : Byte),
    (fun x => putStep x.1 x.2)^[5] (r, .p1 b) = ((r.put b).1, .done (r.put b).2)) ∧
  (∀ (p : RingParams) (r : Ring p), (fun x => getStep x.1 x.2)^[5] (r, .g1) =
    match r.get with
    | none => (r, .done none)
    | some (v, r') => (r', .done (some v))) ∧
  (∀ (p : TransportParams) (t : Transport p), (fun x => txrdyStep x.1 x.2)^[6] (t, .get .g1) =
    (t.transmitReady.1, .done t.transmitReady.2)) ∧
  (∀ (p : TransportParams) (t : Transport p) (b : Byte), (fun x => rxbyteStep x.1 x.2)^[6] (t, .b1 b) =
    ((t.byteReceived b).1, .done (t.byteReceived b).2))

/-- R201, R202, R204, R206, R209: the micro-steps in which an operation publishes what it did come last, in every
operation: each such micro-step is reached only from the one that does what it publishes. The order of the read of `RX`
cells in a `POLL`, one by one from 0, is R206's q3. -/
def Obligations.PublicationComesLast : Prop :=
  -- `PUT`: `head` is written in p5 alone, p5 comes only after p4, and p4 has written the cell
  (∀ (p : RingParams) (r : Ring p) (pc : PutPc p), (putStep r pc).1.head ≠ r.head →
    ∃ h, pc = .p5 h ∧ (putStep r pc).1 = { r with head := h + 1 }) ∧
  (∀ (p : RingParams) (r : Ring p) (pc : PutPc p) (h : BitVec p.cw), (putStep r pc).2 = .p5 h →
    ∃ b, pc = .p4 b h ∧ (putStep r pc).1.tx.read (cellOf h) = b ∧ (putStep r pc).1.head = r.head) ∧
  -- `GET`: `tail` is written in g5 alone, g5 comes only after g4, and g4 has read the cell
  (∀ (p : RingParams) (r : Ring p) (pc : GetPc p), (getStep r pc).1.tail ≠ r.tail →
    ∃ t v, pc = .g5 t v ∧ (getStep r pc).2 = .done (some v)) ∧
  (∀ (p : RingParams) (r : Ring p) (pc : GetPc p) (t : BitVec p.cw) (v : Byte), (getStep r pc).2 = .g5 t v →
    pc = .g4 t ∧ v = r.tx.read (cellOf t) ∧ (getStep r pc).1 = r) ∧
  -- `RXBYTE`: `lineReady` is written in b5 alone, b5 comes only after b4, which has written `rxLen`, and b4 only after
  -- b3, which has written the cell
  (∀ (p : TransportParams) (t : Transport p) (pc : RxbytePc p), (rxbyteStep t pc).1.lineReady ≠ t.lineReady →
    pc = .b5 ∧ (rxbyteStep t pc).1 = { t with lineReady := true }) ∧
  (∀ (p : TransportParams) (t : Transport p) (pc : RxbytePc p), (rxbyteStep t pc).2 = .b5 →
    ∃ b n, pc = .b4 b n ∧ isTerm b = true ∧ (rxbyteStep t pc).1 = { t with rxLen := n.succ }) ∧
  (∀ (p : TransportParams) (t : Transport p) (pc : RxbytePc p) (b : Byte) (n : Fin p.l),
    (rxbyteStep t pc).2 = .b4 b n → pc = .b3 b n ∧ (rxbyteStep t pc).1.rx.read n.val = b ∧
      (rxbyteStep t pc).1.rxLen = t.rxLen ∧ (rxbyteStep t pc).1.lineReady = t.lineReady) ∧
  -- bootstrap: a byte is dispatched in k4 alone, k4 comes only after k3, and k3 has set `txActive`
  (∀ (p : TransportParams) (m : MicroTransport p) (pc : MainPc p), (m.mainAt pc).sent ≠ m.sent →
    ∃ st v, pc = .k4 st v) ∧
  (∀ (p : TransportParams) (m : MicroTransport p) (pc : MainPc p) (st : Status) (v : Byte),
    (m.mainAt pc).running = some (.k4 st v) → pc = .k3 st v ∧ (m.mainAt pc).transport.txActive = true ∧
      (m.mainAt pc).sent = m.sent) ∧
  -- `POLL`: `rxLen` is written in q4 alone and `lineReady` in q5 alone; q5 comes only after q4, q4 only after q3 has read
  -- the last cell, and q3 goes on only from q2, which has read `rxLen`, or by reading one cell more
  (∀ (p : TransportParams) (m : MicroTransport p) (pc : MainPc p),
    ((m.mainAt pc).transport.rxLen ≠ m.transport.rxLen → ∃ got, pc = .q4 got) ∧
    ((m.mainAt pc).transport.lineReady ≠ m.transport.lineReady →
      ∃ got, pc = .q5 got ∧ (m.mainAt pc).transport.lineReady = false)) ∧
  (∀ (p : TransportParams) (m : MicroTransport p) (pc : MainPc p) (got : List Byte),
    (m.mainAt pc).running = some (.q5 got) → pc = .q4 got ∧ (m.mainAt pc).transport.rxLen.val = 0 ∧
      (m.mainAt pc).transport.lineReady = m.transport.lineReady) ∧
  (∀ (p : TransportParams) (m : MicroTransport p) (pc : MainPc p) (got : List Byte),
    (m.mainAt pc).running = some (.q4 got) → ∃ n, pc = .q3 n got ∧ n ≤ got.length + 1) ∧
  (∀ (p : TransportParams) (m : MicroTransport p) (pc : MainPc p) (n : Nat) (got : List Byte),
    (m.mainAt pc).running = some (.q3 n got) →
      (pc = .q2 ∧ n = m.transport.rxLen.val ∧ got = []) ∨
      ∃ before, pc = .q3 n before ∧ before.length + 1 < n ∧
        got = before ++ [m.transport.rx.read before.length]) ∧
  -- and each of the last two of `POLL` does write
  (∀ (p : TransportParams) (m : MicroTransport p) (got : List Byte),
    (m.mainAt (.q4 got)).transport.rxLen.val = 0 ∧ (m.mainAt (.q4 got)).running = some (.q5 got) ∧
    (m.mainAt (.q5 got)).transport.lineReady = false)

/-- R200, `60_exceptions.md` R169: in the micro-step model a handler is one whole operation, `exec`'s, whatever the
mainline stands at and whether or not a byte is in flight, and leaves the mainline where it stood; and a whole mainline
operation there is `exec`'s at port M. (A `POLL` is compared where `exec` gives it a meaning, R132.) -/
def Obligations.MicroModelTakesTheMeaningsOfExec : Prop :=
  ∀ (s : State) (m : MicroTransport s.tp), m.transport = s.transport →
    (s.port = .I → ∃ tx, exec .txrdy s = .next { s with
        transport := (m.micro .txrdy).transport,
        out := { status := none, data := none, line := none, tx := tx, wake := false } } ∧
      (m.micro .txrdy).sent = m.sent ++ tx.toList ∧
      (m.micro .txrdy).inflight = inflightAfter .I (some .txrdy) tx m.inflight) ∧
    (s.port = .I → ∀ b, ∃ w, exec (.rxbyte b) s = .next { s with
        transport := (m.micro (.rxbyte b)).transport,
        out := { status := none, data := none, line := none, tx := none, wake := w } } ∧
      (m.micro (.rxbyte b)).wakes = m.wakes + w.toNat) ∧
    (∀ turn : Turn, turn ≠ .main → (m.micro turn).running = m.running ∧ (m.micro turn).todo = m.todo ∧
      (m.micro turn).answers = m.answers) ∧
    (s.port = .M → ∀ op : MainOp, (s.transport.lineReady = true → 2 ≤ s.transport.rxLen.val) →
      ∃ (a : Answer) (tx : Option Byte), exec op.instr s = .next { s with
          transport := (m.perform op).transport,
          out := { status := some a.status, data := none, line := a.line, tx := tx, wake := false } } ∧
        (m.perform op).answers = m.answers ++ [a] ∧ (m.perform op).sent = m.sent ++ tx.toList ∧
        (m.perform op).inflight = inflightAfter .M (some op.instr) tx m.inflight)

/-- R205, R211: without the environment contract the equivalence fails. From some state with every other premise of
`PreemptedMainlineIsWholeOperations`, some interleaving in which the contract does not hold (a `TXRDY` comes while `inflight`
is not 1) dispatches what no order of whole operations dispatches. -/
def Obligations.SpuriousTransmitReadyBreaksTheEquivalence : Prop :=
  ∃ (p : TransportParams) (m : MicroTransport p) (turns : List Turn), m.running = none ∧
    m.transport.ring.occ.toNat ≤ p.ring.cap ∧ (m.transport.lineReady = true → 2 ≤ m.transport.rxLen.val) ∧
    m.inflight ≤ 1 ∧ (m.transport.txActive = true ↔ m.inflight = 1) ∧
    ¬ KeepsContractAlong MicroTransport.micro m turns ∧ (turns.foldl MicroTransport.micro m).running = none ∧
    ∀ order : List Turn, (order.foldl MicroTransport.whole m).sent ≠ (turns.foldl MicroTransport.micro m).sent
end

