-- ==== Sys2Proof/Laws/Cells.lean ====
section
/-! SUPPORT. The laws of a cell memory: read after write, what a write leaves alone, and that the canonical form and the
address space are kept. -/

namespace Sys2Proof.Machine

theorem cellAt_setCell (cs : List Host.Cell) (i j : Nat) (b : Byte) :
    cellAt (setCell cs i b) j = if j = i then some b else cellAt cs j := by
  induction cs with
  | nil => simp [setCell, cellAt, eq_comm]
  | cons c cs ih =>
    unfold setCell
    split
    · by_cases h : i = j
      · simp [cellAt, h]
      · simp [cellAt, h, Ne.symm h]
    · split
      · rename_i _ h
        by_cases h' : i = j
        · simp [cellAt, h']
        · have : c.1 ≠ j := h ▸ h'
          simp [cellAt, h', this, Ne.symm h']
      · rename_i _ h
        by_cases h' : c.1 = j
        · have : j ≠ i := h' ▸ h
          simp [cellAt, h', this]
        · simp [cellAt, h', ih]

theorem mem_setCell {cs : List Host.Cell} {i : Nat} {b : Byte} {c : Host.Cell} (h : c ∈ setCell cs i b) :
    c = (i, b) ∨ c ∈ cs := by
  induction cs with
  | nil => exact .inl (by simpa [setCell] using h)
  | cons d cs ih =>
    unfold setCell at h
    split at h
    · simpa using h
    · split at h
      · obtain rfl | h := List.mem_cons.mp h
        · exact .inl rfl
        · exact .inr (List.mem_cons_of_mem _ h)
      · obtain rfl | h := List.mem_cons.mp h
        · exact .inr (List.mem_cons_self ..)
        · exact (ih h).imp_right (List.mem_cons_of_mem _)

theorem pairwise_setCell (cs : List Host.Cell) (i : Nat) (b : Byte) (h : cs.Pairwise fun a b => a.1 < b.1) :
    (setCell cs i b).Pairwise fun a b => a.1 < b.1 := by
  induction cs with
  | nil => simp [setCell]
  | cons c cs ih =>
    obtain ⟨hc, hcs⟩ := List.pairwise_cons.mp h
    unfold setCell
    split
    · rename_i hi
      refine List.pairwise_cons.mpr ⟨fun d hd => ?_, h⟩
      obtain rfl | hd := List.mem_cons.mp hd
      · exact hi
      · exact hi.trans (hc d hd)
    · split
      · rename_i hi
        exact List.pairwise_cons.mpr ⟨fun d hd => hi ▸ hc d hd, hcs⟩
      · refine List.pairwise_cons.mpr ⟨fun d hd => ?_, ih hcs⟩
        obtain rfl | hd := mem_setCell hd
        · show c.1 < i
          omega
        · exact hc d hd

theorem CellMem.read_write (m : CellMem) (i j : Nat) (b : Byte) :
    (m.write i b).read j = if j = i then b else m.read j := by
  by_cases h : j = i <;> simp [CellMem.read, CellMem.write, cellAt_setCell, h]

@[simp] theorem CellMem.read_write_same (m : CellMem) (i : Nat) (b : Byte) : (m.write i b).read i = b := by
  simp [CellMem.read_write]

theorem CellMem.read_write_other (m : CellMem) {i j : Nat} (b : Byte) (h : j ≠ i) :
    (m.write i b).read j = m.read j := by
  simp [CellMem.read_write, h]

theorem CellMem.written_write (m : CellMem) (i j : Nat) (b : Byte) :
    (m.write i b).written j = (decide (j = i) || m.written j) := by
  by_cases h : j = i <;> simp [CellMem.written, CellMem.write, cellAt_setCell, h]

theorem CellMem.wf_write (m : CellMem) (i : Nat) (b : Byte) (h : m.wf) : (m.write i b).wf :=
  pairwise_setCell m.cells i b h

theorem CellMem.wf_unwritten (seed : Nat) : (CellMem.unwritten seed).wf := List.Pairwise.nil

theorem CellMem.written_unwritten (seed i : Nat) : (CellMem.unwritten seed).written i = false := rfl

theorem CellMem.inSpace_write {m : CellMem} {i n : Nat} {b : Byte} (h : ∀ c ∈ m.cells, c.1 < n) (hi : i < n) :
    ∀ c ∈ (m.write i b).cells, c.1 < n := by
  intro c hc
  obtain rfl | hc := mem_setCell hc
  · exact hi
  · exact h c hc

end Sys2Proof.Machine
end

