-- ==== Sys2Proof/Laws/Decode.lean ====
section
/-! SUPPORT. The decoder on a word given as its two fields: each row's match and mask say `op`, and `data` where it must be
zero (`30_encoding.md` R80 to R82). -/

namespace Sys2Proof

/-- The command word of the two fields of R80. -/
def Cmd.of (o : BitVec 4) (b : Byte) : Cmd := o ++ b

@[simp] theorem Cmd.op_of (o : BitVec 4) (b : Byte) : (Cmd.of o b).op = o := BitVec.extractLsb'_append_eq_left

@[simp] theorem Cmd.data_of (o : BitVec 4) (b : Byte) : (Cmd.of o b).data = b := BitVec.extractLsb'_append_eq_right

theorem Cmd.of_inj {o o' : BitVec 4} {b b' : Byte} (h : Cmd.of o b = Cmd.of o' b') : o = o' ∧ b = b' :=
  ⟨by simpa using congrArg Cmd.op h, by simpa using congrArg Cmd.data h⟩

/-- A word is its two fields. -/
theorem Cmd.of_op_data (w : Cmd) : Cmd.of w.op w.data = w := by
  refine BitVec.eq_of_getLsbD_eq fun i hi => ?_
  show (BitVec.extractLsb' 8 4 w ++ BitVec.extractLsb' 0 8 w).getLsbD i = w.getLsbD i
  rw [BitVec.getLsbD_append, BitVec.getLsbD_extractLsb', BitVec.getLsbD_extractLsb']
  by_cases h : i < 8
  · simp [h]
  · have h4 : i - 8 < 4 := by omega
    have h8 : 8 + (i - 8) = i := by omega
    simp [h, h4, h8]

theorem encode_eq_of (i : Instr) : encode i = Cmd.of i.opcode i.operand := rfl

/-- A row that reads an operand looks at `op` alone. -/
theorem selects_op (o m : BitVec 4) (b : Byte) : (Cmd.of o b).selects 0xF00 (Cmd.of m 0x00) = (o == m) := by
  have h1 : Cmd.of o b &&& 0xF00 = Cmd.of o 0x00 := by
    refine BitVec.eq_of_getLsbD_eq fun i hi => ?_
    show (o ++ b &&& (0xF00#12)).getLsbD i = (o ++ 0x00#8).getLsbD i
    rw [BitVec.getLsbD_and, BitVec.getLsbD_append, BitVec.getLsbD_append]
    interval_cases i <;> simp
  rw [Cmd.selects, h1, Bool.eq_iff_iff, beq_iff_eq, beq_iff_eq]
  exact ⟨fun h => (Cmd.of_inj h).1, fun h => h ▸ rfl⟩

/-- A row without an operand looks at the whole word. -/
theorem selects_word (o m : BitVec 4) (b c : Byte) :
    (Cmd.of o b).selects 0xFFF (Cmd.of m c) = (o == m && b == c) := by
  have h1 : Cmd.of o b &&& 0xFFF = Cmd.of o b := BitVec.and_allOnes
  rw [Cmd.selects, h1, Bool.eq_iff_iff, beq_iff_eq, Bool.and_eq_true, beq_iff_eq, beq_iff_eq]
  exact ⟨Cmd.of_inj, fun h => by rw [h.1, h.2]⟩

/-- The decoder by its fields. -/
theorem decode_of (o : BitVec 4) (b : Byte) : decode (Cmd.of o b) =
    if o = 0x0 ∧ b = 0 then some .nop
    else if o = 0x1 then some (.send b)
    else if o = 0x2 then some (.enq b)
    else if o = 0x3 ∧ b = 0 then some .kick
    else if o = 0x4 ∧ b = 0 then some .poll
    else if o = 0x5 then some (.put b)
    else if o = 0x8 ∧ b = 0 then some .txrdy
    else if o = 0x9 then some (.rxbyte b)
    else if o = 0xD ∧ b = 0 then some .get
    else if o = 0xF ∧ b = 0 then some .reset
    else none := by
  have e0 : (Cmd.of o b).selects 0xFFF 0x000 = (o == 0x0 && b == 0) := selects_word o 0x0 b 0
  have e1 : (Cmd.of o b).selects 0xF00 0x100 = (o == 0x1) := selects_op o 0x1 b
  have e2 : (Cmd.of o b).selects 0xF00 0x200 = (o == 0x2) := selects_op o 0x2 b
  have e3 : (Cmd.of o b).selects 0xFFF 0x300 = (o == 0x3 && b == 0) := selects_word o 0x3 b 0
  have e4 : (Cmd.of o b).selects 0xFFF 0x400 = (o == 0x4 && b == 0) := selects_word o 0x4 b 0
  have e5 : (Cmd.of o b).selects 0xF00 0x500 = (o == 0x5) := selects_op o 0x5 b
  have e8 : (Cmd.of o b).selects 0xFFF 0x800 = (o == 0x8 && b == 0) := selects_word o 0x8 b 0
  have e9 : (Cmd.of o b).selects 0xF00 0x900 = (o == 0x9) := selects_op o 0x9 b
  have eD : (Cmd.of o b).selects 0xFFF 0xD00 = (o == 0xD && b == 0) := selects_word o 0xD b 0
  have eF : (Cmd.of o b).selects 0xFFF 0xF00 = (o == 0xF && b == 0) := selects_word o 0xF b 0
  simp only [decode, Cmd.data_of, e0, e1, e2, e3, e4, e5, e8, e9, eD, eF, Bool.and_eq_true, beq_iff_eq]

end Sys2Proof
end

