-- ==== Sys2Proof/Laws/State.lean ====
section
/-! SUPPORT. One lemma per field per named update of `State`, each true by unfolding once. -/

namespace Sys2Proof.Machine

/-! ### `setTransport` -/

@[simp] theorem setTransport_transport (s : State) (t : Transport s.tp) : (s.setTransport t).transport = t := rfl
@[simp] theorem setTransport_tp (s : State) (t : Transport s.tp) : (s.setTransport t).tp = s.tp := rfl
@[simp] theorem setTransport_rp (s : State) (t : Transport s.tp) : (s.setTransport t).rp = s.rp := rfl
@[simp] theorem setTransport_standalone (s : State) (t : Transport s.tp) :
    (s.setTransport t).standalone = s.standalone := rfl
@[simp] theorem setTransport_port (s : State) (t : Transport s.tp) : (s.setTransport t).port = s.port := rfl
@[simp] theorem setTransport_out (s : State) (t : Transport s.tp) : (s.setTransport t).out = s.out := rfl
@[simp] theorem setTransport_agents (s : State) (t : Transport s.tp) : (s.setTransport t).agents = s.agents := rfl
@[simp] theorem setTransport_fresh (s : State) (t : Transport s.tp) : (s.setTransport t).fresh = s.fresh := rfl

/-! ### `setStandalone` -/

@[simp] theorem setStandalone_standalone (s : State) (r : Ring s.rp) : (s.setStandalone r).standalone = r := rfl
@[simp] theorem setStandalone_tp (s : State) (r : Ring s.rp) : (s.setStandalone r).tp = s.tp := rfl
@[simp] theorem setStandalone_rp (s : State) (r : Ring s.rp) : (s.setStandalone r).rp = s.rp := rfl
@[simp] theorem setStandalone_transport (s : State) (r : Ring s.rp) :
    (s.setStandalone r).transport = s.transport := rfl
@[simp] theorem setStandalone_port (s : State) (r : Ring s.rp) : (s.setStandalone r).port = s.port := rfl
@[simp] theorem setStandalone_out (s : State) (r : Ring s.rp) : (s.setStandalone r).out = s.out := rfl
@[simp] theorem setStandalone_agents (s : State) (r : Ring s.rp) : (s.setStandalone r).agents = s.agents := rfl
@[simp] theorem setStandalone_fresh (s : State) (r : Ring s.rp) : (s.setStandalone r).fresh = s.fresh := rfl

/-! ### `setOut` -/

@[simp] theorem setOut_out (s : State) (r : Result) : (s.setOut r).out = r := rfl
@[simp] theorem setOut_tp (s : State) (r : Result) : (s.setOut r).tp = s.tp := rfl
@[simp] theorem setOut_rp (s : State) (r : Result) : (s.setOut r).rp = s.rp := rfl
@[simp] theorem setOut_transport (s : State) (r : Result) : (s.setOut r).transport = s.transport := rfl
@[simp] theorem setOut_standalone (s : State) (r : Result) : (s.setOut r).standalone = s.standalone := rfl
@[simp] theorem setOut_port (s : State) (r : Result) : (s.setOut r).port = s.port := rfl
@[simp] theorem setOut_agents (s : State) (r : Result) : (s.setOut r).agents = s.agents := rfl
@[simp] theorem setOut_fresh (s : State) (r : Result) : (s.setOut r).fresh = s.fresh := rfl

/-! ### `resetTransport`, `resetStandalone` -/

@[simp] theorem resetTransport_transport (s : State) :
    s.resetTransport.transport = Transport.reset s.tp s.fresh := rfl
@[simp] theorem resetTransport_tp (s : State) : s.resetTransport.tp = s.tp := rfl
@[simp] theorem resetTransport_rp (s : State) : s.resetTransport.rp = s.rp := rfl
@[simp] theorem resetTransport_standalone (s : State) : s.resetTransport.standalone = s.standalone := rfl
@[simp] theorem resetTransport_port (s : State) : s.resetTransport.port = s.port := rfl
@[simp] theorem resetTransport_agents (s : State) : s.resetTransport.agents = s.agents := rfl
@[simp] theorem resetStandalone_standalone (s : State) :
    s.resetStandalone.standalone = Ring.reset s.rp s.fresh := rfl
@[simp] theorem resetStandalone_tp (s : State) : s.resetStandalone.tp = s.tp := rfl
@[simp] theorem resetStandalone_rp (s : State) : s.resetStandalone.rp = s.rp := rfl
@[simp] theorem resetStandalone_transport (s : State) : s.resetStandalone.transport = s.transport := rfl
@[simp] theorem resetStandalone_port (s : State) : s.resetStandalone.port = s.port := rfl
@[simp] theorem resetStandalone_agents (s : State) : s.resetStandalone.agents = s.agents := rfl

/-! ### `take`, `wakeUp` -/

@[simp] theorem take_tp (s : State) (p : Port) : (s.take p).tp = s.tp := rfl
@[simp] theorem take_rp (s : State) (p : Port) : (s.take p).rp = s.rp := rfl
@[simp] theorem take_transport (s : State) (p : Port) : (s.take p).transport = s.transport := rfl
@[simp] theorem take_standalone (s : State) (p : Port) : (s.take p).standalone = s.standalone := rfl
@[simp] theorem take_port (s : State) (p : Port) : (s.take p).port = p := rfl
@[simp] theorem take_out (s : State) (p : Port) : (s.take p).out = s.out := rfl
@[simp] theorem take_fresh (s : State) (p : Port) : (s.take p).fresh = s.fresh := rfl
@[simp] theorem wakeUp_tp (s : State) : s.wakeUp.tp = s.tp := rfl
@[simp] theorem wakeUp_rp (s : State) : s.wakeUp.rp = s.rp := rfl
@[simp] theorem wakeUp_transport (s : State) : s.wakeUp.transport = s.transport := rfl
@[simp] theorem wakeUp_standalone (s : State) : s.wakeUp.standalone = s.standalone := rfl
@[simp] theorem wakeUp_port (s : State) : s.wakeUp.port = s.port := rfl
@[simp] theorem wakeUp_out (s : State) : s.wakeUp.out = s.out := rfl
@[simp] theorem wakeUp_fresh (s : State) : s.wakeUp.fresh = s.fresh := rfl
@[simp] theorem wakeUp_suspended (s : State) : s.wakeUp.agents.suspended = s.blocked := rfl
@[simp] theorem wakeUp_inflight (s : State) : s.wakeUp.agents.inflight = s.agents.inflight := rfl

/-! ### `settle`: what a step adds touches the agents only -/

@[simp] theorem settle_tp (s : State) (p : Port) (i : Option Instr) (t : State) : (s.settle p i t).tp = t.tp := rfl
@[simp] theorem settle_rp (s : State) (p : Port) (i : Option Instr) (t : State) : (s.settle p i t).rp = t.rp := rfl
@[simp] theorem settle_transport (s : State) (p : Port) (i : Option Instr) (t : State) :
    (s.settle p i t).transport = t.transport := rfl
@[simp] theorem settle_standalone (s : State) (p : Port) (i : Option Instr) (t : State) :
    (s.settle p i t).standalone = t.standalone := rfl
@[simp] theorem settle_port (s : State) (p : Port) (i : Option Instr) (t : State) :
    (s.settle p i t).port = t.port := rfl
@[simp] theorem settle_out (s : State) (p : Port) (i : Option Instr) (t : State) :
    (s.settle p i t).out = t.out := rfl

end Sys2Proof.Machine
end

