-- ==== Sys2Proof/Laws/Ring.lean ====
section
/-! SUPPORT. The counter arithmetic of a ring (`40_ringbuffer.md` R104) and what the inner `PUT` and `GET` do to its
registers, its cells, its contents and its invariant. -/

namespace Sys2Proof.Machine

variable {p : RingParams}

/-! ### Counters and cell indices -/

theorem cap_pos (p : RingParams) : 0 < p.cap := Nat.two_pow_pos p.n

theorem cap_dvd (p : RingParams) : p.cap ∣ 2 ^ p.cw := pow_dvd_pow 2 (by simp only [RingParams.cw]; omega)

/-- `2 * CAP <= 2^CW`: what `CW >= N + 1` gives (`00_scope.md` R8). -/
theorem two_cap_le (p : RingParams) : 2 * p.cap ≤ 2 ^ p.cw := by
  have h : 2 * p.cap = 2 ^ (p.n + 1) := by rw [RingParams.cap, pow_succ]; omega
  exact h ▸ Nat.pow_le_pow_right (by omega) (by simp only [RingParams.cw]; omega)

theorem cap_lt (p : RingParams) : p.cap < 2 ^ p.cw := by
  have := two_cap_le p; have := cap_pos p; omega

theorem cellOf_eq_mod (c : BitVec p.cw) : cellOf c = c.toNat % p.cap := by
  have := cap_lt p
  rw [cellOf, maskOf, BitVec.toNat_and, BitVec.toNat_ofNat, Nat.mod_eq_of_lt (by omega),
    Nat.and_two_pow_sub_one_eq_mod]

theorem cellOf_lt (c : BitVec p.cw) : cellOf c < p.cap := by
  rw [cellOf_eq_mod]; exact Nat.mod_lt _ (cap_pos p)

theorem cellOf_add (c : BitVec p.cw) (i : Nat) : cellOf (c + BitVec.ofNat p.cw i) = (c.toNat + i) % p.cap := by
  rw [cellOf_eq_mod, BitVec.toNat_add, BitVec.toNat_ofNat, Nat.mod_mod_of_dvd _ (cap_dvd p),
    Nat.add_mod, Nat.mod_mod_of_dvd _ (cap_dvd p), ← Nat.add_mod]

/-- Two positions less than `CAP` apart share no cell. -/
theorem cellOf_add_inj (c : BitVec p.cw) {i j : Nat} (hi : i < p.cap) (hj : j < p.cap)
    (h : cellOf (c + BitVec.ofNat p.cw i) = cellOf (c + BitVec.ofNat p.cw j)) : i = j := by
  rw [cellOf_add, cellOf_add] at h
  have h' : i ≡ j [MOD p.cap] := Nat.ModEq.add_left_cancel' _ h
  exact Nat.ModEq.eq_of_lt_of_lt h' hi hj

theorem one_lt_two_pow_cw (p : RingParams) : 1 < 2 ^ p.cw := by
  have := two_cap_le p; have := cap_pos p; omega

@[simp] theorem toNat_one_cw (p : RingParams) : (1 : BitVec p.cw).toNat = 1 := by
  have := one_lt_two_pow_cw p
  simp only [BitVec.ofNat_eq_ofNat, BitVec.toNat_ofNat]
  exact Nat.mod_eq_of_lt this

/-- `head` is `tail` moved on by the occupancy. -/
theorem Ring.head_eq (r : Ring p) : r.head = r.tail + BitVec.ofNat p.cw r.occ.toNat := by
  rw [BitVec.ofNat_toNat, BitVec.setWidth_eq, Ring.occ, BitVec.add_comm, BitVec.sub_add_cancel]

theorem Ring.isEmpty_iff (r : Ring p) : r.isEmpty = true ↔ r.occ.toNat = 0 := by
  rw [Ring.isEmpty, beq_iff_eq]
  constructor
  · intro h; simp [Ring.occ, h]
  · intro h
    have h0 := r.head_eq
    rw [h] at h0
    simpa using h0

theorem Ring.isFull_iff (r : Ring p) : r.isFull = true ↔ r.occ.toNat = p.cap := by
  have hc := cap_lt p
  rw [Ring.isFull, beq_iff_eq, ← BitVec.toNat_inj, BitVec.toNat_ofNat, Nat.mod_eq_of_lt hc]

/-- The occupancy after `head` has moved on by one, while there is room. -/
theorem occ_succ_head (h t : BitVec p.cw) (hb : (h - t).toNat < p.cap) :
    (h + 1 - t).toNat = (h - t).toNat + 1 := by
  have h1 : h + 1 - t = (h - t) + 1 := by
    rw [BitVec.sub_eq_add_neg, BitVec.sub_eq_add_neg, BitVec.add_assoc, BitVec.add_comm 1, ← BitVec.add_assoc]
  have hc := cap_lt p
  rw [h1, BitVec.toNat_add, toNat_one_cw, Nat.mod_eq_of_lt (by omega)]

/-- The occupancy after `tail` has moved on by one, while there is a byte. -/
theorem occ_succ_tail (h t : BitVec p.cw) (hb : h ≠ t) : (h - (t + 1)).toNat + 1 = (h - t).toNat := by
  have h1 : (h - t) = (h - (t + 1)) + 1 := by
    rw [BitVec.sub_eq_add_neg h (t + 1), BitVec.neg_add, BitVec.sub_eq_add_neg, BitVec.sub_eq_add_neg, BitVec.add_assoc,
      BitVec.add_assoc, BitVec.add_comm (-1) 1, BitVec.add_right_neg, BitVec.add_zero]
  have hne : (h - t).toNat ≠ 0 := by
    intro h0
    apply hb
    have : h - t = 0#p.cw := BitVec.eq_of_toNat_eq (by simpa using h0)
    calc h = (h - t) + t := (BitVec.sub_add_cancel h t).symm
      _ = t := by rw [this, BitVec.zero_add]
  have h2 : (h - t).toNat = ((h - (t + 1)).toNat + 1) % 2 ^ p.cw := by
    conv_lhs => rw [h1]
    rw [BitVec.toNat_add, toNat_one_cw]
  have h3 := (h - (t + 1)).isLt
  by_cases h4 : (h - (t + 1)).toNat + 1 = 2 ^ p.cw
  · rw [h4, Nat.mod_self] at h2; exact absurd h2 hne
  · rw [h2, Nat.mod_eq_of_lt (by omega)]

/-! ### `PUT` -/

theorem Ring.put_full (r : Ring p) (b : Byte) (h : r.isFull = true) : r.put b = (r, .overflow) := by
  simp [Ring.put, h]

theorem Ring.put_room (r : Ring p) (b : Byte) (h : r.isFull = false) :
    r.put b = ({ r with tx := r.tx.write r.putCell b, head := r.head + 1 }, .ok) := by
  simp [Ring.put, h]

/-- Everything a `PUT` can do. -/
theorem Ring.put_cases (r : Ring p) (b : Byte) :
    (r.isFull = true ∧ r.put b = (r, .overflow)) ∨
    (r.isFull = false ∧ r.put b = ({ r with tx := r.tx.write r.putCell b, head := r.head + 1 }, .ok)) := by
  cases h : r.isFull
  · exact .inr ⟨rfl, r.put_room b h⟩
  · exact .inl ⟨rfl, r.put_full b h⟩

theorem Ring.occ_lt_of_room (r : Ring p) (h : r.isFull = false) (hb : r.occ.toNat ≤ p.cap) : r.occ.toNat < p.cap := by
  have : ¬ r.occ.toNat = p.cap := fun e => by simp [r.isFull_iff.mpr e] at h
  omega

theorem Ring.putCell_eq (r : Ring p) : r.putCell = cellOf (r.tail + BitVec.ofNat p.cw r.occ.toNat) := by
  rw [← r.head_eq]; rfl

/-- A `PUT` with room adds its byte at the end of the contents (R100, R103). -/
theorem Ring.contents_put (r : Ring p) (b : Byte) (h : r.isFull = false) (hb : r.occ.toNat ≤ p.cap) :
    (r.put b).1.contents = r.contents ++ [b] := by
  have hlt := r.occ_lt_of_room h hb
  have hocc := occ_succ_head r.head r.tail hlt
  rw [r.put_room b h]
  simp only [Ring.contents, Ring.occ] at *
  rw [hocc, List.range_succ, List.map_append, List.map_singleton]
  congr 1
  · refine List.map_congr_left fun i hi => ?_
    rw [List.mem_range] at hi
    refine CellMem.read_write_other _ _ fun e => ?_
    rw [r.putCell_eq] at e
    have := cellOf_add_inj r.tail (by omega) hlt e
    omega
  · rw [r.putCell_eq]
    simp only [Ring.occ, CellMem.read_write_same]

theorem Ring.inv_put (r : Ring p) (b : Byte) (h : r.Inv) : (r.put b).1.Inv := by
  obtain ⟨hf, he⟩ | ⟨hf, he⟩ := r.put_cases b
  · rw [he]; exact h
  · have hlt := r.occ_lt_of_room hf h.bounded
    have hocc : ((r.put b).1).occ.toNat = r.occ.toNat + 1 := by rw [he]; exact occ_succ_head r.head r.tail hlt
    rw [he] at hocc ⊢
    refine ⟨by omega, CellMem.wf_write _ _ _ h.wf, CellMem.inSpace_write h.inSpace (cellOf_lt _), fun i hi => ?_⟩
    show (r.tx.write r.putCell b).written _ = true
    rw [CellMem.written_write, Bool.or_eq_true, decide_eq_true_iff]
    by_cases hi' : i < r.occ.toNat
    · exact .inr (h.liveTx i hi')
    · have : i = r.occ.toNat := by omega
      subst this
      exact .inl r.putCell_eq.symm

/-! ### `GET` -/

theorem Ring.get_empty (r : Ring p) (h : r.isEmpty = true) : r.get = none := by simp [Ring.get, h]

theorem Ring.get_some (r : Ring p) (h : r.isEmpty = false) :
    r.get = some (r.tx.read r.getCell, { r with tail := r.tail + 1 }) := by simp [Ring.get, h]

/-- Everything a `GET` can do. -/
theorem Ring.get_cases (r : Ring p) :
    (r.isEmpty = true ∧ r.get = none) ∨
    (r.isEmpty = false ∧ r.get = some (r.tx.read r.getCell, { r with tail := r.tail + 1 })) := by
  cases h : r.isEmpty
  · exact .inr ⟨rfl, r.get_some h⟩
  · exact .inl ⟨rfl, r.get_empty h⟩

theorem Ring.occ_after_get (r : Ring p) (h : r.isEmpty = false) :
    (Ring.occ { r with tail := r.tail + 1 }).toNat + 1 = r.occ.toNat :=
  occ_succ_tail r.head r.tail (by simpa [Ring.isEmpty] using h)

theorem Ring.contents_empty (r : Ring p) (h : r.isEmpty = true) : r.contents = [] := by
  simp [Ring.contents, r.isEmpty_iff.mp h]

theorem tail_succ_add (t : BitVec p.cw) (i : Nat) :
    t + 1 + BitVec.ofNat p.cw i = t + BitVec.ofNat p.cw (i + 1) := by
  rw [BitVec.add_assoc, BitVec.ofNat_add, BitVec.add_comm (BitVec.ofNat p.cw i)]
  rfl

/-- A successful `GET` takes the first of the contents (R101, R103). -/
theorem Ring.contents_get (r : Ring p) (h : r.isEmpty = false) :
    r.contents = r.tx.read r.getCell :: (Ring.contents { r with tail := r.tail + 1 }) := by
  have hocc := r.occ_after_get h
  rw [Ring.contents, ← hocc, List.range_succ_eq_map, List.map_cons, List.map_map]
  congr 1
  · simp [Ring.getCell]
  · refine List.map_congr_left fun i _ => ?_
    show r.tx.read (cellOf (r.tail + BitVec.ofNat p.cw (i + 1))) = r.tx.read (cellOf (r.tail + 1 + BitVec.ofNat p.cw i))
    rw [tail_succ_add]

theorem Ring.inv_tail_succ (r : Ring p) (h : r.Inv) (he : r.isEmpty = false) :
    Ring.Inv { r with tail := r.tail + 1 } := by
  have hocc := r.occ_after_get he
  refine ⟨by have := h.bounded; omega, h.wf, h.inSpace, fun i hi => ?_⟩
  show r.tx.written (cellOf (r.tail + 1 + BitVec.ofNat p.cw i)) = true
  rw [tail_succ_add]
  exact h.liveTx (i + 1) (by omega)

theorem Ring.inv_get {r r' : Ring p} {v : Byte} (h : r.Inv) (hg : r.get = some (v, r')) : r'.Inv := by
  obtain ⟨_, he⟩ | ⟨he, hs⟩ := r.get_cases
  · rw [he] at hg; cases hg
  · rw [hs] at hg; cases hg; exact r.inv_tail_succ h he

theorem Ring.inv_reset (p : RingParams) (seed : Nat) : (Ring.reset p seed).Inv := by
  have h : (Ring.reset p seed).occ.toNat = 0 := by simp [Ring.reset, Ring.occ]
  exact ⟨by omega, CellMem.wf_unwritten seed, fun c hc => absurd hc (List.not_mem_nil), fun i hi => by omega⟩

end Sys2Proof.Machine
end

