-- ==== Sys2Proof/Laws/Transport.lean ====
section
/-! SUPPORT. What the enqueue and bootstrap steps, the two handlers and the consumption of a line can do, case by case,
and that each keeps its side's invariant. -/

namespace Sys2Proof.Machine

variable {p : TransportParams}

/-! ### Transmit side -/

/-- Everything an enqueue step can do (R110). -/
theorem Transport.enqueue_cases (t : Transport p) (b : Byte) :
    (t.ring.isFull = true ∧ t.enqueue b = (t, .overflow)) ∨
    (t.ring.isFull = false ∧ t.enqueue b =
      ({ t with ring := { t.ring with tx := t.ring.tx.write t.ring.putCell b, head := t.ring.head + 1 } }, .ok)) := by
  obtain ⟨hf, he⟩ | ⟨hf, he⟩ := t.ring.put_cases b
  · exact .inl ⟨hf, by rw [Transport.enqueue, he]⟩
  · exact .inr ⟨hf, by rw [Transport.enqueue, he]⟩

/-- Everything a bootstrap step can do (R111). -/
theorem Transport.bootstrap_cases (t : Transport p) :
    (t.txActive = true ∧ t.bootstrap = (t, none)) ∨
    (t.txActive = false ∧ t.ring.isEmpty = true ∧ t.bootstrap = (t, none)) ∨
    (t.txActive = false ∧ t.ring.isEmpty = false ∧ t.bootstrap =
      ({ t with ring := { t.ring with tail := t.ring.tail + 1 }, txActive := true },
        some (t.ring.tx.read t.ring.getCell))) := by
  cases ha : t.txActive
  · obtain ⟨he, hg⟩ | ⟨he, hg⟩ := t.ring.get_cases
    · exact .inr (.inl ⟨rfl, he, by simp [Transport.bootstrap, ha, hg]⟩)
    · exact .inr (.inr ⟨rfl, he, by simp [Transport.bootstrap, ha, hg]⟩)
  · exact .inl ⟨rfl, by simp [Transport.bootstrap, ha]⟩

/-- Everything the transmit-ready handler can do (R114). -/
theorem Transport.transmitReady_cases (t : Transport p) :
    (t.ring.isEmpty = true ∧ t.transmitReady = ({ t with txActive := false }, none)) ∨
    (t.ring.isEmpty = false ∧ t.transmitReady =
      ({ t with ring := { t.ring with tail := t.ring.tail + 1 } }, some (t.ring.tx.read t.ring.getCell))) := by
  obtain ⟨he, hg⟩ | ⟨he, hg⟩ := t.ring.get_cases
  · exact .inl ⟨he, by simp [Transport.transmitReady, hg]⟩
  · exact .inr ⟨he, by simp [Transport.transmitReady, hg]⟩

/-- The transmit side of a transport leaves its receive side alone (`20_memory.md` R63). -/
theorem Transport.enqueue_rx (t : Transport p) (b : Byte) :
    (t.enqueue b).1.rx = t.rx ∧ (t.enqueue b).1.rxLen = t.rxLen ∧ (t.enqueue b).1.lineReady = t.lineReady := by
  simp [Transport.enqueue]

theorem Transport.bootstrap_rx (t : Transport p) :
    t.bootstrap.1.rx = t.rx ∧ t.bootstrap.1.rxLen = t.rxLen ∧ t.bootstrap.1.lineReady = t.lineReady := by
  obtain ⟨_, h⟩ | ⟨_, _, h⟩ | ⟨_, _, h⟩ := t.bootstrap_cases <;> simp [h]

theorem Transport.transmitReady_rx (t : Transport p) :
    t.transmitReady.1.rx = t.rx ∧ t.transmitReady.1.rxLen = t.rxLen ∧ t.transmitReady.1.lineReady = t.lineReady := by
  obtain ⟨_, h⟩ | ⟨_, h⟩ := t.transmitReady_cases <;> simp [h]

theorem Transport.ringInv_enqueue (t : Transport p) (b : Byte) (h : t.ring.Inv) : (t.enqueue b).1.ring.Inv :=
  t.ring.inv_put b h

theorem Transport.ringInv_bootstrap (t : Transport p) (h : t.ring.Inv) : t.bootstrap.1.ring.Inv := by
  obtain ⟨_, e⟩ | ⟨_, _, e⟩ | ⟨_, he, e⟩ := t.bootstrap_cases <;> rw [e]
  · exact h
  · exact h
  · exact t.ring.inv_tail_succ h he

theorem Transport.ringInv_transmitReady (t : Transport p) (h : t.ring.Inv) : t.transmitReady.1.ring.Inv := by
  obtain ⟨_, e⟩ | ⟨he, e⟩ := t.transmitReady_cases <;> rw [e]
  · exact h
  · exact t.ring.inv_tail_succ h he

/-- The receive invariant is about the receive side alone. -/
theorem Transport.rxInv_of_rx_eq {t t' : Transport p} (h : t.RxInv)
    (e : t'.rx = t.rx ∧ t'.rxLen = t.rxLen ∧ t'.lineReady = t.lineReady) : t'.RxInv := by
  obtain ⟨_, _, rx, rxLen, lineReady⟩ := t
  obtain ⟨_, _, rx', rxLen', lineReady'⟩ := t'
  obtain ⟨rfl, rfl, rfl⟩ : rx' = rx ∧ rxLen' = rxLen ∧ lineReady' = lineReady := e
  exact ⟨h.wf, h.inSpace, h.liveRx, h.lineLength, h.lineEnd, h.linePrefix, h.partialLine⟩

/-! ### Receive side -/

/-- Everything the byte-received handler can do: backpressure, overflow reset, append, blank line, line complete (R130,
in the order of R167). -/
theorem Transport.byteReceived_cases (t : Transport p) (b : Byte) :
    (t.lineReady = true ∧ t.byteReceived b = (t, false)) ∨
    (t.lineReady = false ∧ t.rxLen.val = p.l ∧ t.byteReceived b = ({ t with rxLen := 0 }, false)) ∨
    (t.lineReady = false ∧ ∃ h : t.rxLen.val < p.l,
      (isTerm b = false ∧ t.byteReceived b =
        ({ t with rx := t.rx.write t.rxLen.val b, rxLen := ⟨t.rxLen.val + 1, by omega⟩ }, false)) ∨
      (isTerm b = true ∧ t.rxLen.val = 0 ∧ t.byteReceived b =
        ({ t with rx := t.rx.write t.rxLen.val b, rxLen := 0 }, false)) ∨
      (isTerm b = true ∧ 1 ≤ t.rxLen.val ∧ t.byteReceived b =
        ({ t with rx := t.rx.write t.rxLen.val b, rxLen := ⟨t.rxLen.val + 1, by omega⟩, lineReady := true }, true))) := by
  cases hr : t.lineReady
  · refine .inr ?_
    by_cases hl : t.rxLen.val = p.l
    · exact .inl ⟨rfl, hl, by simp [Transport.byteReceived, hr, hl]⟩
    · have hlt : t.rxLen.val < p.l := by have := t.rxLen.isLt; omega
      refine .inr ⟨rfl, hlt, ?_⟩
      cases hb : isTerm b
      · exact .inl ⟨rfl, by simp [Transport.byteReceived, Transport.appendCell, hr, hl, hb]⟩
      · by_cases h0 : t.rxLen.val = 0
        · have h0l : ¬ 0 = p.l := fun e => hl (h0.trans e)
          exact .inr (.inl ⟨rfl, h0, by simp [Transport.byteReceived, Transport.appendCell, hr, hb, h0, h0l]⟩)
        · exact .inr (.inr ⟨rfl, by omega, by simp [Transport.byteReceived, Transport.appendCell, hr, hl, hb, h0]⟩)
  · exact .inl ⟨rfl, by simp [Transport.byteReceived, hr]⟩

theorem Transport.byteReceived_tx (t : Transport p) (b : Byte) :
    (t.byteReceived b).1.ring = t.ring ∧ (t.byteReceived b).1.txActive = t.txActive := by
  obtain ⟨_, h⟩ | ⟨_, _, h⟩ | ⟨_, _, ⟨_, h⟩ | ⟨_, _, h⟩ | ⟨_, _, h⟩⟩ := t.byteReceived_cases b <;> simp [h]

/-- Every case of the byte-received handler keeps the receive invariant. -/
theorem Transport.rxInv_byteReceived (t : Transport p) (b : Byte) (h : t.RxInv) : (t.byteReceived b).1.RxInv := by
  have hlive : ∀ i, i < t.rxLen.val + 1 → (t.rx.write t.rxLen.val b).written i = true := by
    intro i hi
    rw [CellMem.written_write, Bool.or_eq_true, decide_eq_true_iff]
    by_cases e : i = t.rxLen.val
    · exact .inl e
    · exact .inr (h.liveRx i (by omega))
  have hold : ∀ i, i < t.rxLen.val → (t.rx.write t.rxLen.val b).read i = t.rx.read i :=
    fun i hi => CellMem.read_write_other _ _ (by omega)
  obtain ⟨_, e⟩ | ⟨hr, _, e⟩ | ⟨hr, hl, ⟨hb, e⟩ | ⟨hb, h0, e⟩ | ⟨hb, h1, e⟩⟩ := t.byteReceived_cases b <;> rw [e]
  · exact h
  · exact ⟨h.wf, h.inSpace, fun i hi => absurd hi (Nat.not_lt_zero i), by simp [hr], by simp [hr], by simp [hr],
      fun _ i hi => absurd hi (Nat.not_lt_zero i)⟩
  · refine ⟨CellMem.wf_write _ _ _ h.wf, CellMem.inSpace_write h.inSpace hl, hlive, by simp [hr], by simp [hr],
      by simp [hr], fun _ i hi => ?_⟩
    have hi : i < t.rxLen.val + 1 := hi
    by_cases ei : i = t.rxLen.val
    · subst ei; simpa using hb
    · exact (hold i (by omega)) ▸ h.partialLine hr i (by omega)
  · exact ⟨CellMem.wf_write _ _ _ h.wf, CellMem.inSpace_write h.inSpace hl, fun i hi => absurd hi (Nat.not_lt_zero i),
      by simp [hr], by simp [hr], by simp [hr], fun _ i hi => absurd hi (Nat.not_lt_zero i)⟩
  · refine ⟨CellMem.wf_write _ _ _ h.wf, CellMem.inSpace_write h.inSpace hl, hlive,
      fun _ => show 2 ≤ t.rxLen.val + 1 by omega, fun _ => ?_, fun _ i hi => ?_, by simp⟩
    · show isTerm ((t.rx.write t.rxLen.val b).read (t.rxLen.val + 1 - 1)) = true
      simpa using hb
    · have hi : i + 1 < t.rxLen.val + 1 := hi
      exact (hold i (by omega)) ▸ h.partialLine hr i (by omega)

theorem Transport.rxInv_consumeLine (t : Transport p) (h : t.RxInv) : t.consumeLine.RxInv :=
  ⟨h.wf, h.inSpace, fun i hi => absurd hi (Nat.not_lt_zero i), by simp [Transport.consumeLine],
    by simp [Transport.consumeLine], by simp [Transport.consumeLine], fun _ i hi => absurd hi (Nat.not_lt_zero i)⟩

theorem Transport.rxInv_reset (p : TransportParams) (seed : Nat) : (Transport.reset p seed).RxInv :=
  ⟨CellMem.wf_unwritten _, fun _ hc => absurd hc (List.not_mem_nil), fun i hi => absurd hi (Nat.not_lt_zero i),
    by simp [Transport.reset], by simp [Transport.reset], by simp [Transport.reset],
    fun _ i hi => absurd hi (Nat.not_lt_zero i)⟩

theorem Transport.line_length (t : Transport p) : t.line.length = t.rxLen.val - 1 := by simp [Transport.line]

end Sys2Proof.Machine
end

