-- ==== Sys2Proof/Laws/Exec.lean ====
section
/-! SUPPORT. What `exec` answers for each operation at a port that accepts it and at one that does not, said once. -/

namespace Sys2Proof.Machine

theorem accepting_yes (s : State) (i : Instr) (o : Host.Outcome State Fault Refusal) (h : s.port.accepts i = true) :
    s.accepting i o = o := by simp [State.accepting, h]

theorem accepting_no (s : State) (i : Instr) (o : Host.Outcome State Fault Refusal) (h : s.port.accepts i = false) :
    s.accepting i o = .next s.illegal := by simp [State.accepting, h]

/-- An operation at a port that does not accept it (`43_system.md` R152). -/
theorem exec_not_accepted (i : Instr) (s : State) (h : s.port.accepts i = false) : exec i s = .next s.illegal := by
  cases i <;> exact accepting_no _ _ _ h

theorem accepts_nop (q : Port) : q.accepts .nop = (q == .M || q == .P) := by cases q <;> rfl
theorem accepts_send (q : Port) (b : Byte) : q.accepts (.send b) = (q == .M) := by cases q <;> rfl
theorem accepts_enq (q : Port) (b : Byte) : q.accepts (.enq b) = (q == .M) := by cases q <;> rfl
theorem accepts_kick (q : Port) : q.accepts .kick = (q == .M) := by cases q <;> rfl
theorem accepts_poll (q : Port) : q.accepts .poll = (q == .M) := by cases q <;> rfl
theorem accepts_put (q : Port) (b : Byte) : q.accepts (.put b) = (q == .P) := by cases q <;> rfl
theorem accepts_txrdy (q : Port) : q.accepts .txrdy = (q == .I) := by cases q <;> rfl
theorem accepts_rxbyte (q : Port) (b : Byte) : q.accepts (.rxbyte b) = (q == .I) := by cases q <;> rfl
theorem accepts_get (q : Port) : q.accepts .get = (q == .C) := by cases q <;> rfl
theorem accepts_reset (q : Port) : q.accepts .reset = true := by cases q <;> rfl

/-- The inversion lemma of `exec`: if it answers a next state, then one of these. -/
theorem exec_cases {i : Instr} {s t : State} (h : exec i s = .next t) :
    (s.port.accepts i = false ∧ t = s.illegal) ∨
    (i = .nop ∧ (s.port = .M ∨ s.port = .P) ∧ t = s.respond .ok) ∨
    (∃ b, i = .send b ∧ s.port = .M ∧ t = (s.setTransport (s.transport.enqueue b).1.bootstrap.1).setOut
      { Result.of (s.transport.enqueue b).2 with tx := (s.transport.enqueue b).1.bootstrap.2 }) ∨
    (∃ b, i = .enq b ∧ s.port = .M ∧
      t = (s.setTransport (s.transport.enqueue b).1).respond (s.transport.enqueue b).2) ∨
    (i = .kick ∧ s.port = .M ∧ t = (s.setTransport s.transport.bootstrap.1).setOut
      { Result.of .ok with tx := s.transport.bootstrap.2 }) ∨
    (i = .poll ∧ s.port = .M ∧ s.transport.lineReady = false ∧ t = s.respond .noLine) ∨
    (i = .poll ∧ s.port = .M ∧ s.transport.lineReady = true ∧ 2 ≤ s.transport.rxLen.val ∧
      t = (s.setTransport s.transport.consumeLine).setOut { Result.of .ok with line := some s.transport.line }) ∨
    (∃ b, i = .put b ∧ s.port = .P ∧ t = (s.setStandalone (s.standalone.put b).1).respond (s.standalone.put b).2) ∨
    (i = .txrdy ∧ s.port = .I ∧ t = (s.setTransport s.transport.transmitReady.1).setOut
      { Result.silent with tx := s.transport.transmitReady.2 }) ∨
    (∃ b, i = .rxbyte b ∧ s.port = .I ∧ t = (s.setTransport (s.transport.byteReceived b).1).setOut
      { Result.silent with wake := (s.transport.byteReceived b).2 }) ∨
    (i = .get ∧ s.port = .C ∧ s.standalone.isEmpty = true ∧ t = s.respond .empty) ∨
    (i = .get ∧ s.port = .C ∧ s.standalone.isEmpty = false ∧
      t = (s.setStandalone { s.standalone with tail := s.standalone.tail + 1 }).setOut
        { Result.of .ok with data := some (s.standalone.tx.read s.standalone.getCell) }) ∨
    (i = .reset ∧ s.port = .M ∧ t = s.resetTransport.respond .ok) ∨
    (i = .reset ∧ s.port = .I ∧ t = s.resetTransport.setOut Result.silent) ∨
    (i = .reset ∧ (s.port = .P ∨ s.port = .C) ∧ t = s.resetStandalone.respond .ok) := by
  cases ha : s.port.accepts i
  · rw [exec_not_accepted i s ha] at h
    cases h; exact .inl ⟨rfl, rfl⟩
  · refine .inr ?_
    cases i with
    | nop =>
      simp only [exec, execNop, accepting_yes _ _ _ ha] at h
      cases h
      rw [accepts_nop] at ha
      exact .inl ⟨rfl, by simpa using ha, rfl⟩
    | send b =>
      simp only [exec, execSend, accepting_yes _ _ _ ha] at h
      cases h
      rw [accepts_send] at ha
      exact .inr (.inl ⟨b, rfl, by simpa using ha, rfl⟩)
    | enq b =>
      simp only [exec, execEnq, accepting_yes _ _ _ ha] at h
      cases h
      rw [accepts_enq] at ha
      exact .inr (.inr (.inl ⟨b, rfl, by simpa using ha, rfl⟩))
    | kick =>
      simp only [exec, execKick, accepting_yes _ _ _ ha] at h
      cases h
      rw [accepts_kick] at ha
      exact .inr (.inr (.inr (.inl ⟨rfl, by simpa using ha, rfl⟩)))
    | poll =>
      simp only [exec, execPoll, accepting_yes _ _ _ ha] at h
      rw [accepts_poll] at ha
      split at h
      · rename_i hr
        cases h
        exact .inr (.inr (.inr (.inr (.inl ⟨rfl, by simpa using ha, hr, rfl⟩))))
      · split at h
        · cases h
        · rename_i hr hl
          cases h
          exact .inr (.inr (.inr (.inr (.inr (.inl ⟨rfl, by simpa using ha, by simpa using hr, by omega, rfl⟩)))))
    | put b =>
      simp only [exec, execPut, accepting_yes _ _ _ ha] at h
      cases h
      rw [accepts_put] at ha
      exact .inr (.inr (.inr (.inr (.inr (.inr (.inl ⟨b, rfl, by simpa using ha, rfl⟩))))))
    | txrdy =>
      simp only [exec, execTxrdy, accepting_yes _ _ _ ha] at h
      cases h
      rw [accepts_txrdy] at ha
      exact .inr (.inr (.inr (.inr (.inr (.inr (.inr (.inl ⟨rfl, by simpa using ha, rfl⟩)))))))
    | rxbyte b =>
      simp only [exec, execRxbyte, accepting_yes _ _ _ ha] at h
      cases h
      rw [accepts_rxbyte] at ha
      exact .inr (.inr (.inr (.inr (.inr (.inr (.inr (.inr (.inl ⟨b, rfl, by simpa using ha, rfl⟩))))))))
    | get =>
      simp only [exec, execGet, accepting_yes _ _ _ ha] at h
      rw [accepts_get] at ha
      obtain ⟨he, hg⟩ | ⟨he, hg⟩ := s.standalone.get_cases <;> rw [hg] at h <;> cases h
      · exact .inr (.inr (.inr (.inr (.inr (.inr (.inr (.inr (.inr (.inl ⟨rfl, by simpa using ha, he, rfl⟩)))))))))
      · exact .inr (.inr (.inr (.inr (.inr (.inr (.inr (.inr (.inr (.inr (.inl ⟨rfl, by simpa using ha, he, rfl⟩))))))))))
    | reset =>
      simp only [exec, execReset, accepting_yes _ _ _ ha] at h
      refine .inr (.inr (.inr (.inr (.inr (.inr (.inr (.inr (.inr (.inr (.inr ?_))))))))))
      cases hp : s.port <;> rw [hp] at h <;> cases h
      · exact .inl ⟨rfl, rfl, rfl⟩
      · exact .inr (.inl ⟨rfl, rfl, rfl⟩)
      · exact .inr (.inr ⟨rfl, .inl rfl, rfl⟩)
      · exact .inr (.inr ⟨rfl, .inr rfl, rfl⟩)

/-- No operation touches the parameters, the port at which it is presented, or the agents. -/
theorem exec_leaves {i : Instr} {s t : State} (h : exec i s = .next t) :
    t.tp = s.tp ∧ t.rp = s.rp ∧ t.port = s.port ∧ t.agents = s.agents := by
  rcases exec_cases h with ⟨_, rfl⟩ | ⟨_, _, rfl⟩ | ⟨_, _, _, rfl⟩ | ⟨_, _, _, rfl⟩ | ⟨_, _, rfl⟩ | ⟨_, _, _, rfl⟩ |
    ⟨_, _, _, _, rfl⟩ | ⟨_, _, _, rfl⟩ | ⟨_, _, rfl⟩ | ⟨_, _, _, rfl⟩ | ⟨_, _, _, rfl⟩ | ⟨_, _, _, rfl⟩ | ⟨_, _, rfl⟩ |
    ⟨_, _, rfl⟩ | ⟨_, _, rfl⟩ <;> exact ⟨rfl, rfl, rfl, rfl⟩

end Sys2Proof.Machine
end

