-- ==== Sys2Proof/Laws/Micro.lean ====
section
/-! SUPPORT. The small lemmas of the micro-step model: one per field per named update, what a micro-step of `PUT` and of
`GET` can do to the ring, and what a handler can do to the whole. -/

namespace Sys2Proof.Machine

variable {p : TransportParams}

/-! ### `finish`, `goto`, `emit` -/

@[simp] theorem finish_transport (m : MicroTransport p) (a : Answer) : (m.finish a).transport = m.transport := rfl
@[simp] theorem finish_todo (m : MicroTransport p) (a : Answer) : (m.finish a).todo = m.todo := rfl
@[simp] theorem finish_running (m : MicroTransport p) (a : Answer) : (m.finish a).running = none := rfl
@[simp] theorem finish_inflight (m : MicroTransport p) (a : Answer) : (m.finish a).inflight = m.inflight := rfl
@[simp] theorem finish_answers (m : MicroTransport p) (a : Answer) : (m.finish a).answers = m.answers ++ [a] := rfl
@[simp] theorem finish_sent (m : MicroTransport p) (a : Answer) : (m.finish a).sent = m.sent := rfl
@[simp] theorem finish_wakes (m : MicroTransport p) (a : Answer) : (m.finish a).wakes = m.wakes := rfl

@[simp] theorem goto_transport (m : MicroTransport p) (pc : MainPc p) : (m.goto pc).transport = m.transport := rfl
@[simp] theorem goto_todo (m : MicroTransport p) (pc : MainPc p) : (m.goto pc).todo = m.todo := rfl
@[simp] theorem goto_running (m : MicroTransport p) (pc : MainPc p) : (m.goto pc).running = some pc := rfl
@[simp] theorem goto_inflight (m : MicroTransport p) (pc : MainPc p) : (m.goto pc).inflight = m.inflight := rfl
@[simp] theorem goto_answers (m : MicroTransport p) (pc : MainPc p) : (m.goto pc).answers = m.answers := rfl
@[simp] theorem goto_sent (m : MicroTransport p) (pc : MainPc p) : (m.goto pc).sent = m.sent := rfl
@[simp] theorem goto_wakes (m : MicroTransport p) (pc : MainPc p) : (m.goto pc).wakes = m.wakes := rfl

@[simp] theorem emit_transport (m : MicroTransport p) (v : Option Byte) : (m.emit v).transport = m.transport := rfl
@[simp] theorem emit_todo (m : MicroTransport p) (v : Option Byte) : (m.emit v).todo = m.todo := rfl
@[simp] theorem emit_running (m : MicroTransport p) (v : Option Byte) : (m.emit v).running = m.running := rfl
@[simp] theorem emit_inflight (m : MicroTransport p) (v : Option Byte) :
    (m.emit v).inflight = m.inflight + v.toList.length := rfl
@[simp] theorem emit_answers (m : MicroTransport p) (v : Option Byte) : (m.emit v).answers = m.answers := rfl
@[simp] theorem emit_sent (m : MicroTransport p) (v : Option Byte) : (m.emit v).sent = m.sent ++ v.toList := rfl
@[simp] theorem emit_wakes (m : MicroTransport p) (v : Option Byte) : (m.emit v).wakes = m.wakes := rfl

/-! ### The ring's micro-steps -/

/-- Everything a micro-step of `PUT` can do to the ring: nothing, write one cell, or publish (R201). -/
theorem putStep_ring {q : RingParams} (r : Ring q) (pc : PutPc q) :
    (putStep r pc).1 = r ∨ (∃ b h, pc = .p4 b h ∧ (putStep r pc).1 = { r with tx := r.tx.write (cellOf h) b }) ∨
      ∃ h, pc = .p5 h ∧ (putStep r pc).1 = { r with head := h + 1 } := by
  cases pc with
  | p4 b h => exact .inr (.inl ⟨b, h, rfl, rfl⟩)
  | p5 h => exact .inr (.inr ⟨h, rfl, rfl⟩)
  | p1 _ => exact .inl rfl
  | p2 _ _ => exact .inl rfl
  | p3 _ _ _ => exact .inl rfl
  | done _ => exact .inl rfl

/-- Everything a micro-step of `GET` can do to the ring: nothing, or publish (R202). -/
theorem getStep_ring {q : RingParams} (r : Ring q) (pc : GetPc q) :
    (getStep r pc).1 = r ∨ ∃ t v, pc = .g5 t v ∧ (getStep r pc).1 = { r with tail := t + 1 } := by
  cases pc with
  | g5 t v => exact .inr ⟨t, v, rfl, rfl⟩
  | g1 => exact .inl rfl
  | g2 _ => exact .inl rfl
  | g3 _ _ => exact .inl rfl
  | g4 _ => exact .inl rfl
  | done _ => exact .inl rfl

/-! ### Handlers -/

/-- Everything a `TXRDY` handler can do, with or without a byte in flight (R114, R200, R211). -/
theorem MicroTransport.handler_txrdy_cases (m : MicroTransport p) :
    (m.transport.ring.isEmpty = true ∧ m.handler .txrdy =
      { m with transport := { m.transport with txActive := false }, inflight := m.inflight - 1 }) ∨
    (m.transport.ring.isEmpty = false ∧ m.handler .txrdy =
      { m with
        transport := { m.transport with ring := { m.transport.ring with tail := m.transport.ring.tail + 1 } },
        inflight := m.inflight - 1 + 1,
        sent := m.sent ++ [m.transport.ring.tx.read m.transport.ring.getCell] }) := by
  obtain ⟨he, h⟩ | ⟨he, h⟩ := m.transport.transmitReady_cases
  · exact .inl ⟨he, by simp [MicroTransport.handler, MicroTransport.emit, h]⟩
  · exact .inr ⟨he, by simp [MicroTransport.handler, MicroTransport.emit, h]⟩

/-- A handler turn is the handler, at either level. -/
theorem MicroTransport.micro_handler (m : MicroTransport p) {t : Turn} (h : t ≠ .main) : m.micro t = m.handler t := by
  cases t with
  | main => exact absurd rfl h
  | txrdy => rfl
  | rxbyte _ => rfl

theorem MicroTransport.whole_handler (m : MicroTransport p) {t : Turn} (h : t ≠ .main) : m.whole t = m.handler t := by
  cases t with
  | main => exact absurd rfl h
  | txrdy => rfl
  | rxbyte _ => rfl

end Sys2Proof.Machine
end

