-- ==== Sys2Proof/Laws/PerInstr.lean ====
section
/-! SUPPORT. The fields of every operation's word (`30_encoding.md` R80 to R83) and the port it is presented at when none
is named (R87): one lemma per constructor. -/

namespace Sys2Proof.Laws.Fields

/-- The word's `op` and `data` fields are the operation's code and operand, its context bit is the top bit of the code,
and its home port accepts it. -/
def Statement (i : Instr) : Prop :=
  (encode i).op = i.opcode ∧ (encode i).data = i.operand ∧ (encode i).ctx = i.opcode.getLsbD 3 ∧
    i.homePort.accepts i = true

/-- The part that holds of any two fields. -/
theorem ctx_of (o : BitVec 4) (b : Byte) : (Cmd.of o b).ctx = o.getLsbD 3 := by
  show (o ++ b).getLsbD 11 = o.getLsbD 3
  rw [BitVec.getLsbD_append]
  rfl

theorem of_home {i : Instr} (h : i.homePort.accepts i = true) : Statement i :=
  ⟨Cmd.op_of _ _, Cmd.data_of _ _, ctx_of _ _, h⟩

theorem nop : Statement .nop := of_home rfl
theorem send (b : Byte) : Statement (.send b) := of_home rfl
theorem enq (b : Byte) : Statement (.enq b) := of_home rfl
theorem kick : Statement .kick := of_home rfl
theorem poll : Statement .poll := of_home rfl
theorem put (b : Byte) : Statement (.put b) := of_home rfl
theorem txrdy : Statement .txrdy := of_home rfl
theorem rxbyte (b : Byte) : Statement (.rxbyte b) := of_home rfl
theorem get : Statement .get := of_home rfl
theorem reset : Statement .reset := of_home rfl

end Sys2Proof.Laws.Fields
end

