-- ==== Sys2Proof/Laws/Runs.lean ====
section
/-! SUPPORT. One lemma per operation presented at a port that accepts it, and the laws of a run of operations. -/

namespace Sys2Proof.Machine

/-! ### An operation at its port -/

/-- The state with another port. -/
def State.at (s : State) (q : Port) : State := { s with port := q }

theorem perform_send (s : State) (b : Byte) : s.perform .M (.send b) =
    .next (((s.at .M).setTransport (s.transport.enqueue b).1.bootstrap.1).setOut
      { Result.of (s.transport.enqueue b).2 with tx := (s.transport.enqueue b).1.bootstrap.2 }) := rfl

theorem perform_enq (s : State) (b : Byte) : s.perform .M (.enq b) =
    .next (((s.at .M).setTransport (s.transport.enqueue b).1).respond (s.transport.enqueue b).2) := rfl

theorem perform_kick (s : State) : s.perform .M .kick =
    .next (((s.at .M).setTransport s.transport.bootstrap.1).setOut
      { Result.of .ok with tx := s.transport.bootstrap.2 }) := rfl

theorem perform_txrdy (s : State) : s.perform .I .txrdy =
    .next (((s.at .I).setTransport s.transport.transmitReady.1).setOut
      { Result.silent with tx := s.transport.transmitReady.2 }) := rfl

theorem perform_rxbyte (s : State) (b : Byte) : s.perform .I (.rxbyte b) =
    .next (((s.at .I).setTransport (s.transport.byteReceived b).1).setOut
      { Result.silent with wake := (s.transport.byteReceived b).2 }) := rfl

theorem perform_put (s : State) (b : Byte) : s.perform .P (.put b) =
    .next (((s.at .P).setStandalone (s.standalone.put b).1).respond (s.standalone.put b).2) := rfl

theorem perform_get_some (s : State) (h : s.standalone.isEmpty = false) : s.perform .C .get =
    .next (State.setOut { s with port := .C, standalone := { s.standalone with tail := s.standalone.tail + 1 } }
      { Result.of .ok with data := some (s.standalone.tx.read s.standalone.getCell) }) := by
  simp only [State.perform, exec, execGet]
  rw [accepting_yes _ _ _ rfl, Ring.get_some _ h]
  rfl

theorem perform_get_empty (s : State) (h : s.standalone.isEmpty = true) :
    s.perform .C .get = .next ((s.at .C).respond .empty) := by
  simp only [State.perform, exec, execGet]
  rw [accepting_yes _ _ _ rfl, Ring.get_empty _ h]
  rfl

theorem perform_poll_none (s : State) (h : s.transport.lineReady = false) :
    s.perform .M .poll = .next ((s.at .M).respond .noLine) := by
  simp only [State.perform, exec, execPoll]
  rw [accepting_yes _ _ _ rfl]
  simp [h, State.at]

theorem perform_poll_line (s : State) (h : s.transport.lineReady = true) (h2 : 2 ≤ s.transport.rxLen.val) :
    s.perform .M .poll = .next (((s.at .M).setTransport s.transport.consumeLine).setOut
      { Result.of .ok with line := some s.transport.line }) := by
  have : ¬ s.transport.rxLen.val < 2 := by omega
  simp only [State.perform, exec, execPoll]
  rw [accepting_yes _ _ _ rfl]
  simp [h, this, State.at]

/-! ### Runs -/

theorem runOps_cons {s t : State} {l : Line} (ls : List Line) (h : s.perform l.port l.op = .next t) :
    runOps s (l :: ls) = (runOps t ls).map fun r => (r.1, { port := l.port, op := l.op, out := t.out } :: r.2) := by
  simp [runOps, h]

/-- A run of at least one operation took it and went on. -/
theorem runOps_cons_some {s t : State} {l : Line} {ls : List Line} {es : List Event}
    (h : runOps s (l :: ls) = some (t, es)) :
    ∃ u es', s.perform l.port l.op = .next u ∧ runOps u ls = some (t, es') ∧
      es = { port := l.port, op := l.op, out := u.out } :: es' := by
  cases hp : s.perform l.port l.op with
  | fault f => simp [runOps, hp] at h
  | refused r => simp [runOps, hp] at h
  | next u =>
    rw [runOps_cons ls hp, Option.map_eq_some_iff] at h
    obtain ⟨⟨t', es'⟩, h, he⟩ := h
    cases he
    exact ⟨u, es', rfl, h, rfl⟩

/-- A run in two parts. -/
theorem runOps_append {s t u : State} {ls ks : List Line} {es fs : List Event} (h : runOps s ls = some (t, es))
    (k : runOps t ks = some (u, fs)) : runOps s (ls ++ ks) = some (u, es ++ fs) := by
  induction ls generalizing s es with
  | nil => cases h; exact k
  | cons l ls ih =>
    obtain ⟨v, es', hp, hr, rfl⟩ := runOps_cons_some h
    rw [List.cons_append, runOps_cons _ hp, ih hr]
    rfl

theorem bytesPut_cons (e : Event) (es : List Event) : bytesPut (e :: es) = e.put?.toList ++ bytesPut es := by
  simp only [bytesPut, List.filterMap_cons]; split <;> simp_all

theorem bytesGot_cons (e : Event) (es : List Event) : bytesGot (e :: es) = e.out.data.toList ++ bytesGot es := by
  simp only [bytesGot, List.filterMap_cons]; split <;> simp_all

theorem bytesAccepted_cons (e : Event) (es : List Event) :
    bytesAccepted (e :: es) = e.accepted?.toList ++ bytesAccepted es := by
  simp only [bytesAccepted, List.filterMap_cons]; split <;> simp_all

theorem bytesSent_cons (e : Event) (es : List Event) : bytesSent (e :: es) = e.out.tx.toList ++ bytesSent es := by
  simp only [bytesSent, List.filterMap_cons]; split <;> simp_all

theorem linesDelivered_cons (e : Event) (es : List Event) :
    linesDelivered (e :: es) = e.out.line.toList ++ linesDelivered es := by
  simp only [linesDelivered, List.filterMap_cons]; split <;> simp_all

end Sys2Proof.Machine
end

