-- ==== Sys2Proof/Laws/Step.lean ====
section
/-! SUPPORT. What a step can do, said once (`step_cases`), and what it adds around the operation it took. -/

namespace Sys2Proof.Machine

/-! ### The agents' bookkeeping -/

@[simp] theorem useTurn_main (s : State) : s.useTurn.main = s.agents.main := by
  unfold State.useTurn; split <;> rfl
@[simp] theorem useTurn_suspended (s : State) : s.useTurn.suspended = s.agents.suspended := by
  unfold State.useTurn; split <;> rfl
@[simp] theorem useTurn_inflight (s : State) : s.useTurn.inflight = s.agents.inflight := by
  unfold State.useTurn; split <;> rfl
@[simp] theorem consume_suspended (a : Agents) (q : Port) : (a.consume q).suspended = a.suspended := by cases q <;> rfl
@[simp] theorem consume_inflight (a : Agents) (q : Port) : (a.consume q).inflight = a.inflight := by cases q <;> rfl
@[simp] theorem take_suspended (s : State) (q : Port) : (s.take q).agents.suspended = s.agents.suspended := by
  simp [State.take]
@[simp] theorem take_inflight (s : State) (q : Port) : (s.take q).agents.inflight = s.agents.inflight := by
  simp [State.take]

@[simp] theorem sendbufStatus_suspended (a : Agents) (before : List MainStep) (st : Option Status) :
    (a.sendbufStatus before st).suspended = a.suspended := by
  unfold Agents.sendbufStatus; split
  · split <;> rfl
  · rfl
  · rfl
@[simp] theorem sendbufStatus_inflight (a : Agents) (before : List MainStep) (st : Option Status) :
    (a.sendbufStatus before st).inflight = a.inflight := by
  unfold Agents.sendbufStatus; split
  · split <;> rfl
  · rfl
  · rfl

/-- After a step that took an operation, the mainline stays suspended only while no line is ready (R153). -/
@[simp] theorem settle_suspended (s : State) (q : Port) (i : Option Instr) (t : State) :
    (s.settle q i t).agents.suspended = (t.agents.suspended && !t.transport.lineReady) := by
  simp only [State.settle, wakeUp_suspended, State.blocked]
  split <;> simp

@[simp] theorem settle_inflight (s : State) (q : Port) (i : Option Instr) (t : State) :
    (s.settle q i t).agents.inflight = inflightAfter q i t.out.tx t.agents.inflight := by
  simp only [State.settle, wakeUp_inflight]
  split <;> simp

theorem settle_eq (s : State) (q : Port) (i : Option Instr) (t : State) :
    s.settle q i t = { t with agents := (s.settle q i t).agents } := rfl

@[simp] theorem quietStep_suspended (s : State) (a : Agents) :
    (s.quietStep a).agents.suspended = (a.suspended && !s.transport.lineReady) := rfl
@[simp] theorem quietStep_inflight (s : State) (a : Agents) : (s.quietStep a).agents.inflight = a.inflight := rfl
@[simp] theorem quietStep_transport (s : State) (a : Agents) : (s.quietStep a).transport = s.transport := rfl
@[simp] theorem quietStep_standalone (s : State) (a : Agents) : (s.quietStep a).standalone = s.standalone := rfl

theorem quietStep_eq (s : State) (a : Agents) :
    s.quietStep a = { s with out := Result.silent, agents := (s.quietStep a).agents } := rfl

/-- A turn without a request: a `WAIT`, or nothing. -/
theorem agentTurn_cases (s : State) (q : Port) :
    (q = .M ∧ s.blocked = false ∧ (∃ rest, s.agents.main = .wait :: rest) ∧
      s.agentTurn q = s.quietStep (s.wait s.useTurn)) ∨
    s.agentTurn q = s.quietStep s.useTurn := by
  unfold State.agentTurn
  split
  · rename_i h1 h2
    exact .inl ⟨rfl, h1, ⟨_, h2⟩, rfl⟩
  · exact .inr rfl

/-! ### The step -/

theorem step_idle (s : State) (h : s.served = none) : step s = .next (s.quietStep s.agents) := by simp [step, h]

theorem step_turn (s : State) {q : Port} (h : s.served = some q) (hs : s.standing q = none) :
    step s = .next (s.agentTurn q) := by simp [step, h, hs]

theorem step_reserved (s : State) {q : Port} {w : Cmd} (h : s.served = some q) (hs : s.standing q = some w)
    (hd : decode w = none) : step s = .next (s.settle q none (s.take q).illegal) := by
  simp [step, h, hs, State.present, hd]

theorem step_taken (s : State) {q : Port} {w : Cmd} {i : Instr} (h : s.served = some q) (hs : s.standing q = some w)
    (hd : decode w = some i) : step s = settled s q i (exec i (s.take q)) := by
  simp [step, h, hs, State.present, hd]

theorem settled_next {s : State} {q : Port} {i : Instr} {o : Host.Outcome State Fault Refusal} {t : State}
    (h : settled s q i o = .next t) : ∃ u, o = .next u ∧ t = s.settle q (some i) u := by
  cases o with
  | next u => cases h; exact ⟨u, rfl, rfl⟩
  | fault f => cases h
  | refused r => cases h

/-- The inversion lemma of `step`: if it answers a next state, it took nothing, a reserved word, or an operation. -/
theorem step_cases {s t : State} (h : step s = .next t) :
    (∃ a, t = s.quietStep a ∧ (a = s.agents ∨ a = s.useTurn ∨ a = s.wait s.useTurn)) ∨
    (∃ q w, s.served = some q ∧ s.standing q = some w ∧ decode w = none ∧
      t = s.settle q none (s.take q).illegal) ∨
    (∃ q w i u, s.served = some q ∧ s.standing q = some w ∧ decode w = some i ∧ exec i (s.take q) = .next u ∧
      t = s.settle q (some i) u) := by
  cases hv : s.served with
  | none =>
    rw [step_idle s hv] at h
    cases h
    exact .inl ⟨_, rfl, .inl rfl⟩
  | some q =>
    cases hw : s.standing q with
    | none =>
      rw [step_turn s hv hw] at h
      cases h
      obtain ⟨_, _, _, e⟩ | e := agentTurn_cases s q
      · exact .inl ⟨_, e, .inr (.inr rfl)⟩
      · exact .inl ⟨_, e, .inr (.inl rfl)⟩
    | some w =>
      cases hd : decode w with
      | none =>
        rw [step_reserved s hv hw hd] at h
        cases h
        exact .inr (.inl ⟨q, w, rfl, hw, hd, rfl⟩)
      | some i =>
        rw [step_taken s hv hw hd] at h
        obtain ⟨u, hu, rfl⟩ := settled_next h
        exact .inr (.inr ⟨q, w, i, u, rfl, hw, hd, hu, rfl⟩)

/-- The operation a step takes, from what stands at the port it serves. -/
theorem nextOp_of (s : State) {q : Port} {w : Cmd} {i : Instr} (h : s.served = some q) (hs : s.standing q = some w)
    (hd : decode w = some i) : s.nextOp = some (q, i) := by
  simp [State.nextOp, h, hs, hd]

end Sys2Proof.Machine
end

