-- ==== Sys2Proof/Tests/Slice0.lean ====
section
/-! SUPPORT. Tests. Expected results are those of `95_test_vectors.md`, whose vector is named in each docstring, or read
from the rule named there; the last part shows, for every statement with hypotheses, states that meet them. -/

namespace Sys2Proof.Machine.Tests

/-! ### Small states: `N = 2`, `CW = 3`, `L = 4` -/

/-- Parameters of most vectors. -/
def tp : TransportParams := { ring := { n := 2, slack := 0 }, l := 4 }

/-- The cells from index 0 on. -/
def cells (bs : List Byte) : CellMem := { cells := (List.range bs.length).zip bs, seed := 9 }

/-- A ring with these counters and cells. -/
def ring (head tail : Nat) (bs : List Byte) : Ring tp.ring :=
  { head := BitVec.ofNat _ head, tail := BitVec.ofNat _ tail, tx := cells bs }

/-- A transport whose transmit side is given; its receive side is `Idle`. -/
def sending (head tail : Nat) (act : Bool) (bs : List Byte) : Transport tp :=
  { Transport.reset tp 0 with ring := ring head tail bs, txActive := act }

/-- A transport whose receive side is given; its transmit side is `Idle` and empty. -/
def receiving (len : Fin 5) (ready : Bool) (bs : List Byte) : Transport tp :=
  { Transport.reset tp 0 with rx := cells bs, rxLen := len, lineReady := ready }

/-- This transport, with an operation about to be presented at a port of it. -/
def onTransport (q : Port) (t : Transport tp) : State :=
  { State.resetWith tp tp.ring with transport := t, port := q }

/-- This standalone ring, with an operation about to be presented at a port of it. -/
def onRing (q : Port) (r : Ring tp.ring) : State := { State.resetWith tp tp.ring with standalone := r, port := q }

/-- The registers an outcome leaves. -/
def left (o : Host.Outcome State Fault Refusal) : Option Regs :=
  match o with
  | .next t => some t.regs
  | .fault _ => none
  | .refused _ => none

/-- What an outcome answers and emits. -/
def said (o : Host.Outcome State Fault Refusal) : Option Result :=
  match o with
  | .next t => some t.out
  | .fault _ => none
  | .refused _ => none

/-- A view of the state an outcome leaves. -/
def then? {α : Type} (o : Host.Outcome State Fault Refusal) (f : State → α) : Option α :=
  match o with
  | .next t => some (f t)
  | .fault _ => none
  | .refused _ => none

/-- The outcome is a next state. -/
def goesOn (o : Host.Outcome State Fault Refusal) : Bool := (left o).isSome

/-- The fault an outcome is, if it is one. -/
def fault? (o : Host.Outcome State Fault Refusal) : Option Fault :=
  match o with
  | .next _ => none
  | .fault f => some f
  | .refused _ => none

/-- The transmit registers, the rest as after reset. -/
def txRegs (head tail : Nat) (act : Bool) : Regs :=
  { head := head, tail := tail, txActive := act, rxLen := 0, lineReady := false, ringHead := 0, ringTail := 0 }

/-- The receive registers, the rest as after reset. -/
def rxRegs (len : Nat) (ready : Bool) : Regs :=
  { head := 0, tail := 0, txActive := false, rxLen := len, lineReady := ready, ringHead := 0, ringTail := 0 }

/-- The registers of the standalone ring, the rest as after reset. -/
def ringRegs (head tail : Nat) : Regs :=
  { head := 0, tail := 0, txActive := false, rxLen := 0, lineReady := false, ringHead := head, ringTail := tail }

/-! ### What the checks refuse -/

/-- `30_encoding.md` R86: each port refuses an operation of another. -/
theorem test_line_refused : [Line.mk .I (.send 0x41), ⟨.M, .put 0x00⟩, ⟨.P, .get⟩, ⟨.C, .nop⟩].all (fun l => !l.wf) = true := by
  decide

/-- A program with one ill-formed line is refused, and without it accepted. -/
theorem test_program_refused :
    programWf [⟨.M, .send 0x41⟩, ⟨.M, .txrdy⟩] = false ∧ programWf [⟨.M, .send 0x41⟩, ⟨.I, .txrdy⟩] = true := by decide

/-- `00_scope.md` R8: `CW <= N` is refused, `CW = N + 1` is the least that is not. -/
theorem test_narrow_counters_refused :
    RingParams.ofWidths 2 2 = none ∧ RingParams.ofWidths 0 0 = none ∧
      RingParams.ofWidths 2 3 = some { n := 2, slack := 0 } := by decide

/-- `30_encoding.md` R85: a reserved code, and a non-zero data field without an operand. -/
theorem test_reserved_word_refused : Cmd.wf 0x6AB = false ∧ Cmd.wf 0x301 = false ∧ Cmd.wf 0x300 = true := by decide

/-! ### Decoding: words written out from the encoding of R80 and R81 -/

/-- V-ENC-1, V-ENC-7, V-ENC-11, V-ENC-12, V-ENC-14: the operations of port M. -/
theorem test_decode_mainline :
    decode 0b000000000000 = some .nop ∧ decode 0b000111111111 = some (.send 0xFF) ∧
    decode 0b001001000001 = some (.enq 0x41) ∧ decode 0b001100000000 = some .kick ∧
    decode 0b010000000000 = some .poll := by decide

/-- V-ENC-22, V-ENC-26, V-ENC-27: the operations of port I. -/
theorem test_decode_events :
    decode 0b100000000000 = some .txrdy ∧ decode 0b100100001101 = some (.rxbyte 0x0D) ∧
    decode 0b100111111111 = some (.rxbyte 0xFF) := by decide

/-- V-ENC-18, V-ENC-32, V-ENC-37: the operations of a standalone ring, and `RESET`. -/
theorem test_decode_ring_and_reset :
    decode 0b010110100101 = some (.put 0xA5) ∧ decode 0b110100000000 = some .get ∧
    decode 0b111100000000 = some .reset := by decide

/-- V-ENC-5, 13, 15, 20, 21, 23, 29, 30, 31, 33, 36, 40, 41: no row. -/
theorem test_decode_reserved :
    [0x001, 0x301, 0x4FF, 0x600, 0x7FF, 0x801, 0xA00, 0xB12, 0xC00, 0xD01, 0xE00, 0xF01, 0xFFF].all
      (fun w : Cmd => decode w == none) = true := by decide

/-- V-ENC-3, 4, 9, 10, 16, 17, 19, 24, 25, 28, 34, 35: decoded, but not accepted there. -/
theorem test_decode_misplaced :
    [Line.mk .C .nop, ⟨.I, .nop⟩, ⟨.I, .send 0x41⟩, ⟨.P, .send 0x41⟩, ⟨.I, .poll⟩, ⟨.M, .put 0x00⟩, ⟨.C, .put 0xA5⟩,
      ⟨.M, .txrdy⟩, ⟨.C, .txrdy⟩, ⟨.M, .rxbyte 0x41⟩, ⟨.M, .get⟩, ⟨.P, .get⟩].all (fun l => !l.wf) = true := by decide

/-- A command is twelve wires: a thirteenth bit makes it none; the bits above `nbits` are taken as 0. -/
theorem test_decode_table_word :
    decodeTableWord 16 0x14F = some (.send 0x4F) ∧ decodeTableWord 16 0x114F = none ∧
    decodeTableWord 12 0x114F = some (.send 0x4F) := by decide

/-- All ten words run as the first operation after reset. -/
theorem test_first_step :
    [0x000, 0x14F, 0x241, 0x300, 0x400, 0x5A5, 0x800, 0x90D, 0xD00, 0xF00].all
      (fun w => goesOn (step (State.reset.withFetchWord 16 w))) = true := by decide

/-! ### One step of each operation -/

/-- V-SYS-1 step 5. -/
theorem test_nop :
    left (exec .nop (onTransport .M (receiving 2 true [0x58, 0x0D]))) = some (rxRegs 2 true) ∧
    said (exec .nop (onTransport .M (receiving 2 true [0x58, 0x0D]))) = some (Result.of .ok) := by decide

/-- V-ENC-4: `NOP` at port I changes nothing and is not answered. -/
theorem test_nop_at_event_port :
    left (exec .nop (onTransport .I (sending 2 1 true []))) = some (txRegs 2 1 true) ∧
    said (exec .nop (onTransport .I (sending 2 1 true []))) = some Result.silent := by decide

/-- V-TX-14: both counters wrap in one `SEND`. -/
theorem test_send_wraps :
    left (exec (.send 0x77) (onTransport .M (sending 7 7 false [0x61, 0x62, 0x63, 0x64]))) = some (txRegs 0 0 true) ∧
    said (exec (.send 0x77) (onTransport .M (sending 7 7 false [0x61, 0x62, 0x63, 0x64]))) =
      some { Result.of .ok with tx := some 0x77 } := by decide

/-- V-TX-12: idle and full: `OVERFLOW`, and the bootstrap still runs. -/
theorem test_send_idle_full :
    left (exec (.send 0x14) (onTransport .M (sending 4 0 false [0x10, 0x11, 0x12, 0x13]))) = some (txRegs 4 1 true) ∧
    said (exec (.send 0x14) (onTransport .M (sending 4 0 false [0x10, 0x11, 0x12, 0x13]))) =
      some { Result.of .overflow with tx := some 0x10 } := by decide

/-- V-TX-4. -/
theorem test_enq :
    left (exec (.enq 0x61) (onTransport .M (sending 0 0 false []))) = some (txRegs 1 0 false) ∧
    said (exec (.enq 0x61) (onTransport .M (sending 0 0 false []))) = some (Result.of .ok) ∧
    then? (exec (.enq 0x61) (onTransport .M (sending 0 0 false []))) (·.readTx 0) = some 0x61 := by decide

/-- V-TX-15 step 5. -/
theorem test_enq_full :
    left (exec (.enq 0x65) (onTransport .M (sending 4 0 false [0x61, 0x62, 0x63, 0x64]))) = some (txRegs 4 0 false) ∧
    said (exec (.enq 0x65) (onTransport .M (sending 4 0 false [0x61, 0x62, 0x63, 0x64]))) =
      some (Result.of .overflow) := by decide

/-- V-TX-5: the oldest byte. -/
theorem test_kick :
    left (exec .kick (onTransport .M (sending 2 0 false [0x61, 0x62]))) = some (txRegs 2 1 true) ∧
    said (exec .kick (onTransport .M (sending 2 0 false [0x61, 0x62]))) =
      some { Result.of .ok with tx := some 0x61 } := by decide

/-- V-TX-6: idle and empty. -/
theorem test_kick_empty :
    left (exec .kick (onTransport .M (sending 3 3 false [0x61, 0x62, 0x63]))) = some (txRegs 3 3 false) ∧
    said (exec .kick (onTransport .M (sending 3 3 false [0x61, 0x62, 0x63]))) = some (Result.of .ok) := by decide

/-- V-RX-13: the longest line. -/
theorem test_poll :
    left (exec .poll (onTransport .M (receiving 4 true [0x31, 0x32, 0x33, 0x0A]))) = some (rxRegs 0 false) ∧
    said (exec .poll (onTransport .M (receiving 4 true [0x31, 0x32, 0x33, 0x0A]))) =
      some { Result.of .ok with line := some [0x31, 0x32, 0x33] } := by decide

/-- V-RX-12: a partial line is not returned. -/
theorem test_poll_partial :
    left (exec .poll (onTransport .M (receiving 2 false [0x41, 0x42]))) = some (rxRegs 2 false) ∧
    said (exec .poll (onTransport .M (receiving 2 false [0x41, 0x42]))) = some (Result.of .noLine) := by decide

/-- V-RB-4: `head` wraps, the cell index is `7 & 3`. -/
theorem test_put_wraps :
    left (exec (.put 0x99) (onRing .P (ring 7 5 [0x30, 0x31, 0x32, 0x33]))) = some (ringRegs 0 5) ∧
    then? (exec (.put 0x99) (onRing .P (ring 7 5 [0x30, 0x31, 0x32, 0x33])))
      (fun t => [t.readRing 0, t.readRing 1, t.readRing 2, t.readRing 3]) = some [0x30, 0x31, 0x32, 0x99] := by decide

/-- V-RB-3: full across the counter wrap. -/
theorem test_put_full :
    left (exec (.put 0x24) (onRing .P (ring 1 5 [0x20, 0x21, 0x22, 0x23]))) = some (ringRegs 1 5) ∧
    said (exec (.put 0x24) (onRing .P (ring 1 5 [0x20, 0x21, 0x22, 0x23]))) = some (Result.of .overflow) := by decide

/-- V-TX-8. -/
theorem test_txrdy :
    left (exec .txrdy (onTransport .I (sending 3 1 true [0x61, 0x62, 0x63]))) = some (txRegs 3 2 true) ∧
    said (exec .txrdy (onTransport .I (sending 3 1 true [0x61, 0x62, 0x63]))) =
      some { Result.silent with tx := some 0x62 } := by decide

/-- V-TX-9: the event after the last byte. -/
theorem test_txrdy_empty :
    left (exec .txrdy (onTransport .I (sending 3 3 true [0x61, 0x62, 0x63]))) = some (txRegs 3 3 false) ∧
    said (exec .txrdy (onTransport .I (sending 3 3 true [0x61, 0x62, 0x63]))) = some Result.silent := by decide

/-- V-RX-7: a terminator at `rxLen == L` only resets. -/
theorem test_rxbyte_overflow :
    left (exec (.rxbyte 0x0D) (onTransport .I (receiving 4 false [0x31, 0x32, 0x33, 0x34]))) = some (rxRegs 0 false) ∧
    said (exec (.rxbyte 0x0D) (onTransport .I (receiving 4 false [0x31, 0x32, 0x33, 0x34]))) = some Result.silent := by
  decide

/-- V-RX-5: a terminator as the `L`-th byte completes the longest line. -/
theorem test_rxbyte_completes :
    left (exec (.rxbyte 0x0A) (onTransport .I (receiving 3 false [0x31, 0x32, 0x33]))) = some (rxRegs 4 true) ∧
    said (exec (.rxbyte 0x0A) (onTransport .I (receiving 3 false [0x31, 0x32, 0x33]))) =
      some { Result.silent with wake := true } ∧
    then? (exec (.rxbyte 0x0A) (onTransport .I (receiving 3 false [0x31, 0x32, 0x33]))) (·.readRx 3) = some 0x0A := by
  decide

/-- V-RB-6: `occ` across the wrap; `tail` wraps. -/
theorem test_get_wraps :
    left (exec .get (onRing .C (ring 1 7 [0x40, 0x41, 0x42, 0x43]))) = some (ringRegs 1 0) ∧
    said (exec .get (onRing .C (ring 1 7 [0x40, 0x41, 0x42, 0x43]))) =
      some { Result.of .ok with data := some 0x43 } ∧
    then? (exec .get (onRing .C (ring 1 7 [0x40, 0x41, 0x42, 0x43]))) (·.out.response) = some (some 0x043) := by decide

/-- V-RB-5: empty with equal counters that are not 0. -/
theorem test_get_empty :
    left (exec .get (onRing .C (ring 6 6 [0x15, 0x16, 0x12, 0x13]))) = some (ringRegs 6 6) ∧
    then? (exec .get (onRing .C (ring 6 6 [0x15, 0x16, 0x12, 0x13]))) (·.out.response) = some (some 0x200) := by decide

/-- V-SYS-1 step 9, its transmit side: `RESET` in the middle of activity. -/
theorem test_reset_transport :
    left (exec .reset (onTransport .M (sending 2 1 true [0x41, 0x42]))) = some (txRegs 0 0 false) ∧
    said (exec .reset (onTransport .M (sending 2 1 true [0x41, 0x42]))) = some (Result.of .ok) := by decide

/-- V-ENC-39: `RESET` at port C clears the standalone ring; R86: it is that instance's port. -/
theorem test_reset_ring :
    left (exec .reset { onRing .C (ring 4 1 []) with transport := sending 2 1 true [] }) = some (txRegs 2 1 true) := by
  decide

/-! ### Micro-steps -/

/-- A ring of `N = 1`, `CW = 2`. -/
def small (head tail : Nat) (bs : List Byte) : Ring { n := 1, slack := 0 } :=
  { head := BitVec.ofNat _ head, tail := BitVec.ofNat _ tail, tx := cells bs }

/-- Two agents at rest: bytes to put, and a number of `GET`s. -/
def twoAgents (r : Ring { n := 1, slack := 0 }) (puts : List Byte) (gets : Nat) : MicroRing { n := 1, slack := 0 } :=
  { ring := r, puts := puts, putting := none, putLog := [], gets := gets, getting := none, getLog := [] }

/-- V-HZ-1: a `PUT` that read `tail` before a `GET` moved it overflows, as in the order `PUT`, `GET`. -/
theorem test_micro_stale_tail :
    [Side.producer, .consumer, .consumer, .consumer, .consumer, .consumer, .producer, .producer].foldl MicroRing.micro
        (twoAgents (small 2 0 [0x61, 0x62]) [0x63] 1) =
      { twoAgents (small 2 1 [0x61, 0x62]) [] 0 with putLog := [.overflow], getLog := [some 0x61] } := by decide

/-- V-HZ-3: the byte is in its cell and not yet published: the `GET` is `EMPTY`. -/
theorem test_micro_unpublished :
    [Side.producer, .producer, .producer, .producer, .consumer, .consumer, .consumer, .producer].foldl MicroRing.micro
        (twoAgents (small 0 0 []) [0x61] 1) =
      { twoAgents (small 1 0 [0x61]) [] 0 with putLog := [.ok], getLog := [none] } := by decide

/-- The parameters of the transport vectors of micro-steps. -/
def sp : TransportParams := { ring := { n := 1, slack := 0 }, l := 4 }

/-- An active transport with one byte in flight and an empty ring, `head = tail = 1`, and one mainline operation to do. -/
def busy (op : MainOp) : MicroTransport sp :=
  { transport := { Transport.reset sp 0 with ring := small 1 1 [0x60], txActive := true }, todo := [op], running := none,
    inflight := 1, answers := [], sent := [], wakes := 0 }

/-- V-HZ-5: the `TXRDY` comes before the `PUT` of a `SEND` is published: the bootstrap dispatches, once. -/
theorem test_micro_bootstrap :
    let m := ([Turn.main, .main, .main, .main, .txrdy] ++ List.replicate 9 Turn.main).foldl MicroTransport.micro (busy (.send 0x62))
    m.sent = [0x62] ∧ m.running = none ∧ m.transport.txActive = true ∧
      m.transport.ring.head = 2 ∧ m.transport.ring.tail = 2 := by decide

/-- R211: a spurious `TXRDY` on an idle transport between the `ENQ`s and the `KICK` dispatches a byte without setting
`txActive`, and the `KICK` dispatches a second one. -/
theorem test_micro_spurious_txrdy :
    let m0 : MicroTransport sp := { busy .kick with
      transport := { Transport.reset sp 0 with ring := small 2 0 [0x61, 0x62] }, inflight := 0 }
    (m0.micro .txrdy).sent = [0x61] ∧ (m0.micro .txrdy).transport.txActive = false ∧
    (let m := (Turn.txrdy :: List.replicate 8 Turn.main).foldl MicroTransport.micro m0
     m.sent = [0x61, 0x62] ∧ m.transport.txActive = true ∧ m.running = none) := by decide

/-- V-HZ-6: a byte that arrives in the middle of a `POLL` is discarded, and the line is whole. -/
theorem test_micro_poll :
    let m0 : MicroTransport sp := { busy .poll with
      transport := { Transport.reset sp 0 with rx := cells [0x41, 0x42, 0x0D], rxLen := (3 : Fin 5), lineReady := true } }
    let m := [Turn.main, .main, .main, .main, .rxbyte 0x43, .main, .main, .main].foldl MicroTransport.micro m0
    m.answers = [{ status := .ok, line := some [0x41, 0x42] }] ∧ m.running = none ∧
      m.transport.rxLen.val = 0 ∧ m.transport.lineReady = false := by decide

/-! ### For every statement with hypotheses: states and operands that meet them -/

/-- A state in which this word stands first at its home port and is served next. -/
def offered (s : State) (w : Nat) : State := s.withFetchWord 16 w

/-- `lineReady` with one byte: no run reaches it. -/
def shortLine : State := onTransport .M (receiving 1 true [0x0D])

/-- A waiting line of two bytes. -/
def waiting : State := onTransport .M (receiving 3 true [0x41, 0x42, 0x0D])

/-- A state with a waiting line and bytes in both rings meets the invariants. -/
def full : State :=
  { onTransport .M waiting.transport with
    transport := { waiting.transport with ring := ring 4 0 [0x10, 0x11, 0x12, 0x13] }
    standalone := ring 1 0 [0x20] }

theorem waiting_rx : waiting.transport.RxInv where
  wf := by decide
  inSpace := by decide
  liveRx := by decide
  lineLength := by decide
  lineEnd := by decide
  linePrefix := fun _ i hi => by
    have hi : i < 2 := Nat.lt_of_succ_lt_succ hi
    interval_cases i <;> decide
  partialLine := by decide

theorem full_inv : full.Inv where
  ring := ⟨by decide, by decide, by decide, by decide⟩
  rx := ⟨waiting_rx.wf, waiting_rx.inSpace, waiting_rx.liveRx, waiting_rx.lineLength, waiting_rx.lineEnd,
    waiting_rx.linePrefix, waiting_rx.partialLine⟩
  standalone := ⟨by decide, by decide, by decide, by decide⟩
  asleep := by decide

theorem test_hyps_ContextBitIsTheIssuer : (Instr.get ≠ Instr.reset) ∧ (Instr.nop ≠ Instr.reset) := by decide

theorem test_hyps_ReservedAndMisplacedAreIllegal :
    [Line.mk .M (.put 0x00), ⟨.I, .poll⟩, ⟨.P, .get⟩, ⟨.C, .put 0xA5⟩].all (fun l => !l.port.accepts l.op) = true ∧
    (offered State.reset 0x301).served = some .M ∧ (offered State.reset 0x301).standing .M = some 0x301 ∧
    decode 0x301 = none := by decide

/-- The first clause by `SEND` after reset, the second by the `POLL` that faults. -/
theorem test_hyps_StepRunsTheDecodedOperation :
    (offered State.reset 0x14F).served = some .M ∧ (offered State.reset 0x14F).standing .M = some 0x14F ∧
    decode 0x14F = some (.send 0x4F) ∧ goesOn (exec (.send 0x4F) ((offered State.reset 0x14F).take .M)) = true ∧
    (offered shortLine 0x400).served = some .M ∧ (offered shortLine 0x400).standing .M = some 0x400 ∧
    fault? (exec .poll ((offered shortLine 0x400).take .M)) = some .pollShortLine := by decide

/-- `RESET` stands at port C, and other requests at M and I. -/
def contended : State :=
  { State.reset with agents := { Agents.idle with
      main := [.command 0x141], irq := [0x800], cons := [0xF00], grants := [.M, .I] } }

theorem test_hyps_ResetIsTakenFirst :
    contended.standing .C = some (0xF00 : Cmd) ∧ contended.nextOp = some (.C, .reset) := by decide

/-- No port is served after reset; and with a turn of port P nothing stands there. -/
theorem test_hyps_StepWithoutRequestIsQuiet :
    State.reset.served = none ∧
    State.served { State.reset with agents := { Agents.idle with grants := [.P] } } = some .P ∧
    State.standing { State.reset with agents := { Agents.idle with grants := [.P] } } .P = none := by decide

/-- The mainline at a `WAIT`. -/
def atWait (s : State) : State :=
  { s with agents := { Agents.idle with main := [.wait, .command 0x400], grants := [.M] } }

/-- Without a line the `WAIT` suspends, with one it falls through; and a suspended mainline with `RESET` at its port. -/
theorem test_hyps_WaitAndWakeAreByLevel :
    (atWait State.reset).served = some .M ∧ (atWait State.reset).agents.suspended = false ∧
    (atWait State.reset).agents.main = [.wait, .command 0x400] ∧ (atWait waiting).served = some .M ∧
    then? (step (atWait State.reset)) (fun t => (t.agents.suspended, t.transport.lineReady)) = some (true, false) ∧
    then? (step (atWait waiting)) (fun t => (t.agents.suspended, t.transport.lineReady)) = some (false, true) ∧
    (let s : State := { State.reset with agents := { Agents.idle with suspended := true, main := [.command 0xF00] } }
     s.agents.suspended = true ∧ s.transport.lineReady = false ∧ s.nextOp = some (.M, .reset)) := by decide

theorem test_hyps_CellIndexIsTheLowBits :
    ({ n := 0, slack := 0 } : RingParams).n = 0 ∧ cellOf (p := { n := 0, slack := 0 }) 1 = 0 ∧
    cellOf (p := { n := 2, slack := 0 }) 7 = 3 := by decide

theorem test_hyps_NarrowCountersAreRefused :
    RingParams.ofWidths 0 1 = some { n := 0, slack := 0 } ∧ RingParams.ofWidths 1 4 = some { n := 1, slack := 2 } := by
  decide

theorem test_hyps_NopChangesNothing : (onTransport .M waiting.transport).port = .M ∧ (onRing .P (ring 1 0 [])).port = .P := by
  decide

theorem test_hyps_ResetClearsTheRegisters :
    (onTransport .M waiting.transport).port = .M ∧ (onTransport .I waiting.transport).port = .I ∧
    (onRing .P (ring 1 0 [])).port = .P ∧ (onRing .C (ring 1 0 [])).port = .C := by decide

/-- Full, and with the last cell free. -/
theorem test_hyps_PutStoresOrOverflows :
    (let s := onRing .P (ring 1 5 [])
     s.port = .P ∧ s.standalone.head - s.standalone.tail = BitVec.ofNat s.rp.cw (2 ^ s.rp.n)) ∧
    (let s := onRing .P (ring 7 4 [])
     s.port = .P ∧ s.standalone.head - s.standalone.tail ≠ BitVec.ofNat s.rp.cw (2 ^ s.rp.n)) := by decide

/-- Empty, and full (whose masked indices are equal too). -/
theorem test_hyps_GetReturnsOrIsEmpty :
    (let s := onRing .C (ring 6 6 []); s.port = .C ∧ s.standalone.head = s.standalone.tail) ∧
    (let s := onRing .C (ring 4 0 [0x10, 0x11, 0x12, 0x13])
     s.port = .C ∧ s.standalone.head ≠ s.standalone.tail ∧ s.standalone.Inv) :=
  ⟨by decide, by decide, by decide, by decide, by decide, by decide, by decide⟩

theorem test_hyps_EnqStoresOrOverflows :
    (let s := onTransport .M (sending 4 0 false [])
     s.port = .M ∧ s.transport.ring.head - s.transport.ring.tail = BitVec.ofNat s.tp.ring.cw (2 ^ s.tp.ring.n)) ∧
    (let s := onTransport .M (sending 3 0 false [])
     s.port = .M ∧ s.transport.ring.head - s.transport.ring.tail ≠ BitVec.ofNat s.tp.ring.cw (2 ^ s.tp.ring.n)) := by
  decide

theorem test_hyps_KickBootstrapsWhenIdle :
    (let s := onTransport .M (sending 1 0 true [0x61]); s.port = .M ∧ s.transport.txActive = true) ∧
    (let s := onTransport .M (sending 3 3 false []); s.port = .M ∧ s.transport.ring.head = s.transport.ring.tail) ∧
    (let s := onTransport .M (sending 1 0 false [0x61])
     s.port = .M ∧ s.transport.txActive = false ∧ s.transport.ring.head ≠ s.transport.ring.tail) := by decide

theorem test_hyps_SendEnqueuesThenBootstraps : (onTransport .M (sending 4 0 false [0x61])).port = .M := by decide

theorem test_hyps_TxrdyDrainsOrHalts :
    (let s := onTransport .I (sending 3 3 true []); s.port = .I ∧ s.transport.ring.head = s.transport.ring.tail) ∧
    (let s := onTransport .I (sending 3 2 true []); s.port = .I ∧ s.transport.ring.head ≠ s.transport.ring.tail) := by
  decide

/-- Each case at its boundary: a line waiting; `rxLen` 4, the limit; `rxLen` 3 and 0 with both kinds of byte. -/
theorem test_hyps_RxbyteFollowsItsFourCases :
    (onTransport .I waiting.transport).port = .I ∧ waiting.transport.lineReady = true ∧
    (receiving 4 false []).lineReady = false ∧ (receiving 4 false []).rxLen.val = tp.l ∧
    (receiving 3 false []).rxLen.val < tp.l ∧ (receiving 0 false []).rxLen.val = 0 ∧
    (let b : Byte := 0x41; b ≠ 0x0D ∧ b ≠ 0x0A) ∧ (let b : Byte := 0x0A; b = 0x0D ∨ b = 0x0A) := by decide

theorem test_hyps_PollDeliversTheLine :
    (let s := onTransport .M (receiving 4 false []); s.port = .M ∧ s.transport.lineReady = false) ∧
    (let s := onTransport .M (receiving 2 true [0x00, 0x0D])
     s.port = .M ∧ s.transport.lineReady = true ∧ 2 ≤ s.transport.rxLen.val) ∧
    (onTransport .M waiting.transport).port = .M ∧ waiting.transport.lineReady = true ∧ waiting.transport.RxInv ∧
    shortLine.port = .M ∧ shortLine.transport.lineReady = true ∧ shortLine.transport.rxLen.val < 2 :=
  ⟨by decide, by decide, by decide, by decide, waiting_rx, by decide⟩

/-- `OnlyTheShortLinePollStops` has no hypothesis; its exception does occur. -/
theorem test_short_line_poll_faults : fault? (exec .poll shortLine) = some .pollShortLine := by decide

/-- A `PUT` with room at its port, one that is full, one at another port, and a `GET`. -/
theorem test_hyps_RingOperationsFrame :
    (let s := onRing .P (ring 3 0 [0x10, 0x11, 0x12])
     goesOn (exec (.put 0x13) s) = true ∧ s.standalone.isFull = false ∧ (3 : Nat) = s.standalone.putCell) ∧
    (let s := onRing .P (ring 4 0 []); goesOn (exec (.put 0x13) s) = true ∧ s.standalone.isFull = true) ∧
    (let s := onRing .C (ring 1 0 [0x10]); goesOn (exec (.put 0x13) s) = true ∧ s.port ≠ .P) ∧
    goesOn (exec .get (onRing .C (ring 1 0 [0x10]))) = true := by decide

theorem test_hyps_TransmitOperationsFrame :
    (let s := onTransport .M (sending 3 0 false [0x10, 0x11, 0x12])
     goesOn (exec (.send 0x13) s) = true ∧ goesOn (exec (.enq 0x13) s) = true ∧ goesOn (exec .kick s) = true ∧
       s.transport.ring.isFull = false ∧ (3 : Nat) = s.transport.ring.putCell) ∧
    (let s := onTransport .M (sending 4 0 true []); goesOn (exec (.send 0x13) s) = true ∧ s.transport.ring.isFull = true) ∧
    (let s := onTransport .I (sending 1 0 true [0x10]); goesOn (exec .txrdy s) = true ∧ s.port ≠ .M) := by decide

theorem test_hyps_ReceiveOperationsFrame :
    (let s := onTransport .I (receiving 3 false [0x41, 0x42, 0x43])
     goesOn (exec (.rxbyte 0x0D) s) = true ∧ s.port = .I ∧ s.transport.lineReady = false ∧ s.transport.rxLen.val < s.tp.l ∧
       (3 : Nat) = s.transport.appendCell) ∧
    (let s := onTransport .I (receiving 4 false []); goesOn (exec (.rxbyte 0x0D) s) = true ∧ s.transport.rxLen.val = s.tp.l) ∧
    goesOn (exec .poll waiting) = true := by decide

theorem test_hyps_InstancesDoNotTouchEachOther :
    goesOn (exec .poll waiting) = true ∧ goesOn (exec .txrdy (onTransport .I (sending 1 0 true [0x10]))) = true ∧
    goesOn (exec (.put 0x13) (onRing .P (ring 0 0 []))) = true ∧ goesOn (exec .get (onRing .C (ring 0 0 []))) = true := by
  decide

/-- A step that writes each register: `SEND` on an idle transport, `TXRDY` on an empty ring, a terminator, a `POLL`. -/
theorem test_hyps_OnlyTheNamedOperationsWrite :
    left (exec (.send 0x41) (onTransport .M (sending 0 0 false []))) = some (txRegs 1 1 true) ∧
    left (exec .txrdy (onTransport .I (sending 1 1 true []))) = some (txRegs 1 1 false) ∧
    left (exec (.rxbyte 0x0D) (onTransport .I (receiving 1 false [0x41]))) = some (rxRegs 2 true) ∧
    left (exec .poll (onTransport .M (receiving 2 true [0x41, 0x0D]))) = some (rxRegs 0 false) := by decide

/-- An active transport with one byte in flight and one in the ring. -/
def inTransit : State :=
  { onTransport .I (sending 2 1 true [0x61, 0x62]) with agents := { Agents.idle with inflight := 1 } }

theorem inTransit_oneInFlight : inTransit.OneInFlight := by
  constructor
  · decide
  · show true = true ↔ (1 : Nat) = 1
    decide

theorem test_hyps_WritersAreHandedOver :
    inTransit.OneInFlight ∧ inTransit.port = .I ∧ inTransit.agents.inflight = 1 ∧
    left (exec .txrdy inTransit) = some (txRegs 2 2 true) ∧ inTransit.regs = txRegs 2 1 true ∧
    left (exec .kick (onTransport .M (sending 2 0 false [0x61, 0x62]))) = some (txRegs 2 1 true) ∧
    left (exec .poll (onTransport .M (receiving 2 true [0x41, 0x0D]))) = some (rxRegs 0 false) ∧
    left (exec (.rxbyte 0x41) (onTransport .I (receiving 0 false []))) = some (rxRegs 1 false) :=
  ⟨inTransit_oneInFlight, by decide, by decide, by decide, by decide, by decide, by decide, by decide⟩

/-- Every status code, a byte, a line, and port I. -/
theorem test_hyps_ResponseWordIsStatusAndData :
    then? (exec .nop (onTransport .M waiting.transport)) (·.out.response) = some (some 0x000) ∧
    then? (exec (.put 0x14) (onRing .P (ring 4 0 []))) (·.out.response) = some (some 0x100) ∧
    then? (exec .get (onRing .C (ring 0 0 []))) (·.out.response) = some (some 0x200) ∧
    then? (exec .poll State.reset) (·.out.response) = some (some 0x300) ∧
    then? (exec (.put 0x00) State.reset) (·.out.response) = some (some 0x700) ∧
    then? (exec .get (onRing .C (ring 1 0 [0xAA]))) (·.out.response) = some (some 0x0AA) ∧
    then? (exec .poll waiting) (·.out.line) = some (some [0x41, 0x42]) ∧
    then? (exec .txrdy (onTransport .I (sending 1 0 true [0x61]))) (·.out.response) = some none := by decide

theorem test_hyps_WakeMarksTheRiseOfLineReady :
    then? (exec (.rxbyte 0x0D) (onTransport .I (receiving 1 false [0x41]))) (fun t => (t.wake, t.lineReadyLevel)) =
      some (true, true) := by decide

/-- Each transition and each dispatch of the machine. -/
theorem test_hyps_TransmitStateMachine :
    (sending 1 0 false [0x61]).txState = .idle ∧
    then? (exec .kick (onTransport .M (sending 1 0 false [0x61]))) (fun t => (t.transport.txState, t.out.tx)) =
      some (.active, some 0x61) ∧
    (sending 1 1 true []).txState = .active ∧
    then? (exec .txrdy (onTransport .I (sending 1 1 true []))) (fun t => (t.transport.txState, t.out.tx)) =
      some (.idle, none) ∧
    then? (exec .txrdy (onTransport .I (sending 2 1 true [0x61, 0x62]))) (fun t => (t.transport.txState, t.out.tx)) =
      some (.active, some 0x62) := by decide

/-- A state of each row, `Accumulating` at 1, 3 and 4 of 4, and a transport with `L = 0`. -/
theorem test_hyps_ReceiveStateMachine :
    (receiving 0 false []).rxState = .idle ∧ 1 ≤ tp.l ∧ isTerm 0x41 = false ∧ isTerm 0x0A = true ∧
    (receiving 1 false []).rxState = .accumulating ∧ (receiving 3 false []).rxState = .accumulating ∧
    (receiving 3 false []).rxLen.val < tp.l ∧ (receiving 4 false []).rxState = .accumulating ∧
    (receiving 4 false []).rxLen.val = tp.l ∧ waiting.transport.rxState = .lineReady ∧
    (Transport.reset { ring := tp.ring, l := 0 } 0).rxState = .idle ∧
    goesOn (exec (.rxbyte 0x0A) (onTransport .I (receiving 3 false []))) = true ∧ goesOn (exec .poll waiting) = true := by
  decide

theorem test_hyps_PutAndGetCommute :
    (let s := onRing .P (ring 1 6 [0x10, 0x11, 0x12, 0x13])
     s.standalone.occ.toNat ≤ s.rp.cap ∧ s.standalone.isFull = false ∧ s.standalone.isEmpty = false) := by decide

theorem test_hyps_TransmitAndReceiveCommute :
    waiting.transport.lineReady = true ∧ 2 ≤ waiting.transport.rxLen.val := by decide

/-- A run with a `PUT`, a `GET` and a `RESET` of the transport, from a ring that holds two bytes; and the round trip of
V-RB-10. -/
theorem test_hyps_RingIsFifo :
    (let s := onRing .P (ring 1 7 [0x41, 0x00, 0x00, 0x40])
     s.standalone.occ.toNat ≤ s.rp.cap ∧ s.standalone.contents = [0x40, 0x41] ∧
       (runOps s [⟨.P, .put 0x42⟩, ⟨.M, .reset⟩, ⟨.C, .get⟩]).map (fun r => bytesGot r.2) = some [0x40]) ∧
    (let s := onRing .P (ring 6 6 [])
     s.standalone.isEmpty = true ∧ [0xDE, 0xAD, 0xBE, (0xEF : Byte)].length ≤ s.rp.cap) := by decide

theorem test_hyps_TransmissionIsInOrder :
    (let s := onTransport .M (sending 2 1 true [0x61, 0x62])
     s.transport.ring.occ.toNat ≤ s.tp.ring.cap ∧
       (runOps s [⟨.M, .send 0x63⟩, ⟨.P, .reset⟩, ⟨.I, .txrdy⟩]).map (fun r => bytesSent r.2) = some [0x62]) := by decide

/-- The longest payload, `L - 1` bytes. -/
theorem test_hyps_FramedLineIsDelivered :
    State.reset.transport.rxState = .idle ∧ (∀ b ∈ [0x31, 0x32, (0x33 : Byte)], isTerm b = false) ∧
    isTerm 0x0D = true ∧ 1 ≤ [0x31, 0x32, (0x33 : Byte)].length ∧
    [0x31, 0x32, (0x33 : Byte)].length + 1 ≤ State.reset.tp.l := by decide

theorem test_hyps_OverlongLineIsDiscarded :
    State.reset.transport.rxState = .idle ∧ (∀ b ∈ [0x31, 0x32, 0x33, (0x34 : Byte)], isTerm b = false) ∧
    [0x31, 0x32, 0x33, (0x34 : Byte)].length = State.reset.tp.l := by decide

theorem test_hyps_DeliveredLinesAreFramed :
    full.Inv ∧ then? (exec .poll full) (·.out.line) = some (some [0x41, 0x42]) := ⟨full_inv, by decide⟩

/-- Five bytes for four cells: `min 5 5 + 1` turns of the mainline. -/
theorem test_hyps_SendbufAcceptsAtMostCap :
    (let bs : List Byte := [0x61, 0x62, 0x63, 0x64, 0x65]
     let s : State := { State.reset with agents := { Agents.idle with
       main := [.sendbuf bs .ok, .wait], grants := [.M, .M, .M, .M, .M, .M] } }
     s.agents.main = .sendbuf bs .ok :: [.wait] ∧ s.agents.suspended = false ∧
     s.agents.irq.head? ≠ some resetWord ∧ s.agents.prod.head? ≠ some resetWord ∧ s.agents.cons.head? ≠ some resetWord ∧
     s.agents.grants = List.replicate (min bs.length (s.tp.ring.cap + 1) + 1) .M ∧
     s.transport.txActive = false ∧ s.transport.ring.isEmpty = true) := by decide

theorem test_hyps_ResetStateValues :
    full.port = .M ∧ (onTransport .I (sending 2 1 true [0x41, 0x42])).port = .I ∧ (onRing .P (ring 4 1 [])).port = .P ∧
    (onRing .C (ring 4 1 [])).port = .C := by decide

theorem test_hyps_StepKeepsTheInvariants :
    (offered full 0x400).Inv ∧ left (step (offered full 0x400)) = some { full.regs with rxLen := 0, lineReady := false } :=
  ⟨⟨full_inv.ring, full_inv.rx, full_inv.standalone, by decide⟩, by decide⟩

theorem test_hyps_StepNeverStops : full.Inv := full_inv

theorem test_hyps_RunsNeverStop : full.Inv ∧ full.regs ≠ State.reset.regs := ⟨full_inv, by decide⟩

theorem test_hyps_StepKeepsOneInFlight :
    (offered inTransit 0x800).OneInFlight ∧ (offered inTransit 0x800).KeepsContract ∧
    (offered inTransit 0x800).nextOp = some (.I, .txrdy) ∧ goesOn (step (offered inTransit 0x800)) = true :=
  ⟨inTransit_oneInFlight, fun _ => rfl, by decide, by decide⟩

theorem test_hyps_ClosedRunsLeaveIdleEmpty :
    goesOn (exec .kick (onTransport .M (sending 2 0 false [0x61, 0x62]))) = true ∧
    ((onTransport .I (sending 1 1 true [])).transport.txActive = false →
      (onTransport .I (sending 1 1 true [])).transport.ring.isEmpty = true) ∧
    goesOn (exec .txrdy (onTransport .I (sending 1 1 true []))) = true := by decide

theorem test_hyps_RingMicroStepsAreWholeOperations :
    (twoAgents (small 0 0 []) [0x61] 1).atRest ∧ (twoAgents (small 0 0 []) [0x61] 1).ring.occ.toNat ≤ 2 ∧
    ([Side.producer, .producer, .producer, .producer, .consumer, .consumer, .consumer, .producer].foldl MicroRing.micro
      (twoAgents (small 0 0 []) [0x61] 1)).atRest := by
  refine ⟨⟨rfl, rfl⟩, by decide, ?_⟩
  rw [test_micro_unpublished]
  exact ⟨rfl, rfl⟩

theorem test_hyps_PreemptedMainlineIsWholeOperations :
    (let m := busy (.send 0x62)
     let turns := [Turn.main, .main, .main, .main, .txrdy] ++ List.replicate 9 Turn.main
     m.running = none ∧ m.transport.ring.occ.toNat ≤ sp.ring.cap ∧
     (m.transport.lineReady = true → 2 ≤ m.transport.rxLen.val) ∧ m.inflight ≤ 1 ∧
     (m.transport.txActive = true ↔ m.inflight = 1) ∧ KeepsContractAlong MicroTransport.micro m turns ∧
     (turns.foldl MicroTransport.micro m).running = none) := by
  refine ⟨by decide, by decide, by decide, by decide, by decide, ?_, by decide⟩
  simp only [List.replicate, List.cons_append, List.nil_append, KeepsContractAlong]
  decide

/-- The micro-step that publishes, in each operation, and the one from which it is reached. -/
theorem test_hyps_PublicationComesLast :
    (putStep (small 0 0 []) (.p5 0)).1.head ≠ (small 0 0 []).head ∧ (putStep (small 0 0 []) (.p4 0x61 0)).2 = .p5 0 ∧
    (getStep (small 1 0 [0x61]) (.g5 0 0x61)).1.tail ≠ (small 1 0 [0x61]).tail ∧
    (getStep (small 1 0 [0x61]) (.g4 0)).2 = .g5 0 0x61 ∧
    (rxbyteStep (receiving 2 false [0x41, 0x0D]) .b5).1.lineReady ≠ (receiving 2 false [0x41, 0x0D]).lineReady ∧
    (rxbyteStep (receiving 1 false [0x41, 0x0D]) (.b4 0x0D (1 : Fin 4))).2 = .b5 ∧
    (rxbyteStep (receiving 1 false [0x41]) (.b3 0x0D (1 : Fin 4))).2 = .b4 0x0D (1 : Fin 4) := by decide

/-- The same in the mainline operations; a line of two bytes is read by two micro-steps of q3. -/
theorem test_hyps_PublicationComesLast_mainline :
    (let m : MicroTransport sp := { busy .poll with
       transport := { Transport.reset sp 0 with rx := cells [0x41, 0x42, 0x0D], rxLen := (3 : Fin 5), lineReady := true } }
     (m.mainAt (.k4 .ok 0x61)).sent ≠ m.sent ∧ (m.mainAt (.k3 .ok 0x61)).running = some (.k4 .ok 0x61) ∧
     (m.mainAt (.q4 [0x41, 0x42])).transport.rxLen ≠ m.transport.rxLen ∧
     (m.mainAt (.q5 [0x41, 0x42])).transport.lineReady ≠ m.transport.lineReady ∧
     (m.mainAt (.q4 [0x41, 0x42])).running = some (.q5 [0x41, 0x42]) ∧
     (m.mainAt (.q3 3 [0x41, 0x42])).running = some (.q4 [0x41, 0x42]) ∧
     (m.mainAt .q2).running = some (.q3 3 []) ∧
     (m.mainAt (.q3 3 [0x41])).running = some (.q3 3 [0x41, 0x42])) := by decide

/-- A mainline in the middle of a `SEND`, and one at rest. -/
theorem test_hyps_MicroModelTakesTheMeaningsOfExec :
    (let t : Transport sp := { (busy .kick).transport with lineReady := true, rxLen := (2 : Fin 5) }
     let s : State := { State.reset with tp := sp, transport := t, port := .I }
     let m : MicroTransport sp := { busy .kick with transport := t, running := some (.put true (.p4 0x62 1)) }
     m.transport = s.transport ∧ s.port = .I ∧ ({ s with port := .M } : State).port = .M ∧
     (s.transport.lineReady = true → 2 ≤ s.transport.rxLen.val) ∧ Turn.txrdy ≠ .main) := by decide

end Sys2Proof.Machine.Tests
end

section
/-! PROOFS. The statements of `00_scope.md`: which configurations are refused (R8), that every operation completes (R12),
and that a step executes the operation standing at the port it serves (R9). -/

namespace Sys2Proof

/-! ### The widths of a ring (`00_scope.md` R8) -/

theorem RingParams.ofWidths_eq_none_iff (n cw : Nat) : RingParams.ofWidths n cw = none ↔ cw ≤ n := by
  simp [RingParams.ofWidths]

theorem RingParams.widths_of_ofWidths {n cw : Nat} {p : RingParams} (h : RingParams.ofWidths n cw = some p) :
    p.n = n ∧ p.cw = cw := by
  unfold RingParams.ofWidths at h
  split at h
  · cases h
    exact ⟨rfl, by simp only [RingParams.cw]; omega⟩
  · cases h

/-- Settles O14: `ofWidths` refuses by the test `n < cw`, and the slack it computes makes up the rest of `CW`. -/
theorem narrowCountersAreRefused : Obligations.NarrowCountersAreRefused := fun n cw =>
  ⟨RingParams.ofWidths_eq_none_iff n cw, fun _ => RingParams.widths_of_ofWidths⟩

end Sys2Proof

namespace Sys2Proof.Machine

/-! ### Every operation completes (`00_scope.md` R12) -/

theorem exec_answers_of_ne_poll {i : Instr} (s : State) (hi : i ≠ .poll) : ∃ t, exec i s = .next t := by
  cases ha : s.port.accepts i
  · exact ⟨_, exec_not_accepted i s ha⟩
  · cases i with
    | poll => exact absurd rfl hi
    | get =>
      simp only [exec, execGet, accepting_yes _ _ _ ha]
      obtain ⟨_, hg⟩ | ⟨_, hg⟩ := s.standalone.get_cases <;> rw [hg] <;> exact ⟨_, rfl⟩
    | reset =>
      simp only [exec, execReset, accepting_yes _ _ _ ha]
      cases s.port <;> exact ⟨_, rfl⟩
    | nop | send | enq | kick | put | txrdy | rxbyte => exact ⟨_, accepting_yes _ _ _ ha⟩

/-- `POLL` completes at a port other than M, without a line, and with a line of two bytes or more (`42_receive.md` R132). -/
theorem exec_poll_answers (s : State)
    (h : s.port = .M → s.transport.lineReady = true → 2 ≤ s.transport.rxLen.val) : ∃ t, exec .poll s = .next t := by
  cases ha : s.port.accepts .poll
  · exact ⟨_, exec_not_accepted .poll s ha⟩
  · simp only [exec, execPoll, accepting_yes _ _ _ ha]
    cases hr : s.transport.lineReady
    · exact ⟨_, if_pos rfl⟩
    · have hM : s.port = .M := by simpa [accepts_poll] using ha
      have hlen : ¬ s.transport.rxLen.val < 2 := Nat.not_lt.2 (h hM hr)
      simp [hlen]

/-- Settles O26: `POLL` is the one operation with an arm that stops, and it stops in that arm's state only. -/
theorem onlyTheShortLinePollStops : Obligations.OnlyTheShortLinePollStops := by
  intro i s
  by_cases hi : i = .poll
  · subst hi
    by_cases hshort : s.port = .M ∧ s.transport.lineReady = true ∧ s.transport.rxLen.val < 2
    · exact .inr ⟨rfl, hshort⟩
    · exact .inl (exec_poll_answers s fun hM hr => Nat.not_lt.1 fun hlt => hshort ⟨hM, hr, hlt⟩)
  · exact .inl (exec_answers_of_ne_poll s hi)

/-! ### A step executes the operation it takes (`00_scope.md` R9, `20_memory.md` R59) -/

/-- Settles O6: the step settles what `exec` answers, `settle` writes the agents only, and `exec` leaves them to it. -/
theorem stepRunsTheDecodedOperation : Obligations.StepRunsTheDecodedOperation := by
  intro s q w i hserved hstanding hdecode
  have hstep := step_taken s hserved hstanding hdecode
  refine ⟨fun t ht => ?_, fun f hf => by rw [hstep, hf]; rfl⟩
  obtain ⟨-, -, -, hagents⟩ := exec_leaves ht
  exact ⟨s.settle q (some i) t, by rw [hstep, ht]; rfl, settle_eq s q (some i) t,
    by rw [settle_inflight, hagents, take_inflight], by rw [settle_suspended, hagents, take_suspended]⟩

end Sys2Proof.Machine
end

section
/-! PROOFS. The statements of `10_state.md`: the derived values of the counters (R23, R25), who writes each register (R21
to R30), the separation of transport and standalone ring (R40), the invariants (R38) and the reset state (R39). What one
operation does to each of the two is said once, as `Transport.Move` and `Ring.Move`, which `exec_moves` ties to `exec`;
the other proofs are case analyses of those. -/

namespace Sys2Proof.Machine

/-! ### What an operation does to the transport and to the standalone ring -/

/-- What operation `i` at port `q` makes of a transport: the transport `t'` after it and the byte it dispatches. -/
inductive Transport.Move {p : TransportParams} (t : Transport p) :
    Instr → Port → Transport p → Option Byte → Prop
  /-- at a port of the standalone ring, at a port that does not accept it, for `NOP`, and for `POLL` without a line -/
  | stay {i : Instr} {q : Port}
      (h : q = .P ∨ q = .C ∨ q.accepts i = false ∨ i = .nop ∨ i = .poll ∧ t.lineReady = false) : Move t i q t none
  | enq (b : Byte) : Move t (.enq b) .M (t.enqueue b).1 none
  | send (b : Byte) : Move t (.send b) .M (t.enqueue b).1.bootstrap.1 (t.enqueue b).1.bootstrap.2
  | kick : Move t .kick .M t.bootstrap.1 t.bootstrap.2
  | poll (h : t.lineReady = true) : Move t .poll .M t.consumeLine none
  | txrdy : Move t .txrdy .I t.transmitReady.1 t.transmitReady.2
  | rxbyte (b : Byte) : Move t (.rxbyte b) .I (t.byteReceived b).1 none
  | reset {q : Port} (seed : Nat) (h : q = .M ∨ q = .I) : Move t .reset q (Transport.reset p seed) none

/-- What operation `i` at port `q` makes of a standalone ring. -/
inductive Ring.Move {p : RingParams} (r : Ring p) : Instr → Port → Ring p → Prop
  | stay (i : Instr) (q : Port) : Move r i q r
  | put (b : Byte) : Move r (.put b) .P (r.put b).1
  | get (h : r.isEmpty = false) : Move r .get .C { r with tail := r.tail + 1 }
  | reset {q : Port} (seed : Nat) (h : q = .P ∨ q = .C) : Move r .reset q (Ring.reset p seed)

theorem State.illegal_tx (s : State) : s.illegal.out.tx = none := by
  simp only [State.illegal, setOut_out]; split <;> rfl

/-- An operation moves the transport and the standalone ring, and otherwise writes the outcome and the next seed only. -/
theorem exec_moves {i : Instr} {s t : State} (h : exec i s = .next t) :
    ∃ tr r out fr, t = { s with transport := tr, standalone := r, out := out, fresh := fr } ∧
      s.transport.Move i s.port tr out.tx ∧ s.standalone.Move i s.port r := by
  rcases exec_cases h with ⟨ha, rfl⟩ | ⟨rfl, _, rfl⟩ | ⟨b, rfl, hq, rfl⟩ | ⟨b, rfl, hq, rfl⟩ | ⟨rfl, hq, rfl⟩ |
    ⟨rfl, _, hr, rfl⟩ | ⟨rfl, hq, hr, _, rfl⟩ | ⟨b, rfl, hq, rfl⟩ | ⟨rfl, hq, rfl⟩ | ⟨b, rfl, hq, rfl⟩ |
    ⟨rfl, hq, _, rfl⟩ | ⟨rfl, hq, he, rfl⟩ | ⟨rfl, hq, rfl⟩ | ⟨rfl, hq, rfl⟩ | ⟨rfl, hq, rfl⟩
  · exact ⟨_, _, _, _, rfl, s.illegal_tx ▸ .stay (.inr (.inr (.inl ha))), .stay _ _⟩
  · exact ⟨_, _, _, _, rfl, .stay (.inr (.inr (.inr (.inl rfl)))), .stay _ _⟩
  · exact ⟨_, _, _, _, rfl, hq ▸ .send b, .stay _ _⟩
  · exact ⟨_, _, _, _, rfl, hq ▸ .enq b, .stay _ _⟩
  · exact ⟨_, _, _, _, rfl, hq ▸ .kick, .stay _ _⟩
  · exact ⟨_, _, _, _, rfl, .stay (.inr (.inr (.inr (.inr ⟨rfl, hr⟩)))), .stay _ _⟩
  · exact ⟨_, _, _, _, rfl, hq ▸ .poll hr, .stay _ _⟩
  · exact ⟨_, _, _, _, rfl, .stay (.inl hq), hq ▸ .put b⟩
  · exact ⟨_, _, _, _, rfl, hq ▸ .txrdy, .stay _ _⟩
  · exact ⟨_, _, _, _, rfl, hq ▸ .rxbyte b, .stay _ _⟩
  · exact ⟨_, _, _, _, rfl, .stay (.inr (.inl hq)), .stay _ _⟩
  · exact ⟨_, _, _, _, rfl, .stay (.inr (.inl hq)), hq ▸ .get he⟩
  · exact ⟨_, _, _, _, rfl, .reset _ (.inl hq), .stay _ _⟩
  · exact ⟨_, _, _, _, rfl, .reset _ (.inr hq), .stay _ _⟩
  · exact ⟨_, _, _, _, rfl, .stay (hq.imp_right .inl), .reset _ hq⟩

/-! ### What each step of a transport leaves alone -/

section
variable {p : TransportParams} (t : Transport p) (b : Byte)

@[simp] theorem Transport.enqueue_tail : (t.enqueue b).1.ring.tail = t.ring.tail := by
  obtain ⟨_, e⟩ | ⟨_, e⟩ := t.enqueue_cases b <;> rw [e]

@[simp] theorem Transport.enqueue_txActive : (t.enqueue b).1.txActive = t.txActive := rfl
@[simp] theorem Transport.enqueue_rxLen : (t.enqueue b).1.rxLen = t.rxLen := rfl
@[simp] theorem Transport.enqueue_lineReady : (t.enqueue b).1.lineReady = t.lineReady := rfl

@[simp] theorem Transport.bootstrap_head : t.bootstrap.1.ring.head = t.ring.head := by
  obtain ⟨_, e⟩ | ⟨_, _, e⟩ | ⟨_, _, e⟩ := t.bootstrap_cases <;> rw [e]

@[simp] theorem Transport.bootstrap_rxLen : t.bootstrap.1.rxLen = t.rxLen := t.bootstrap_rx.2.1
@[simp] theorem Transport.bootstrap_lineReady : t.bootstrap.1.lineReady = t.lineReady := t.bootstrap_rx.2.2

@[simp] theorem Transport.transmitReady_head : t.transmitReady.1.ring.head = t.ring.head := by
  obtain ⟨_, e⟩ | ⟨_, e⟩ := t.transmitReady_cases <;> rw [e]

@[simp] theorem Transport.transmitReady_rxLen : t.transmitReady.1.rxLen = t.rxLen := t.transmitReady_rx.2.1
@[simp] theorem Transport.transmitReady_lineReady : t.transmitReady.1.lineReady = t.lineReady := t.transmitReady_rx.2.2

@[simp] theorem Transport.byteReceived_ring : (t.byteReceived b).1.ring = t.ring := (t.byteReceived_tx b).1
@[simp] theorem Transport.byteReceived_txActive : (t.byteReceived b).1.txActive = t.txActive := (t.byteReceived_tx b).2

@[simp] theorem Transport.consumeLine_ring : t.consumeLine.ring = t.ring := rfl
@[simp] theorem Transport.consumeLine_txActive : t.consumeLine.txActive = t.txActive := rfl

end

/-! ### I1 to I4 (`10_state.md` R38): every step keeps them -/

section
variable {p : TransportParams} {t t' : Transport p} {i : Instr} {q : Port} {tx : Option Byte}

theorem Transport.Move.ringInv (h : t.Move i q t' tx) (ht : t.ring.Inv) : t'.ring.Inv := by
  cases h with
  | stay => exact ht
  | enq b => exact t.ringInv_enqueue b ht
  | send b => exact (t.enqueue b).1.ringInv_bootstrap (t.ringInv_enqueue b ht)
  | kick => exact t.ringInv_bootstrap ht
  | poll => exact ht
  | txrdy => exact t.ringInv_transmitReady ht
  | rxbyte b => exact (t.byteReceived_ring b).symm ▸ ht
  | reset seed => exact Ring.inv_reset p.ring seed

theorem Transport.Move.rxInv (h : t.Move i q t' tx) (ht : t.RxInv) : t'.RxInv := by
  cases h with
  | stay => exact ht
  | enq b => exact rxInv_of_rx_eq ht (t.enqueue_rx b)
  | send b => exact rxInv_of_rx_eq (rxInv_of_rx_eq ht (t.enqueue_rx b)) (t.enqueue b).1.bootstrap_rx
  | kick => exact rxInv_of_rx_eq ht t.bootstrap_rx
  | poll => exact t.rxInv_consumeLine ht
  | txrdy => exact rxInv_of_rx_eq ht t.transmitReady_rx
  | rxbyte b => exact t.rxInv_byteReceived b ht
  | reset seed => exact rxInv_reset p seed

theorem Ring.Move.inv {p : RingParams} {r r' : Ring p} (h : r.Move i q r') (hr : r.Inv) : r'.Inv := by
  cases h with
  | stay => exact hr
  | put b => exact r.inv_put b hr
  | get he => exact r.inv_tail_succ hr he
  | reset seed => exact Ring.inv_reset p seed

end

/-- One operation keeps the invariants of both instances. -/
theorem exec_keeps_inv {i : Instr} {s t : State} (h : exec i s = .next t) (hring : s.transport.ring.Inv)
    (hrx : s.transport.RxInv) (hstand : s.standalone.Inv) :
    t.transport.ring.Inv ∧ t.transport.RxInv ∧ t.standalone.Inv := by
  obtain ⟨tr, r, out, fr, rfl, htr, hr⟩ := exec_moves h
  exact ⟨htr.ringInv hring, htr.rxInv hrx, hr.inv hstand⟩

/-- No suspended mainline is left with a line to wake it (`70_reset_and_hazards.md` R210), whatever the step did. -/
theorem step_asleep {s t : State} (h : step s = .next t) (ht : t.agents.suspended = true) :
    t.transport.lineReady = false := by
  obtain ⟨a, rfl, -⟩ | ⟨q, w, -, -, -, rfl⟩ | ⟨q, w, i, u, -, -, -, -, rfl⟩ := step_cases h
  · rw [quietStep_suspended, Bool.and_eq_true, Bool.not_eq_true'] at ht; exact ht.2
  · rw [settle_suspended, Bool.and_eq_true, Bool.not_eq_true'] at ht; exact ht.2
  · rw [settle_suspended, Bool.and_eq_true, Bool.not_eq_true'] at ht; exact ht.2

/-- Settles O49: a step takes nothing, a reserved word or one operation; only the operation moves
the transport or the standalone ring. -/
theorem stepKeepsTheInvariants : Obligations.StepKeepsTheInvariants := by
  intro s t hs h
  have hasleep := step_asleep h
  obtain ⟨a, rfl, -⟩ | ⟨q, w, -, -, -, rfl⟩ | ⟨q, w, i, u, -, -, -, hu, rfl⟩ := step_cases h
  · exact ⟨hs.ring, hs.rx, hs.standalone, hasleep⟩
  · exact ⟨hs.ring, hs.rx, hs.standalone, hasleep⟩
  · obtain ⟨hring, hrx, hstand⟩ := exec_keeps_inv hu hs.ring hs.rx hs.standalone
    exact ⟨hring, hrx, hstand, hasleep⟩

/-! ### I5 (R38, R117): one byte in flight exactly while `txActive` -/

/-- I5 as one equation between the ghost and the register. -/
theorem oneInFlight_iff (s : State) : s.OneInFlight ↔ s.agents.inflight = s.transport.txActive.toNat := by
  unfold State.OneInFlight
  cases s.transport.txActive
  · simp only [Bool.false_eq_true, false_iff, Bool.toNat_false]; omega
  · simp only [true_iff, Bool.toNat_true]; omega

/-- The ghost moves with an event for a byte in flight, a dispatch and a reset of the transport only. -/
theorem inflightAfter_none {q : Port} {i : Option Instr} (n : Nat) (htx : i = some .txrdy → q ≠ .I)
    (hreset : i = some .reset → q ≠ .M ∧ q ≠ .I) : inflightAfter q i none n = n := by
  unfold inflightAfter
  split
  · exact absurd rfl (htx rfl)
  · exact absurd rfl (hreset rfl).1
  · exact absurd rfl (hreset rfl).2
  · rfl

section
variable {p : TransportParams} (t : Transport p)

/-- A bootstrap step dispatches a byte exactly when it makes an idle transport active. -/
theorem Transport.inflight_bootstrap :
    (if t.bootstrap.2.isSome then t.txActive.toNat + 1 else t.txActive.toNat) = t.bootstrap.1.txActive.toNat := by
  obtain ⟨ha, e⟩ | ⟨ha, _, e⟩ | ⟨ha, _, e⟩ := t.bootstrap_cases <;> simp [ha, e]

/-- The handler of the event owed for the one byte in flight dispatches the next, or leaves the transport idle. -/
theorem Transport.inflight_transmitReady (ha : t.txActive = true) :
    inflightAfter .I (some .txrdy) t.transmitReady.2 t.txActive.toNat = t.transmitReady.1.txActive.toNat := by
  obtain ⟨_, e⟩ | ⟨_, e⟩ := t.transmitReady_cases <;> simp [inflightAfter, ha, e]

/-- Under the contract every operation keeps the ghost equal to `txActive`. -/
theorem Transport.Move.inflight {t t' : Transport p} {i : Instr} {q : Port} {tx : Option Byte} (h : t.Move i q t' tx)
    (hcontract : i = .txrdy → q = .I → t.txActive = true) :
    inflightAfter q (some i) tx t.txActive.toNat = t'.txActive.toNat := by
  cases h with
  | stay h =>
    refine inflightAfter_none _ ?_ ?_
    · rintro ⟨⟩ rfl; simp [accepts_txrdy] at h
    · rintro ⟨⟩; constructor <;> rintro rfl <;> simp [accepts_reset] at h
  | enq b => rfl
  | send b => exact (t.enqueue b).1.inflight_bootstrap
  | kick => exact t.inflight_bootstrap
  | poll => rfl
  | txrdy => exact t.inflight_transmitReady (hcontract rfl rfl)
  | rxbyte b => rw [t.byteReceived_txActive]; rfl
  | reset _ h => obtain rfl | rfl := h <;> rfl

end

/-- Settles O52: with I5 as an equation, the contract makes the transport active at every `TXRDY` the step takes. -/
theorem stepKeepsOneInFlight : Obligations.StepKeepsOneInFlight := by
  intro s t hs hcontract h
  rw [oneInFlight_iff] at hs ⊢
  obtain ⟨a, rfl, ha⟩ | ⟨q, w, -, -, -, rfl⟩ | ⟨q, w, i, u, hserved, hstanding, hdecode, hu, rfl⟩ := step_cases h
  · have hsame : a.inflight = s.agents.inflight := by
      obtain rfl | rfl | rfl := ha
      · rfl
      · exact useTurn_inflight s
      · exact useTurn_inflight s
    exact hsame.trans hs
  · rw [settle_inflight, State.illegal_tx]
    exact (take_inflight s q).trans hs
  · have hactive : i = .txrdy → q = .I → s.transport.txActive = true := by
      rintro rfl rfl
      exact Bool.toNat_eq_one.mp (hs.symm.trans (hcontract (nextOp_of s hserved hstanding hdecode)))
    obtain ⟨tr, r, out, fr, rfl, htr, -⟩ := exec_moves hu
    rw [settle_inflight]
    exact (congrArg _ ((take_inflight s q).trans hs)).trans (htr.inflight hactive)

/-! ### I6 (R38, `41_transmit.md` R118): an idle transport has an empty ring -/

/-- After a bootstrap step an idle transport is empty: with a byte in the ring the step would have dispatched. -/
theorem Transport.bootstrap_drained {p : TransportParams} (t : Transport p) (ha : t.bootstrap.1.txActive = false) :
    t.bootstrap.1.ring.isEmpty = true := by
  obtain ⟨hactive, e⟩ | ⟨_, hempty, e⟩ | ⟨_, _, e⟩ := t.bootstrap_cases <;> rw [e] at ha ⊢
  · exact absurd hactive (Bool.eq_false_iff.mp ha)
  · exact hempty
  · cases ha

/-- A transmit-ready event ends the activity on an empty ring only. -/
theorem Transport.transmitReady_drained {p : TransportParams} (t : Transport p)
    (ht : t.txActive = false → t.ring.isEmpty = true) (ha : t.transmitReady.1.txActive = false) :
    t.transmitReady.1.ring.isEmpty = true := by
  obtain ⟨hempty, e⟩ | ⟨hempty, e⟩ := t.transmitReady_cases <;> rw [e] at ha ⊢
  · exact hempty
  · exact absurd (ht ha) (by simp [hempty])

theorem Ring.reset_isEmpty (p : RingParams) (seed : Nat) : (Ring.reset p seed).isEmpty = true := by
  simp [Ring.isEmpty, Ring.reset]

theorem Ring.reset_occ (p : RingParams) (seed : Nat) : (Ring.reset p seed).occ.toNat = 0 :=
  (Ring.isEmpty_iff _).mp (Ring.reset_isEmpty p seed)

section
variable {p : TransportParams} {t t' : Transport p} {i : Instr} {q : Port} {tx : Option Byte}

/-- `KICK` and `SEND` at port M end with a bootstrap step. -/
theorem Transport.Move.drained_of_bootstrap (h : t.Move i .M t' tx) (hi : i = .kick ∨ ∃ b, i = .send b)
    (ha : t'.txActive = false) : t'.ring.isEmpty = true := by
  cases h with
  | send b => exact (t.enqueue b).1.bootstrap_drained ha
  | kick => exact t.bootstrap_drained ha
  | stay h => obtain rfl | ⟨b, rfl⟩ := hi <;> simp [accepts_kick, accepts_send] at h
  | enq | poll | reset => simp at hi

theorem Transport.Move.drained (h : t.Move i q t' tx) (hi : ∀ b, i ≠ .enq b)
    (ht : t.txActive = false → t.ring.isEmpty = true) (ha : t'.txActive = false) : t'.ring.isEmpty = true := by
  cases h with
  | stay => exact ht ha
  | enq b => exact absurd rfl (hi b)
  | send b => exact (t.enqueue b).1.bootstrap_drained ha
  | kick => exact t.bootstrap_drained ha
  | poll => exact ht ha
  | txrdy => exact t.transmitReady_drained ht ha
  | rxbyte b => rw [t.byteReceived_txActive] at ha; rw [t.byteReceived_ring]; exact ht ha
  | reset => exact Ring.reset_isEmpty p.ring _

end

/-- Settles O53: a bootstrap step leaves no byte behind in an idle transport, and only an enqueue step adds one. -/
theorem closedRunsLeaveIdleEmpty : Obligations.ClosedRunsLeaveIdleEmpty := by
  constructor
  · intro i s t hi hq h
    obtain ⟨tr, r, out, fr, rfl, htr, -⟩ := exec_moves h
    exact Transport.Move.drained_of_bootstrap (hq ▸ htr) hi
  · intro i s t hi hs h
    obtain ⟨tr, r, out, fr, rfl, htr, -⟩ := exec_moves h
    exact htr.drained hi hs

/-! ### The transport and the standalone ring share nothing (R40) -/

theorem Transport.Move.eq_of_standalone_port {p : TransportParams} {t t' : Transport p} {i : Instr} {q : Port}
    {tx : Option Byte} (h : t.Move i q t' tx) (hq : q = .P ∨ q = .C) : t' = t := by
  cases h with
  | stay => rfl
  | reset _ hr => obtain rfl | rfl := hr <;> simp at hq
  | enq | send | kick | poll | txrdy | rxbyte => simp at hq

theorem Ring.Move.eq_of_transport_port {p : RingParams} {r r' : Ring p} {i : Instr} {q : Port} (h : r.Move i q r')
    (hq : q = .M ∨ q = .I) : r' = r := by
  cases h with
  | stay => rfl
  | reset _ hr => obtain rfl | rfl := hr <;> simp at hq
  | put | get => simp at hq

/-- Settles O30: at a port of the one, the only move of the other is to stay. -/
theorem instancesDoNotTouchEachOther : Obligations.InstancesDoNotTouchEachOther := by
  intro i s t h
  obtain ⟨tr, r, out, fr, rfl, htr, hr⟩ := exec_moves h
  exact ⟨fun hq => ⟨tr, fr, by rw [hr.eq_of_transport_port hq]⟩,
    fun hq => ⟨r, fr, by rw [htr.eq_of_standalone_port hq]⟩⟩

/-! ### Who writes each register of the transport (R21, R22, R26 to R28, R30) -/

/-- An enqueue step moves `head` only with room. -/
theorem Transport.room_of_enqueue_head {p : TransportParams} {t : Transport p} {b : Byte}
    (h : (t.enqueue b).1.ring.head ≠ t.ring.head) : t.ring.isFull = false := by
  obtain ⟨_, e⟩ | ⟨hroom, _⟩ := t.enqueue_cases b
  · exact absurd (by rw [e]) h
  · exact hroom

/-- A bootstrap step that moves `tail`, and one that sets `txActive`, dispatches a byte of an idle transport. -/
theorem Transport.dispatch_of_bootstrap {p : TransportParams} {t : Transport p}
    (h : t.bootstrap.1.ring.tail ≠ t.ring.tail ∨ t.bootstrap.1.txActive ≠ t.txActive) :
    t.bootstrap.2.isSome = true ∧ t.txActive = false := by
  obtain ⟨_, e⟩ | ⟨_, _, e⟩ | ⟨ha, _, e⟩ := t.bootstrap_cases
  · simp [e] at h
  · simp [e] at h
  · exact ⟨by rw [e]; rfl, ha⟩

section
variable {p : TransportParams} {t t' : Transport p} {i : Instr} {q : Port} {tx : Option Byte}

/-- `head` (R21): an enqueue step writes it, with room. -/
theorem Transport.Move.head (h : t.Move i q t' tx) (hr : ¬ (i = .reset ∧ (q = .M ∨ q = .I)))
    (hne : t'.ring.head ≠ t.ring.head) :
    q = .M ∧ t.ring.isFull = false ∧ ((∃ b, i = .enq b) ∨ ∃ b, i = .send b) := by
  cases h with
  | enq b => exact ⟨rfl, room_of_enqueue_head hne, .inl ⟨b, rfl⟩⟩
  | send b => exact ⟨rfl, room_of_enqueue_head (by simpa using hne), .inr ⟨b, rfl⟩⟩
  | reset _ hq => exact absurd ⟨rfl, hq⟩ hr
  | stay | kick | poll | txrdy | rxbyte => simp at hne

/-- `tail` (R22, R30): a dispatch writes it, at port M only while the transport is idle. -/
theorem Transport.Move.tail (h : t.Move i q t' tx) (hr : ¬ (i = .reset ∧ (q = .M ∨ q = .I)))
    (hne : t'.ring.tail ≠ t.ring.tail) :
    tx.isSome = true ∧
      (i = .txrdy ∧ q = .I ∨ ((i = .kick ∨ ∃ b, i = .send b) ∧ q = .M) ∧ t.txActive = false) := by
  cases h with
  | send b =>
    obtain ⟨htx, ha⟩ := dispatch_of_bootstrap (t := (t.enqueue b).1) (.inl (by simpa using hne))
    exact ⟨htx, .inr ⟨⟨.inr ⟨b, rfl⟩, rfl⟩, ha⟩⟩
  | kick =>
    obtain ⟨htx, ha⟩ := dispatch_of_bootstrap (.inl hne)
    exact ⟨htx, .inr ⟨⟨.inl rfl, rfl⟩, ha⟩⟩
  | txrdy =>
    obtain ⟨_, e⟩ | ⟨_, e⟩ := t.transmitReady_cases
    · simp [e] at hne
    · exact ⟨by rw [e]; rfl, .inl ⟨rfl, rfl⟩⟩
  | reset _ hq => exact absurd ⟨rfl, hq⟩ hr
  | stay | enq | poll | rxbyte => simp at hne

/-- `txActive` (R26) rises with the dispatch of a bootstrap step. -/
theorem Transport.Move.txActive_rises (h : t.Move i q t' tx) (ha : t.txActive = false) (ha' : t'.txActive = true) :
    tx.isSome = true ∧ q = .M ∧ (i = .kick ∨ ∃ b, i = .send b) := by
  cases h with
  | send b =>
    have hset : (t.enqueue b).1.bootstrap.1.txActive ≠ (t.enqueue b).1.txActive := by simp [ha, ha']
    exact ⟨(dispatch_of_bootstrap (.inr hset)).1, rfl, .inr ⟨b, rfl⟩⟩
  | kick => exact ⟨(dispatch_of_bootstrap (.inr (by simp [ha, ha']))).1, rfl, .inl rfl⟩
  | txrdy => obtain ⟨_, e⟩ | ⟨_, e⟩ := t.transmitReady_cases <;> simp [e, ha] at ha'
  | reset => cases ha'
  | stay | enq | poll | rxbyte => simp [ha] at ha'

/-- `txActive` (R26) falls when a `TXRDY` finds the ring empty. -/
theorem Transport.Move.txActive_falls (h : t.Move i q t' tx) (hr : ¬ (i = .reset ∧ (q = .M ∨ q = .I)))
    (ha : t.txActive = true) (ha' : t'.txActive = false) : i = .txrdy ∧ q = .I ∧ t.ring.isEmpty = true := by
  cases h with
  | txrdy =>
    obtain ⟨he, _⟩ | ⟨_, e⟩ := t.transmitReady_cases
    · exact ⟨rfl, rfl, he⟩
    · simp [e, ha] at ha'
  | send b => exact absurd (dispatch_of_bootstrap (t := (t.enqueue b).1) (.inr (by simp [ha, ha']))).2 (by simp [ha])
  | kick => exact absurd (dispatch_of_bootstrap (t := t) (.inr (by simp [ha, ha']))).2 (by simp [ha])
  | reset _ hq => exact absurd ⟨rfl, hq⟩ hr
  | stay | enq | poll | rxbyte => simp [ha] at ha'

/-- `rxLen` (R27, R30): an append writes it while no line is ready, a `POLL` when one is. -/
theorem Transport.Move.rxLen (h : t.Move i q t' tx) (hr : ¬ (i = .reset ∧ (q = .M ∨ q = .I)))
    (hne : t'.rxLen ≠ t.rxLen) :
    ((∃ b, i = .rxbyte b) ∧ q = .I) ∧ t.lineReady = false ∨ (i = .poll ∧ q = .M) ∧ t.lineReady = true := by
  cases h with
  | poll hl => exact .inr ⟨⟨rfl, rfl⟩, hl⟩
  | rxbyte b =>
    obtain ⟨_, e⟩ | ⟨hl, _⟩ | ⟨hl, _⟩ := t.byteReceived_cases b
    · simp [e] at hne
    · exact .inl ⟨⟨⟨b, rfl⟩, rfl⟩, hl⟩
    · exact .inl ⟨⟨⟨b, rfl⟩, rfl⟩, hl⟩
  | reset _ hq => exact absurd ⟨rfl, hq⟩ hr
  | stay | enq | send | kick | txrdy => simp at hne

/-- `lineReady` (R28) rises when a terminator completes a line that is not blank. -/
theorem Transport.Move.lineReady_rises (h : t.Move i q t' tx) (hl : t.lineReady = false) (hl' : t'.lineReady = true) :
    ∃ b, i = .rxbyte b ∧ q = .I ∧ isTerm b = true ∧ 1 < t'.rxLen.val := by
  cases h with
  | rxbyte b =>
    obtain ⟨_, e⟩ | ⟨_, _, e⟩ | ⟨_, _, ⟨_, e⟩ | ⟨_, _, e⟩ | ⟨hterm, hlen, e⟩⟩ := t.byteReceived_cases b <;>
      rw [e] at hl'
    · simp [hl] at hl'
    · simp [hl] at hl'
    · simp [hl] at hl'
    · simp [hl] at hl'
    · exact ⟨b, rfl, rfl, hterm, by rw [e]; exact Nat.lt_succ_of_le hlen⟩
  | poll => cases hl'
  | reset => cases hl'
  | stay | enq | send | kick | txrdy => simp [hl] at hl'

/-- `lineReady` (R28) falls when a `POLL` consumes the line. -/
theorem Transport.Move.lineReady_falls (h : t.Move i q t' tx) (hr : ¬ (i = .reset ∧ (q = .M ∨ q = .I)))
    (hl : t.lineReady = true) (hl' : t'.lineReady = false) : i = .poll ∧ q = .M := by
  cases h with
  | poll => exact ⟨rfl, rfl⟩
  | rxbyte b =>
    obtain ⟨_, e⟩ | ⟨hl0, _⟩ | ⟨hl0, _⟩ := t.byteReceived_cases b
    · simp [e, hl] at hl'
    · simp [hl] at hl0
    · simp [hl] at hl0
  | reset _ hq => exact absurd ⟨rfl, hq⟩ hr
  | stay | enq | send | kick | txrdy => simp [hl] at hl'

end

/-- Settles O31: one lemma per register, each a case analysis of what the operation does to the transport. -/
theorem onlyTheNamedOperationsWrite : Obligations.OnlyTheNamedOperationsWrite := by
  intro i s t h hr
  obtain ⟨tr, r, out, fr, rfl, htr, -⟩ := exec_moves h
  refine ⟨fun hne => htr.head hr (BitVec.toNat_ne_iff_ne.mp hne), fun hne => ?_, htr.txActive_rises, htr.txActive_falls hr,
    fun hne => ?_, htr.lineReady_rises, htr.lineReady_falls hr⟩
  · exact (htr.tail hr (BitVec.toNat_ne_iff_ne.mp hne)).imp_right (.imp_right And.left)
  · exact (htr.rxLen hr (Fin.val_ne_iff.mp hne)).imp And.left And.left

/-- Settles O32: at port M `tail` moves by a bootstrap step of an idle transport, at port I by a `TXRDY`, which the
contract ties to an active one; `rxLen` moves by an append without a line, or by the `POLL` of one. -/
theorem writersAreHandedOver : Obligations.WritersAreHandedOver := by
  intro i s t h hi
  obtain ⟨tr, r, out, fr, rfl, htr, -⟩ := exec_moves h
  have hr : ¬ (i = .reset ∧ (s.port = .M ∨ s.port = .I)) := fun e => hi e.1
  refine ⟨fun hq hne => ?_, fun hq hone hcontract hne => ?_, fun hq hne => ?_, fun hq hne => ?_⟩
  · obtain ⟨-, ⟨-, hI⟩ | ⟨-, ha⟩⟩ := htr.tail hr (BitVec.toNat_ne_iff_ne.mp hne)
    · cases hq.symm.trans hI
    · exact ha
  · obtain ⟨-, ⟨htxrdy, -⟩ | ⟨⟨-, hM⟩, -⟩⟩ := htr.tail hr (BitVec.toNat_ne_iff_ne.mp hne)
    · exact hone.2.mpr (hcontract htxrdy)
    · cases hq.symm.trans hM
  · obtain ⟨⟨-, hI⟩, -⟩ | ⟨-, hl⟩ := htr.rxLen hr (Fin.val_ne_iff.mp hne)
    · cases hq.symm.trans hI
    · exact hl
  · obtain ⟨-, hl⟩ | ⟨⟨-, hM⟩, -⟩ := htr.rxLen hr (Fin.val_ne_iff.mp hne)
    · exact hl
    · cases hq.symm.trans hM

/-! ### The derived values of the counters (R23, R25) -/

/-- Settles O11: the difference of the counters modulo `2^CW`, and `full` by the model's law of `isFull`. -/
theorem derivedValuesOfTheCounters : Obligations.DerivedValuesOfTheCounters := by
  intro p r
  refine ⟨?_, beq_iff_eq, r.isFull_iff⟩
  have htail := r.tail.isLt
  rw [Ring.occ, BitVec.toNat_sub]
  congr 1
  omega

/-- Settles O12: `MASK` keeps the low `N` bits (`cellOf_eq_mod`), and one cell has index 0 only. -/
theorem cellIndexIsTheLowBits : Obligations.CellIndexIsTheLowBits := by
  intro p c
  refine ⟨cellOf_eq_mod c, cellOf_lt c, fun hn => ?_⟩
  have hcap : cellOf c < 2 ^ p.n := cellOf_lt c
  rw [hn] at hcap
  exact Nat.lt_one_iff.mp hcap

/-! ### The reset state (R39) -/

theorem exec_reset_transport (s : State) (hq : s.port = .M ∨ s.port = .I) :
    ∃ out, exec .reset s = .next (s.resetTransport.setOut out) := by
  simp only [exec, execReset, accepting_yes _ _ _ (accepts_reset _)]
  obtain hq | hq := hq <;> rw [hq] <;> exact ⟨_, rfl⟩

theorem exec_reset_standalone (s : State) (hq : s.port = .P ∨ s.port = .C) :
    ∃ out, exec .reset s = .next (s.resetStandalone.setOut out) := by
  simp only [exec, execReset, accepting_yes _ _ _ (accepts_reset _)]
  obtain hq | hq := hq <;> rw [hq] <;> exact ⟨_, rfl⟩

/-- Settles O47: the fields of `Ring.reset` and `Transport.reset`, which both the reset state and `RESET` take. -/
theorem resetStateValues : Obligations.ResetStateValues := by
  refine ⟨fun tp rp => ?_, fun s hq => ?_, fun s hq => ?_⟩
  · exact ⟨by simp [State.regs, State.resetWith, Transport.reset, Ring.reset], Ring.reset_isEmpty _ _,
      Ring.reset_occ _ _, Ring.reset_isEmpty _ _, Ring.reset_occ _ _, rfl, fun _ => ⟨rfl, rfl, rfl⟩⟩
  · obtain ⟨out, hreset⟩ := exec_reset_transport s hq
    exact ⟨_, hreset, Ring.reset_isEmpty _ _, Ring.reset_occ _ _, rfl,
      by simp [State.regs, Transport.reset, Ring.reset], fun _ => ⟨rfl, rfl⟩⟩
  · obtain ⟨out, hreset⟩ := exec_reset_standalone s hq
    exact ⟨_, hreset, Ring.reset_isEmpty _ _, Ring.reset_occ _ _, by simp [State.regs, Ring.reset], fun _ => rfl⟩

/-- Settles O48: the laws of the two resets; no byte is in flight and no ring holds one. -/
theorem resetStateMeetsTheInvariants : Obligations.ResetStateMeetsTheInvariants := by
  intro tp rp
  refine ⟨⟨Ring.inv_reset _ _, Transport.rxInv_reset _ _, Ring.inv_reset _ _, fun _ => rfl⟩, ?_,
    fun _ => Ring.reset_isEmpty _ _⟩
  exact (oneInFlight_iff _).mpr rfl

end Sys2Proof.Machine
end

section
/-! PROOFS. The statements of `20_memory.md`: any sequence of operations runs to its end (R59), the transmit ring gives
back its bytes in order (R60), and the two sides of a transport commute (R63). What a ring took and gave over an operation
or a run is `Ring.Flow`, which composes. What an operation does to the transport alone is an `Effect`, presented by
`State.apply`; two effects commute where each stays on its own side. -/

namespace Sys2Proof.Machine

/-! ### Runs of operations at any ports (`20_memory.md` R59) -/

/-- The receive invariant holds a line of two bytes or more, so not even `POLL` stops. -/
theorem exec_answers_of_rxInv (i : Instr) (s : State) (h : s.transport.RxInv) : ∃ t, exec i s = .next t := by
  by_cases hi : i = .poll
  · subst hi
    exact exec_poll_answers s fun _ => h.lineLength
  · exact exec_answers_of_ne_poll s hi

/-- Settles O51: by induction on the list; each operation answers and keeps the invariants of both instances. -/
theorem runsNeverStop : Obligations.RunsNeverStop := by
  intro ls s hs
  obtain ⟨hring, hrx, hstand, -⟩ := hs
  induction ls generalizing s with
  | nil => exact ⟨s, [], rfl, hring, hrx, hstand⟩
  | cons l ls ih =>
    obtain ⟨u, hu⟩ := exec_answers_of_rxInv l.op (s.at l.port) hrx
    obtain ⟨hring', hrx', hstand'⟩ := exec_keeps_inv hu hring hrx hstand
    obtain ⟨t, es, hrun, hinv⟩ := ih u hring' hrx' hstand'
    exact ⟨t, _, by rw [runOps_cons ls hu, hrun]; rfl, hinv⟩

/-! ### The flow of bytes through a ring (`20_memory.md` R60) -/

/-- From `r`, a ring took the bytes `ins`, gave the bytes `outs` and became `r'`: first in, first out, and no more than it
has cells for. The two have parameters of their own, so that `r` and `r'` may be the rings of two states of a run. -/
structure Ring.Flow {p p' : RingParams} (r : Ring p) (r' : Ring p') (ins outs : List Byte) : Prop where
  inOrder : r.contents ++ ins = outs ++ r'.contents
  bounded : r'.occ.toNat ≤ p'.cap

section
variable {p p' p'' : RingParams} {r : Ring p} {r' : Ring p'} {r'' : Ring p''}

theorem Ring.Flow.refl (hb : r.occ.toNat ≤ p.cap) : r.Flow r [] [] := ⟨List.append_nil _, hb⟩

theorem Ring.Flow.trans {ins ins' outs outs' : List Byte} (h : r.Flow r' ins outs) (h' : r'.Flow r'' ins' outs') :
    r.Flow r'' (ins ++ ins') (outs ++ outs') where
  inOrder := by
    calc r.contents ++ (ins ++ ins')
        = (r.contents ++ ins) ++ ins' := (List.append_assoc ..).symm
      _ = outs ++ (r'.contents ++ ins') := by rw [h.inOrder, List.append_assoc]
      _ = (outs ++ outs') ++ r''.contents := by rw [h'.inOrder, List.append_assoc]
  bounded := h'.bounded

theorem Ring.flow_put (b : Byte) (hf : r.isFull = false) (hb : r.occ.toNat ≤ p.cap) : r.Flow (r.put b).1 [b] [] where
  inOrder := (r.contents_put b hf hb).symm
  bounded := by
    have hlt := r.occ_lt_of_room hf hb
    have hocc : (r.put b).1.occ.toNat = r.occ.toNat + 1 := by rw [r.put_room b hf]; exact occ_succ_head r.head r.tail hlt
    omega

theorem Ring.flow_get (he : r.isEmpty = false) (hb : r.occ.toNat ≤ p.cap) :
    r.Flow { r with tail := r.tail + 1 } [] [r.tx.read r.getCell] where
  inOrder := (List.append_nil _).trans (r.contents_get he)
  bounded := by have hocc := r.occ_after_get he; omega

end

section
variable {p : TransportParams} (t : Transport p) (hb : t.ring.occ.toNat ≤ p.ring.cap)
include hb

/-- An enqueue step takes its byte exactly when its status is `OK` (R110). -/
theorem Transport.flow_enqueue (b : Byte) :
    t.ring.Flow (t.enqueue b).1.ring (if (t.enqueue b).2 = .ok then [b] else []) [] := by
  obtain ⟨_, e⟩ | ⟨hf, e⟩ := t.enqueue_cases b
  · rw [e]; exact .refl hb
  · have hflow : t.ring.Flow (t.enqueue b).1.ring [b] [] := Ring.flow_put b hf hb
    rw [if_pos (by rw [e])]
    exact hflow

theorem Transport.flow_bootstrap : t.ring.Flow t.bootstrap.1.ring [] t.bootstrap.2.toList := by
  obtain ⟨_, e⟩ | ⟨_, _, e⟩ | ⟨_, he, e⟩ := t.bootstrap_cases <;> rw [e]
  · exact .refl hb
  · exact .refl hb
  · exact Ring.flow_get he hb

theorem Transport.flow_transmitReady : t.ring.Flow t.transmitReady.1.ring [] t.transmitReady.2.toList := by
  obtain ⟨_, e⟩ | ⟨he, e⟩ := t.transmitReady_cases <;> rw [e]
  · exact .refl hb
  · exact Ring.flow_get he hb

end

theorem Event.accepted?_eq_none_of_status {e : Event} (h : e.out.status ≠ some .ok) : e.accepted? = none := by
  simp only [Event.accepted?, h, if_false]
  split <;> rfl

theorem Event.accepted?_send (q : Port) (b : Byte) (out : Result) (st : Status) (h : out.status = some st) :
    (Event.mk q (.send b) out).accepted?.toList = if st = .ok then [b] else [] := by
  simp only [Event.accepted?, h, Option.some.injEq]
  split <;> rfl

theorem Event.accepted?_enq (q : Port) (b : Byte) (out : Result) (st : Status) (h : out.status = some st) :
    (Event.mk q (.enq b) out).accepted?.toList = if st = .ok then [b] else [] := Event.accepted?_send q b out st h

theorem State.illegal_status_ne_ok (s : State) : s.illegal.out.status ≠ some .ok := by
  simp only [State.illegal, setOut_out]; split <;> decide

/-- One operation that does not reset the transport: its ring takes the byte accepted and gives the byte dispatched. -/
theorem exec_flow {i : Instr} {s t : State} (h : exec i s = .next t)
    (hr : i = .reset → s.port = .P ∨ s.port = .C) (hb : s.transport.ring.occ.toNat ≤ s.tp.ring.cap) :
    s.transport.ring.Flow t.transport.ring (Event.mk s.port i t.out).accepted?.toList t.out.tx.toList := by
  have unmoved : s.transport.ring.Flow s.transport.ring [] [] := .refl hb
  rcases exec_cases h with ⟨_, rfl⟩ | ⟨rfl, _, rfl⟩ | ⟨b, rfl, _, rfl⟩ | ⟨b, rfl, _, rfl⟩ | ⟨rfl, _, rfl⟩ |
    ⟨rfl, _, _, rfl⟩ | ⟨rfl, _, _, _, rfl⟩ | ⟨b, rfl, _, rfl⟩ | ⟨rfl, _, rfl⟩ | ⟨b, rfl, _, rfl⟩ |
    ⟨rfl, _, _, rfl⟩ | ⟨rfl, _, _, rfl⟩ | ⟨rfl, hq, rfl⟩ | ⟨rfl, hq, rfl⟩ | ⟨rfl, _, rfl⟩
  · rw [Event.accepted?_eq_none_of_status s.illegal_status_ne_ok, s.illegal_tx]
    exact unmoved
  · exact unmoved
  · have henq := s.transport.flow_enqueue hb b
    rw [Event.accepted?_send _ b _ _ rfl]
    have hsend := henq.trans ((s.transport.enqueue b).1.flow_bootstrap henq.bounded)
    rw [List.append_nil] at hsend
    exact hsend
  · rw [Event.accepted?_enq _ b _ _ rfl]
    exact s.transport.flow_enqueue hb b
  · exact s.transport.flow_bootstrap hb
  · exact unmoved
  · exact unmoved
  · exact unmoved
  · exact s.transport.flow_transmitReady hb
  · exact (s.transport.byteReceived_ring b).symm ▸ unmoved
  · exact unmoved
  · exact unmoved
  · exact absurd (hr rfl) (by rw [hq]; decide)
  · exact absurd (hr rfl) (by rw [hq]; decide)
  · exact unmoved

/-- A run without a reset of the transport is one flow through its ring. -/
theorem runOps_flow {ls : List Line} {s t : State} {es : List Event}
    (hr : ∀ l ∈ ls, l.op = .reset → l.port = .P ∨ l.port = .C) (h : runOps s ls = some (t, es))
    (hb : s.transport.ring.occ.toNat ≤ s.tp.ring.cap) :
    s.transport.ring.Flow t.transport.ring (bytesAccepted es) (bytesSent es) := by
  induction ls generalizing s es with
  | nil => cases h; exact .refl hb
  | cons l ls ih =>
    obtain ⟨u, es', hp, hrun, rfl⟩ := runOps_cons_some h
    have hfirst : s.transport.ring.Flow u.transport.ring _ _ :=
      exec_flow (s := s.at l.port) hp (hr l List.mem_cons_self) hb
    rw [bytesAccepted_cons, bytesSent_cons]
    exact hfirst.trans (ih (fun k hk => hr k (List.mem_cons_of_mem _ hk)) hrun hfirst.bounded)

/-- Settles O41: the flow through the transport's ring, composed over the run. -/
theorem transmissionIsInOrder : Obligations.TransmissionIsInOrder := by
  intro ls s t es hb hr h
  obtain ⟨inOrder, bounded⟩ := runOps_flow hr h hb
  exact ⟨inOrder, bounded⟩

/-! ### The two sides of a transport (`20_memory.md` R63) -/

/-- The transport with the transmit side of `t` and the receive side of `u`. -/
def Transport.join {p : TransportParams} (t u : Transport p) : Transport p :=
  { u with ring := t.ring, txActive := t.txActive }

section
variable {p : TransportParams} (t u : Transport p) (b : Byte)

theorem Transport.enqueue_join : (t.join u).enqueue b = ((t.enqueue b).1.join u, (t.enqueue b).2) := rfl

theorem Transport.bootstrap_join : (t.join u).bootstrap = (t.bootstrap.1.join u, t.bootstrap.2) := by
  cases ha : t.txActive
  · cases hg : t.ring.get <;> simp [Transport.bootstrap, Transport.join, ha, hg]
  · simp [Transport.bootstrap, Transport.join, ha]

theorem Transport.transmitReady_join : (t.join u).transmitReady = (t.transmitReady.1.join u, t.transmitReady.2) := by
  cases hg : t.ring.get <;> simp [Transport.transmitReady, Transport.join, hg]

theorem Transport.byteReceived_join :
    (t.join u).byteReceived b = (t.join (u.byteReceived b).1, (u.byteReceived b).2) := by
  obtain ⟨hr, e⟩ | ⟨hr, hl, e⟩ | ⟨hr, hlt, ⟨hb, e⟩ | ⟨hb, h0, e⟩ | ⟨hb, h1, e⟩⟩ := u.byteReceived_cases b <;> rw [e]
  · simp [Transport.byteReceived, Transport.join, hr]
  · simp [Transport.byteReceived, Transport.join, hr, hl]
  · simp [Transport.byteReceived, Transport.join, Transport.appendCell, hr, hlt.ne, hb]
  · simp [Transport.byteReceived, Transport.join, Transport.appendCell, hr, hb, h0, (h0 ▸ hlt).ne]
  · simp [Transport.byteReceived, Transport.join, Transport.appendCell, hr, hlt.ne, hb, Nat.ne_of_gt h1]

end

/-- An operation on the transport alone: the transport it leaves, and its outcome. -/
abbrev Effect := ∀ p : TransportParams, Transport p → Transport p × Result

/-- The effect of an operation presented at port `q`. -/
def State.apply (s : State) (q : Port) (f : Effect) : State :=
  ((s.at q).setTransport (f s.tp s.transport).1).setOut (f s.tp s.transport).2

namespace Effect

/-- `ENQ b` (R110). -/
def enq (b : Byte) : Effect := fun _ t => ((t.enqueue b).1, Result.of (t.enqueue b).2)

/-- `SEND b` (R112). -/
def send (b : Byte) : Effect := fun _ t =>
  ((t.enqueue b).1.bootstrap.1, { Result.of (t.enqueue b).2 with tx := (t.enqueue b).1.bootstrap.2 })

/-- `KICK` (R111). -/
def kick : Effect := fun _ t => (t.bootstrap.1, { Result.of .ok with tx := t.bootstrap.2 })

/-- `TXRDY` (R114). -/
def txrdy : Effect := fun _ t => (t.transmitReady.1, { Result.silent with tx := t.transmitReady.2 })

/-- `RXBYTE b` (R130). -/
def rxbyte (b : Byte) : Effect := fun _ t => ((t.byteReceived b).1, { Result.silent with wake := (t.byteReceived b).2 })

/-- `POLL` (R132), where it has a meaning: a line that is ready holds two bytes or more (`perform_poll_effect`). -/
def poll : Effect := fun _ t =>
  if t.lineReady then (t.consumeLine, { Result.of .ok with line := some t.line }) else (t, Result.of .noLine)

theorem poll_none {p : TransportParams} {t : Transport p} (h : t.lineReady = false) :
    poll p t = (t, Result.of .noLine) := by simp [poll, h]

theorem poll_line {p : TransportParams} {t : Transport p} (h : t.lineReady = true) :
    poll p t = (t.consumeLine, { Result.of .ok with line := some t.line }) := by simp [poll, h]

/-- The effect reads and writes the transmit side only. -/
def TransmitSide (f : Effect) : Prop :=
  ∀ (p : TransportParams) (t u : Transport p), f p (t.join u) = ((f p t).1.join u, (f p t).2)

/-- The effect reads and writes the receive side only. -/
def ReceiveSide (g : Effect) : Prop :=
  ∀ (p : TransportParams) (t u : Transport p), g p (t.join u) = (t.join (g p u).1, (g p u).2)

theorem transmitSide_enq (b : Byte) : (enq b).TransmitSide := fun _ t u => by
  simp only [enq, t.enqueue_join u]

theorem transmitSide_send (b : Byte) : (send b).TransmitSide := fun _ t u => by
  simp only [send, t.enqueue_join u, Transport.bootstrap_join]

theorem transmitSide_kick : kick.TransmitSide := fun _ t u => by
  simp only [kick, t.bootstrap_join u]

theorem transmitSide_txrdy : txrdy.TransmitSide := fun _ t u => by
  simp only [txrdy, t.transmitReady_join u]

theorem receiveSide_rxbyte (b : Byte) : (rxbyte b).ReceiveSide := fun _ t u => by
  simp only [rxbyte, t.byteReceived_join u]

theorem receiveSide_poll : poll.ReceiveSide := fun _ t u => by
  have hjoin : (t.join u).lineReady = u.lineReady := rfl
  cases hr : u.lineReady
  · rw [poll_none (hjoin.trans hr), poll_none hr]
  · rw [poll_line (hjoin.trans hr), poll_line hr]; rfl

/-! A transmit-side and a receive-side effect, one after the other. -/

variable {f g : Effect} {p : TransportParams} (t : Transport p)

theorem TransmitSide.eq_join (hf : f.TransmitSide) : (f p t).1 = (f p t).1.join t := congrArg Prod.fst (hf p t t)

theorem ReceiveSide.eq_join (hg : g.ReceiveSide) : (g p t).1 = t.join (g p t).1 := congrArg Prod.fst (hg p t t)

theorem TransmitSide.lineReady (hf : f.TransmitSide) : (f p t).1.lineReady = t.lineReady := by
  rw [hf.eq_join t]; rfl

theorem TransmitSide.rxLen (hf : f.TransmitSide) : (f p t).1.rxLen = t.rxLen := by
  rw [hf.eq_join t]; rfl

/-- After a transmit-side effect, a receive-side one does what it does on its own. -/
theorem receive_after_transmit (hf : f.TransmitSide) (hg : g.ReceiveSide) :
    g p (f p t).1 = ((f p t).1.join (g p t).1, (g p t).2) := by
  rw [hf.eq_join t]
  exact hg p _ t

theorem transmit_after_receive (hf : f.TransmitSide) (hg : g.ReceiveSide) :
    f p (g p t).1 = ((f p t).1.join (g p t).1, (f p t).2) := by
  rw [hg.eq_join t]
  exact hf p t _

end Effect

/-- A transmit-side effect and a receive-side one, in either order: the same state, the same two outcomes. -/
theorem apply_comm {f g : Effect} (hf : f.TransmitSide) (hg : g.ReceiveSide) (s : State) (q q' : Port) :
    ((s.apply q f).apply q' g).bare = ((s.apply q' g).apply q f).bare ∧
      (s.apply q f).out = ((s.apply q' g).apply q f).out ∧ ((s.apply q f).apply q' g).out = (s.apply q' g).out := by
  have hgf := Effect.receive_after_transmit s.transport hf hg
  have hfg := Effect.transmit_after_receive s.transport hf hg
  refine ⟨?_, ?_, ?_⟩
  · have htransport : (g s.tp (f s.tp s.transport).1).1 = (f s.tp (g s.tp s.transport).1).1 := by rw [hgf, hfg]
    exact congrArg s.bare.setTransport htransport
  · show (f s.tp s.transport).2 = (f s.tp (g s.tp s.transport).1).2
    rw [hfg]
  · show (g s.tp (f s.tp s.transport).1).2 = (g s.tp s.transport).2
    rw [hgf]

theorem perform_poll_effect (s : State) (h : s.transport.lineReady = true → 2 ≤ s.transport.rxLen.val) :
    s.perform .M .poll = .next (s.apply .M Effect.poll) := by
  cases hr : s.transport.lineReady
  · rw [perform_poll_none s hr, State.apply, Effect.poll_none hr]; rfl
  · rw [perform_poll_line s hr (h hr), State.apply, Effect.poll_line hr]

/-- Settles O39: each operation is an effect on its own side of the transport, and such effects commute; the transmit-side
one leaves the line as it is, so `POLL` has its meaning in both orders. -/
theorem transmitAndReceiveCommute : Obligations.TransmitAndReceiveCommute := by
  intro s l k hl hk hline
  have transmit : ∃ f : Effect, f.TransmitSide ∧ ∀ u : State, u.perform l.port l.op = .next (u.apply l.port f) := by
    obtain rfl | rfl | ⟨b, rfl⟩ | ⟨b, rfl⟩ := hl
    · exact ⟨_, Effect.transmitSide_txrdy, perform_txrdy⟩
    · exact ⟨_, Effect.transmitSide_kick, perform_kick⟩
    · exact ⟨_, Effect.transmitSide_enq b, fun u => perform_enq u b⟩
    · exact ⟨_, Effect.transmitSide_send b, fun u => perform_send u b⟩
  have receive : ∃ g : Effect, g.ReceiveSide ∧ ∀ u : State,
      (u.transport.lineReady = true → 2 ≤ u.transport.rxLen.val) →
        u.perform k.port k.op = .next (u.apply k.port g) := by
    obtain rfl | ⟨b, rfl⟩ := hk
    · exact ⟨_, Effect.receiveSide_poll, perform_poll_effect⟩
    · exact ⟨_, Effect.receiveSide_rxbyte b, fun u _ => perform_rxbyte u b⟩
  obtain ⟨f, hf, hfl⟩ := transmit
  obtain ⟨g, hg, hgk⟩ := receive
  have hline' : (f s.tp s.transport).1.lineReady = true → 2 ≤ (f s.tp s.transport).1.rxLen.val := by
    rw [hf.lineReady, hf.rxLen]; exact hline
  exact ⟨_, _, _, _, hfl s, hgk (s.apply l.port f) hline', hgk s hline, hfl _, apply_comm hf hg s l.port k.port⟩

end Sys2Proof.Machine
end

section
/-! PROOFS. The statements of `30_encoding.md`: an operation and its word determine each other (R80 to R83), reserved
words and misplaced operations (R85, R152), the word presented next (R86, R87), `SEND` by its two parts (R88) and the
response word (R84). What the decoder can answer is said once, as `decode_eq_some_iff`; what an operation returns is said
once, as `exec_returns`. -/

namespace Sys2Proof

/-! ### An operation and its word (`30_encoding.md` R80 to R82) -/

/-- An operation's fields select its own row of R81, and no row before it. -/
@[simp] theorem decode_encode (i : Instr) : decode (encode i) = some i := by
  rw [encode_eq_of, decode_of]
  cases i <;> simp [Instr.opcode, Instr.operand]

/-- The row a word selects holds the word's own fields. -/
theorem fields_of_decode {o : BitVec 4} {b : Byte} {i : Instr} (h : decode (Cmd.of o b) = some i) :
    i.opcode = o ∧ i.operand = b := by
  rw [decode_of] at h
  split_ifs at h with h0 h1 h2 h3 h4 h5 h8 h9 hD hF <;> cases h
  · exact ⟨h0.1.symm, h0.2.symm⟩
  · exact ⟨h1.symm, rfl⟩
  · exact ⟨h2.symm, rfl⟩
  · exact ⟨h3.1.symm, h3.2.symm⟩
  · exact ⟨h4.1.symm, h4.2.symm⟩
  · exact ⟨h5.symm, rfl⟩
  · exact ⟨h8.1.symm, h8.2.symm⟩
  · exact ⟨h9.symm, rfl⟩
  · exact ⟨hD.1.symm, hD.2.symm⟩
  · exact ⟨hF.1.symm, hF.2.symm⟩

theorem encode_of_decode {w : Cmd} {i : Instr} (h : decode w = some i) : encode i = w := by
  rw [← Cmd.of_op_data w] at h
  obtain ⟨ho, hb⟩ := fields_of_decode h
  rw [encode_eq_of, ho, hb, Cmd.of_op_data]

theorem decode_eq_some_iff (w : Cmd) (i : Instr) : decode w = some i ↔ encode i = w :=
  ⟨encode_of_decode, fun h => h ▸ decode_encode i⟩

/-- Settles O3: the rows are disjoint, and a word is its two fields. -/
theorem decodeAndEncodeAgree : Obligations.DecodeAndEncodeAgree := ⟨decode_encode, fun _ _ => encode_of_decode⟩

/-- Settles O2: each word written out is the encoding of its operation. -/
theorem wordsWrittenOutDecode : Obligations.WordsWrittenOutDecode :=
  ⟨decode_encode .nop, decode_encode (.send 0x41), decode_encode (.enq 0xFF), decode_encode .kick, decode_encode .poll,
    decode_encode (.put 0xA5), decode_encode .txrdy, decode_encode (.rxbyte 0x0D), decode_encode .get,
    decode_encode .reset⟩

/-! ### The operation map (`30_encoding.md` R81) -/

/-- A row without an operand: the whole word is compared. -/
theorem decode_iff_word (w : Cmd) (i : Instr) : decode w = some i ↔ w &&& 0xFFF = encode i := by
  have hmask : w &&& 0xFFF = w := BitVec.and_allOnes
  rw [decode_eq_some_iff, hmask, eq_comm]

/-- A row with an operand: the mask keeps the code, and the operand is what it leaves out. -/
theorem decode_iff_code (w : Cmd) {i : Instr} (o : BitVec 4) (ho : i.opcode = o) :
    decode w = some i ↔ w &&& 0xF00 = Cmd.of o 0 ∧ i.operand = w.setWidth 8 := by
  subst ho
  have hcode : w &&& 0xF00 = Cmd.of i.opcode 0 ↔ w.op = i.opcode := by
    have hrow := selects_op w.op i.opcode w.data
    rw [Cmd.of_op_data] at hrow
    rw [← beq_iff_eq (a := w.op), ← hrow, Cmd.selects, beq_iff_eq]
  have hdata : w.setWidth 8 = w.data := BitVec.setWidth_eq_extractLsb' (by decide)
  rw [hcode, hdata, decode_eq_some_iff, encode_eq_of]
  constructor
  · rintro rfl; exact ⟨Cmd.op_of _ _, (Cmd.data_of _ _).symm⟩
  · rintro ⟨ho, hb⟩; rw [← ho, hb, Cmd.of_op_data]

/-- Settles O1: a row compares the whole word or the code alone; the ports are the model's laws of `accepts`. -/
theorem operationMapIsTheTable : Obligations.OperationMapIsTheTable := by
  refine ⟨fun w => ?_, fun q b => ?_⟩
  · exact ⟨decode_iff_word w .nop, fun _ => decode_iff_code w 0x1 rfl, fun _ => decode_iff_code w 0x2 rfl,
      decode_iff_word w .kick, decode_iff_word w .poll, fun _ => decode_iff_code w 0x5 rfl, decode_iff_word w .txrdy,
      fun _ => decode_iff_code w 0x9 rfl, decode_iff_word w .get, decode_iff_word w .reset⟩
  · simp [Machine.accepts_nop, Machine.accepts_send, Machine.accepts_enq, Machine.accepts_kick, Machine.accepts_poll,
      Machine.accepts_put, Machine.accepts_txrdy, Machine.accepts_rxbyte, Machine.accepts_get, Machine.accepts_reset]

/-! ### The context bit (`30_encoding.md` R83) -/

/-- The context bit is the top bit of the code, and R81 sets that for the interrupt and consumer ports. -/
theorem ctx_encode {i : Instr} (h : i ≠ .reset) : (encode i).ctx = (Port.I.accepts i || Port.C.accepts i) := by
  rw [encode_eq_of, Laws.Fields.ctx_of]
  cases i with
  | reset => exact absurd rfl h
  | nop | send | enq | kick | poll | put | txrdy | rxbyte | get => simp only [Instr.opcode]; rfl

/-- `RESET` apart, an operation belongs to one of the two pairs of ports. -/
theorem accepts_mainline_or_producer {i : Instr} (h : i ≠ .reset) :
    (Port.M.accepts i || Port.P.accepts i) = !(Port.I.accepts i || Port.C.accepts i) := by
  cases i with
  | reset => exact absurd rfl h
  | nop | send | enq | kick | poll | put | txrdy | rxbyte | get => rfl

/-- Settles O4: the top bit of the code tells the two pairs of ports apart. -/
theorem contextBitIsTheIssuer : Obligations.ContextBitIsTheIssuer := by
  intro i hi
  have hctx : (encode i).getLsbD 11 = (Port.I.accepts i || Port.C.accepts i) := ctx_encode hi
  rw [hctx, ← Bool.or_eq_true, ← Bool.or_eq_true, accepts_mainline_or_producer hi, Bool.not_eq_true']
  exact ⟨Iff.rfl, Iff.rfl⟩

/-! ### Reserved words (`30_encoding.md` R85) -/

theorem ite_some_eq_none_iff {α : Type} (c : Prop) [Decidable c] (x : α) (y : Option α) :
    (if c then some x else y) = none ↔ ¬ c ∧ y = none := by simp [ite_eq_iff]

/-- A word is reserved by a code without a row, or by a data field where its row has no operand. -/
theorem decode_of_eq_none_iff (o : BitVec 4) (b : Byte) : decode (Cmd.of o b) = none ↔
    o ∈ [0x6#4, 0x7#4, 0xA#4, 0xB#4, 0xC#4, 0xE#4] ∨
      (o ∈ [0x0#4, 0x3#4, 0x4#4, 0x8#4, 0xD#4, 0xF#4] ∧ b ≠ 0x00#8) := by
  simp only [decode_of, ite_some_eq_none_iff, and_true]
  by_cases hb : b = 0#8
  · subst hb; revert o; decide
  · simp only [BitVec.ofNat_eq_ofNat, hb, and_false, not_false_eq_true, true_and, ne_eq, and_true]
    revert o; decide

end Sys2Proof

namespace Sys2Proof.Machine

/-! ### Reserved words and misplaced operations answer `ILLEGAL` (`43_system.md` R152) -/

theorem State.illegal_out (s : State) : s.illegal.out =
    { status := if s.port = .I then none else some .illegal, data := none, line := none, tx := none,
      wake := false } := by
  simp only [State.illegal, setOut_out]
  cases s.port <;> rfl

/-- Settles O5: the rows of the table leave out just these words; `illegal` writes the outcome only, and a step adds the
port and the agents. -/
theorem reservedAndMisplacedAreIllegal : Obligations.ReservedAndMisplacedAreIllegal := by
  refine ⟨fun w => ?_, fun i s hport => ?_, fun s q w hserved hstanding hdecode => ?_⟩
  · have hreserved := decode_of_eq_none_iff w.op w.data
    rw [Cmd.of_op_data] at hreserved
    exact hreserved
  · exact ⟨s.illegal, exec_not_accepted i s hport, rfl, s.illegal_out⟩
  · exact ⟨_, step_reserved s hserved hstanding hdecode, rfl, (s.take q).illegal_out⟩

/-! ### A step that finds no request (`30_encoding.md` R86) -/

/-- Whichever turn is used up, the step is quiet and no byte enters or leaves flight. -/
theorem step_quiet {s : State} (h : ∀ q, s.served = some q → s.standing q = none) :
    ∃ a, step s = .next (s.quietStep a) ∧ a.inflight = s.agents.inflight := by
  cases hserved : s.served with
  | none => exact ⟨_, step_idle s hserved, rfl⟩
  | some q =>
    rw [step_turn s hserved (h q hserved)]
    obtain ⟨-, -, -, hwait⟩ | hidle := agentTurn_cases s q
    · exact ⟨_, congrArg _ hwait, useTurn_inflight s⟩
    · exact ⟨_, congrArg _ hidle, useTurn_inflight s⟩

/-- Settles O9: a quiet step writes the silent outcome and the agents. -/
theorem stepWithoutRequestIsQuiet : Obligations.StepWithoutRequestIsQuiet := by
  intro s h
  obtain ⟨a, hstep, hinflight⟩ := step_quiet h
  exact ⟨_, hstep, quietStep_eq s a, rfl, hinflight⟩

/-! ### A word presented from outside (`30_encoding.md` R86, R87) -/

/-- The state in which the word `w` was offered at port `p`. -/
def State.offered (s : State) (p : Port) (w : Cmd) : State := { s with agents := s.agents.offer p w }

theorem withFetchWord_encode (s : State) (i : Instr) :
    s.withFetchWord 16 (encode i).toNat = s.offered i.homePort (encode i) := by
  have hlow : (encode i).toNat % 2 ^ 16 = (encode i).toNat := Nat.mod_eq_of_lt (by have := (encode i).isLt; omega)
  have hword : BitVec.ofNat 12 ((encode i).toNat % 2 ^ 16) = encode i := by
    rw [hlow, BitVec.ofNat_toNat, BitVec.setWidth_eq]
  have hhome : Cmd.homePort (encode i) = i.homePort := by simp [Cmd.homePort]
  rw [State.withFetchWord, hword, hhome]
  rfl

/-- At its port the offered word stands first, and the mainline is runnable. -/
theorem offered_standing (s : State) (p : Port) (w : Cmd) : (s.offered p w).standing p = some w := by
  cases p with
  | M => simp [State.offered, State.standing, State.mainWord, State.blocked, Agents.offer, MainStep.word?]
  | I | P | C => rfl

theorem head?_dropWhile_false {α : Type} {p : α → Bool} {l : List α} {a : α} (h : (l.dropWhile p).head? = some a) :
    p a = false := by
  simpa [h] using l.head?_dropWhile_not p

/-- What stands at port M is the word of the mainline's first step. -/
theorem head?_of_mainWord {s : State} {w : Cmd} (h : s.mainWord = some w) :
    s.agents.main.head?.bind MainStep.word? = some w := by
  unfold State.mainWord at h
  split at h
  · cases h
  · rename_i v hv
    split at h
    · cases h
    · exact hv.trans h

theorem head?_dropWhile_reset (ws : List Cmd) : (ws.dropWhile fun v => v == resetWord).head? ≠ some resetWord :=
  fun h => by simpa using head?_dropWhile_false h

section
variable (s : State) (p : Port) (w : Cmd)

theorem offered_main : (s.offered p w).agents.main =
    (if p = .M then [.command w] else []) ++ s.agents.main.dropWhile fun m => m.word? == some resetWord := by
  cases p <;> rfl

theorem offered_irq : (s.offered p w).agents.irq =
    (if p = .I then [w] else []) ++ s.agents.irq.dropWhile fun v => v == resetWord := by cases p <;> rfl

theorem offered_prod : (s.offered p w).agents.prod =
    (if p = .P then [w] else []) ++ s.agents.prod.dropWhile fun v => v == resetWord := by cases p <;> rfl

theorem offered_cons : (s.offered p w).agents.cons =
    (if p = .C then [w] else []) ++ s.agents.cons.dropWhile fun v => v == resetWord := by cases p <;> rfl

theorem offered_grants : (s.offered p w).agents.grants =
    if w == resetWord then s.agents.grants else p :: s.agents.grants := by cases p <;> rfl

end

/-- Elsewhere the offer leaves no `RESET` standing. -/
theorem offered_standing_ne_reset (s : State) {p q : Port} (w : Cmd) (hq : p ≠ q) :
    (s.offered p w).standing q ≠ some resetWord := by
  cases q with
  | M =>
    intro h
    have hfirst := head?_of_mainWord h
    rw [offered_main, if_neg hq, List.nil_append, Option.bind_eq_some_iff] at hfirst
    obtain ⟨m, hm, hword⟩ := hfirst
    simpa [hword] using head?_dropWhile_false hm
  | I => rw [State.standing, offered_irq, if_neg hq]; exact head?_dropWhile_reset _
  | P => rw [State.standing, offered_prod, if_neg hq]; exact head?_dropWhile_reset _
  | C => rw [State.standing, offered_cons, if_neg hq]; exact head?_dropWhile_reset _

/-- Every port is in the list in which `resetPort` looks for a `RESET`. -/
theorem find?_ports (p : Port) (c : Bool) :
    ([Port.M, .I, .P, .C].find? fun q => q == p && c) = if c then some p else none := by
  cases p <;> cases c <;> rfl

theorem offered_resetPort (s : State) (p : Port) (w : Cmd) :
    (s.offered p w).resetPort = if w == resetWord then some p else none := by
  have hreset : ∀ q, ((s.offered p w).standing q == some resetWord) = (q == p && w == resetWord) := by
    intro q
    by_cases hq : q = p
    · subst hq; simp [offered_standing]
    · have hother := offered_standing_ne_reset s w (Ne.symm hq)
      rw [beq_eq_false_iff_ne.mpr hq, beq_eq_false_iff_ne.mpr hother, Bool.false_and]
  simp only [State.resetPort, hreset, find?_ports]

/-- The offered word's port is served next: by the precedence of `RESET`, or by the turn the offer gives it. -/
theorem offered_served (s : State) (p : Port) (w : Cmd) : (s.offered p w).served = some p := by
  rw [State.served, offered_resetPort, offered_grants]
  cases w == resetWord <;> rfl

/-- Settles O7: the offered word stands at its home port, and that port is served. -/
theorem presentedWordRunsNext : Obligations.PresentedWordRunsNext := by
  intro s i
  have hserved := offered_served s i.homePort (encode i)
  have hstanding := offered_standing s i.homePort (encode i)
  have hdecode := decode_encode i
  rw [withFetchWord_encode]
  exact ⟨rfl, nextOp_of _ hserved hstanding hdecode, step_taken _ hserved hstanding hdecode⟩

/-! ### `SEND` by its two parts (`30_encoding.md` R88) -/

/-- Settles O37: `SEND` is the enqueue step, then the bootstrap step; `ENQ` and `KICK` are one each. -/
theorem sendIsEnqThenKick : Obligations.SendIsEnqThenKick := fun s b =>
  ⟨_, _, _, perform_send s b, perform_enq s b, perform_kick _, rfl, rfl, rfl⟩

/-! ### The response word (`30_encoding.md` R84) -/

theorem Status.code_inj {a b : Status} : a.code = b.code ↔ a = b := by
  cases a <;> cases b <;> decide

theorem Status.code_mem (a : Status) : a.code ∈ [0#3, 1#3, 2#3, 3#3, 7#3] := by cases a <;> decide

theorem Result.response_of_status {r : Result} {st : Status} (h : r.status = some st) :
    r.response = some (st.code ++ r.data.getD 0x00) := by rw [Result.response, h]; rfl

/-- The length of a line fits in `LW` bits (`00_scope.md` R7). -/
theorem Result.lineLen_of_line {r : Result} {bs : List Byte} {p : TransportParams} (h : r.line = some bs)
    (hlen : bs.length ≤ p.l) : ∃ n, r.lineLen p = some n ∧ n.toNat = bs.length := by
  have hfits : bs.length < 2 ^ p.lw := hlen.trans_lt Nat.lt_log2_self
  exact ⟨_, by rw [Result.lineLen, h]; rfl, by rw [BitVec.toNat_ofNat, Nat.mod_eq_of_lt hfits]⟩

/-- What an operation `i` of state `s` returns: a status where the port responds, a byte by a successful `GET` alone, a
line by a `POLL` alone. -/
inductive Returns (i : Instr) (s : State) (r : Result) : Prop where
  | statusOnly (hport : r.status = none ↔ s.port = .I) (hget : i = .get → r.status ≠ some .ok)
      (hdata : r.data = none) (hline : r.line = none)
  | byte (hi : i = .get) (hport : s.port = .C) (hst : r.status = some .ok)
      (hdata : r.data = some (s.readRing (cellOf s.standalone.tail))) (hline : r.line = none)
  | line (hi : i = .poll) (hport : s.port = .M) (hst : r.status = some .ok) (hdata : r.data = none)
      (hlen : 2 ≤ s.transport.rxLen.val) (hline : r.line = some s.transport.line)

/-- A status and nothing else, at a port that responds. -/
theorem Returns.of_status {i : Instr} {s : State} {r : Result} {st : Status} (hst : r.status = some st)
    (hport : s.port ≠ .I) (hget : i = .get → st ≠ .ok) (hdata : r.data = none) (hline : r.line = none) :
    Returns i s r := by
  refine .statusOnly ?_ (fun hi => ?_) hdata hline
  · simp [hst, hport]
  · simp [hst, hget hi]

/-- Nothing, at the interrupt port. -/
theorem Returns.of_silent {i : Instr} {s : State} {r : Result} (hst : r.status = none) (hport : s.port = .I)
    (hdata : r.data = none) (hline : r.line = none) : Returns i s r :=
  .statusOnly (by simp [hst, hport]) (by simp [hst]) hdata hline

theorem exec_returns {i : Instr} {s t : State} (h : exec i s = .next t) : Returns i s t.out := by
  rcases exec_cases h with ⟨_, rfl⟩ | ⟨rfl, hq, rfl⟩ | ⟨b, rfl, hq, rfl⟩ | ⟨b, rfl, hq, rfl⟩ | ⟨rfl, hq, rfl⟩ |
    ⟨rfl, hq, _, rfl⟩ | ⟨rfl, hq, _, hlen, rfl⟩ | ⟨b, rfl, hq, rfl⟩ | ⟨rfl, hq, rfl⟩ | ⟨b, rfl, hq, rfl⟩ |
    ⟨rfl, hq, _, rfl⟩ | ⟨rfl, hq, _, rfl⟩ | ⟨rfl, hq, rfl⟩ | ⟨rfl, hq, rfl⟩ | ⟨rfl, hq, rfl⟩
  · rw [s.illegal_out]
    by_cases hI : s.port = .I
    · exact .of_silent (if_pos hI) hI rfl rfl
    · exact .of_status (if_neg hI) hI (by simp) rfl rfl
  · exact .of_status rfl (by obtain hq | hq := hq <;> simp [hq]) (by simp) rfl rfl
  · exact .of_status rfl (by simp [hq]) (by simp) rfl rfl
  · exact .of_status rfl (by simp [hq]) (by simp) rfl rfl
  · exact .of_status rfl (by simp [hq]) (by simp) rfl rfl
  · exact .of_status rfl (by simp [hq]) (by simp) rfl rfl
  · exact .line rfl hq rfl rfl hlen rfl
  · exact .of_status rfl (by simp [hq]) (by simp) rfl rfl
  · exact .of_silent rfl hq rfl rfl
  · exact .of_silent rfl hq rfl rfl
  · exact .of_status rfl (by simp [hq]) (by simp) rfl rfl
  · exact .byte rfl hq rfl rfl rfl
  · exact .of_status rfl (by simp [hq]) (by simp) rfl rfl
  · exact .of_silent rfl hq rfl rfl
  · exact .of_status rfl (by obtain hq | hq := hq <;> simp [hq]) (by simp) rfl rfl

section
variable {i : Instr} {s : State} {r : Result}

theorem Returns.status_none_iff (h : Returns i s r) : r.status = none ↔ s.port = .I := by
  cases h with
  | statusOnly hport => exact hport
  | byte _ hport hst => simp [hport, hst]
  | line _ hport hst => simp [hport, hst]

theorem Returns.data_of_get (h : Returns i s r) (hi : i = .get) (hst : r.status = some .ok) :
    r.data = some (s.readRing (cellOf s.standalone.tail)) := by
  cases h with
  | statusOnly _ hget => exact absurd hst (hget hi)
  | byte _ _ _ hdata => exact hdata
  | line hpoll => cases hi.symm.trans hpoll

theorem Returns.data_none (h : Returns i s r) (hne : i ≠ .get ∨ r.status ≠ some .ok) : r.data = none := by
  cases h with
  | statusOnly _ _ hdata => exact hdata
  | byte hi _ hst => obtain hne | hne := hne <;> contradiction
  | line _ _ _ hdata => exact hdata

theorem Returns.line_some (h : Returns i s r) {bs : List Byte} (hbs : r.line = some bs) :
    i = .poll ∧ s.port = .M ∧ 2 ≤ s.transport.rxLen.val ∧ bs = s.transport.line := by
  cases h with
  | statusOnly _ _ _ hline => cases hline.symm.trans hbs
  | byte _ _ _ _ hline => cases hline.symm.trans hbs
  | line hi hport _ _ hlen hline => exact ⟨hi, hport, hlen, Option.some.inj (hbs.symm.trans hline)⟩

end

/-- Settles O33: what `exec` returns, with the codes, which tell the statuses apart; `rxLen` is at most `L`. -/
theorem responseWordIsStatusAndData : Obligations.ResponseWordIsStatusAndData := by
  intro i s t h
  have hret := exec_returns h
  refine ⟨fun hI => ?_, fun hI => ?_, fun bs hbs => ?_⟩
  · rw [Result.response, hret.status_none_iff.mpr hI]; rfl
  · obtain ⟨st, hst⟩ := Option.ne_none_iff_exists'.mp (mt hret.status_none_iff.mp hI)
    have hcode : ∀ a : Status, st.code = a.code ↔ t.out.status = some a := by simp [Status.code_inj, hst]
    refine ⟨st.code, t.out.data.getD 0x00, Result.response_of_status hst, st.code_mem,
      ⟨hcode .ok, hcode .overflow, hcode .empty, hcode .noLine, hcode .illegal⟩, ?_, ?_⟩
    · rintro ⟨hi, hok⟩
      rw [hret.data_of_get hi ((hcode .ok).mp hok)]; rfl
    · intro hne
      rw [hret.data_none (hne.imp_right (mt (hcode .ok).mpr))]; rfl
  · obtain ⟨hi, hport, hlen, rfl⟩ := hret.line_some hbs
    have hlength := s.transport.line_length
    have hrange := s.transport.rxLen.isLt
    exact ⟨hi, hport, hlength, by omega, by omega, Result.lineLen_of_line hbs (by omega)⟩

end Sys2Proof.Machine
end

section
/-! PROOFS. The statements of `40_ringbuffer.md`: what `PUT` and `GET` do and leave alone (R100, R101), that they commute
where both succeed (R102), the FIFO law and the round trip (R103), and the arithmetic of the counters (R104). What each of
the two answers is said once, as an equation per outcome and as `exec_put_cases` and `exec_get_cases`; the FIFO law is the
flow through the ring, composed over a run, and the round trip is a case of it. -/

namespace Sys2Proof

/-- A word is the code of its row, with the operand in its low byte. -/
theorem decode_code_or_operand (i : Instr) : decode (Cmd.of i.opcode 0 ||| i.operand.setWidth 12) = some i := by
  have hword : encode i = Cmd.of i.opcode 0 ||| i.operand.setWidth 12 := by
    rw [encode_eq_of]
    refine BitVec.eq_of_getLsbD_eq fun k hk => ?_
    simp only [Cmd.of, BitVec.getLsbD_or, BitVec.getLsbD_append, BitVec.getLsbD_setWidth]
    by_cases h8 : k < 8
    · simp [h8, hk]
    · simp [h8, hk, BitVec.getLsbD_of_ge i.operand k (by omega)]
  exact (decode_eq_some_iff _ _).mpr hword

end Sys2Proof

namespace Sys2Proof.Machine

/-! ### The counters (`40_ringbuffer.md` R104) -/

theorem toNat_add_one {p : RingParams} (c : BitVec p.cw) :
    (c + 1).toNat = if c.toNat = 2 ^ p.cw - 1 then 0 else c.toNat + 1 := by
  have hlt := c.isLt
  rw [BitVec.toNat_add, toNat_one_cw]
  split
  case isTrue hmax => rw [show c.toNat + 1 = 2 ^ p.cw by omega, Nat.mod_self]
  case isFalse hmax => exact Nat.mod_eq_of_lt (by omega)

theorem cellOf_add_one {p : RingParams} (c : BitVec p.cw) : cellOf (c + 1) = (cellOf c + 1) % p.cap := by
  rw [cellOf_eq_mod c, Nat.mod_add_mod]
  exact cellOf_add c 1

/-- Settles O13: the counter wraps at `2^CW`, and `CAP` divides `2^CW`, so the cell index does not notice (`cellOf_add`). -/
theorem cellIndexGoesRound : Obligations.CellIndexGoesRound := fun _ c => ⟨toNat_add_one c, cellOf_add_one c⟩

/-! ### What `PUT` and `GET` answer (R100, R101) -/

section
variable {s : State} {b : Byte}

theorem exec_put_full (hq : s.port = .P) (hf : s.standalone.isFull = true) :
    exec (.put b) s = .next (s.respond .overflow) := by
  rw [exec, execPut, accepting_yes _ _ _ (by rw [hq]; rfl), Ring.put_full _ _ hf]
  rfl

theorem exec_put_room (hq : s.port = .P) (hf : s.standalone.isFull = false) :
    exec (.put b) s = .next ((s.setStandalone { s.standalone with
      tx := s.standalone.tx.write s.standalone.putCell b, head := s.standalone.head + 1 }).respond .ok) := by
  rw [exec, execPut, accepting_yes _ _ _ (by rw [hq]; rfl), Ring.put_room _ _ hf]

theorem exec_get_empty (hq : s.port = .C) (he : s.standalone.isEmpty = true) :
    exec .get s = .next (s.respond .empty) := by
  rw [exec, execGet, accepting_yes _ _ _ (by rw [hq]; rfl), Ring.get_empty _ he]

theorem exec_get_some (hq : s.port = .C) (he : s.standalone.isEmpty = false) :
    exec .get s = .next ((s.setStandalone { s.standalone with tail := s.standalone.tail + 1 }).setOut
      { Result.of .ok with data := some (s.standalone.tx.read s.standalone.getCell) }) := by
  rw [exec, execGet, accepting_yes _ _ _ (by rw [hq]; rfl), Ring.get_some _ he]

variable {t : State}

/-- Everything `PUT` can answer. -/
theorem exec_put_cases (h : exec (.put b) s = .next t) :
    (s.port ≠ .P ∧ t = s.illegal) ∨
    (s.port = .P ∧ s.standalone.isFull = true ∧ t = s.respond .overflow) ∨
    (s.port = .P ∧ s.standalone.isFull = false ∧ t = (s.setStandalone { s.standalone with
      tx := s.standalone.tx.write s.standalone.putCell b, head := s.standalone.head + 1 }).respond .ok) := by
  by_cases hq : s.port = .P
  · cases hf : s.standalone.isFull
    · rw [exec_put_room hq hf] at h
      cases h; exact .inr (.inr ⟨hq, rfl, rfl⟩)
    · rw [exec_put_full hq hf] at h
      cases h; exact .inr (.inl ⟨hq, rfl, rfl⟩)
  · rw [exec_not_accepted _ _ (by simp [accepts_put, hq])] at h
    cases h; exact .inl ⟨hq, rfl⟩

/-- Everything `GET` can answer. -/
theorem exec_get_cases (h : exec .get s = .next t) :
    (s.port ≠ .C ∧ t = s.illegal) ∨
    (s.port = .C ∧ s.standalone.isEmpty = true ∧ t = s.respond .empty) ∨
    (s.port = .C ∧ s.standalone.isEmpty = false ∧
      t = (s.setStandalone { s.standalone with tail := s.standalone.tail + 1 }).setOut
        { Result.of .ok with data := some (s.standalone.tx.read s.standalone.getCell) }) := by
  by_cases hq : s.port = .C
  · cases he : s.standalone.isEmpty
    · rw [exec_get_some hq he] at h
      cases h; exact .inr (.inr ⟨hq, rfl, rfl⟩)
    · rw [exec_get_empty hq he] at h
      cases h; exact .inr (.inl ⟨hq, rfl, rfl⟩)
  · rw [exec_not_accepted _ _ (by simp [accepts_get, hq])] at h
    cases h; exact .inl ⟨hq, rfl⟩

end

/-- Settles O18: the full ring and the ring with room; read after write gives the cells. -/
theorem putStoresOrOverflows : Obligations.PutStoresOrOverflows := by
  refine ⟨fun b => ?_, fun s b hq => ⟨fun hfull => ?_, fun hroom => ?_⟩⟩
  · have hcode : Cmd.of 0x5 0 = 0x500 := rfl
    exact hcode ▸ decode_code_or_operand (.put b)
  · exact exec_put_full hq (beq_iff_eq.mpr hfull)
  · exact ⟨_, _, rfl, exec_put_room hq (beq_eq_false_iff_ne.mpr hroom), fun j => CellMem.read_write _ _ j b⟩

theorem Ring.getCell_eq {p : RingParams} (r : Ring p) : r.getCell = cellOf (r.tail + BitVec.ofNat p.cw 0) := by
  simp [Ring.getCell]

/-- Under the invariant, the cell the next successful `GET` reads was written (R101 corner (d), `20_memory.md` R58). -/
theorem Ring.written_getCell {p : RingParams} {r : Ring p} (h : r.Inv) (he : r.isEmpty = false) :
    r.tx.written r.getCell = true := by
  have hocc : r.occ.toNat ≠ 0 := mt r.isEmpty_iff.mpr (by simp [he])
  rw [r.getCell_eq]
  exact h.liveTx 0 (Nat.pos_of_ne_zero hocc)

/-- Settles O19: the empty ring and the ring with a byte, whose cell is the first of the live ones. -/
theorem getReturnsOrIsEmpty : Obligations.GetReturnsOrIsEmpty := by
  refine ⟨decode_encode .get, fun s hq => ⟨fun hempty => ?_, fun hne => ?_, fun hinv hne => ?_⟩⟩
  · exact exec_get_empty hq (beq_iff_eq.mpr hempty)
  · exact exec_get_some hq (beq_eq_false_iff_ne.mpr hne)
  · exact Ring.written_getCell hinv (beq_eq_false_iff_ne.mpr hne)

/-- Settles O27: of the answers of `PUT` and `GET`, only a `PUT` with room writes a cell. -/
theorem ringOperationsFrame : Obligations.RingOperationsFrame := by
  rintro i s t (rfl | ⟨b, rfl⟩) h
  · obtain ⟨-, rfl⟩ | ⟨-, -, rfl⟩ | ⟨-, -, rfl⟩ := exec_get_cases h <;>
      exact ⟨⟨_, rfl⟩, nofun, fun _ => ⟨rfl, fun _ => rfl⟩⟩
  · obtain ⟨hq, rfl⟩ | ⟨hq, hf, rfl⟩ | ⟨hq, hf, rfl⟩ := exec_put_cases h
    · exact ⟨⟨_, rfl⟩, fun _ => ⟨rfl, fun hP => absurd hP hq, fun _ => ⟨rfl, fun _ => rfl⟩⟩, nofun⟩
    · exact ⟨⟨_, rfl⟩, fun _ => ⟨rfl, fun _ _ _ _ => rfl, fun _ => ⟨rfl, fun _ => rfl⟩⟩, nofun⟩
    · refine ⟨⟨_, rfl⟩, fun _ => ⟨rfl, fun _ _ j hj => CellMem.read_write_other _ b hj, fun hno => ?_⟩, nofun⟩
      obtain hP | hfull := hno
      · exact absurd hq hP
      · exact absurd (hf.symm.trans hfull) (by decide)

/-! ### A `PUT` and a `GET` that both succeed (R102) -/

section
variable {p : RingParams} (r : Ring p)

theorem Ring.occ_put (b : Byte) (hf : r.isFull = false) (hb : r.occ.toNat ≤ p.cap) :
    (r.put b).1.occ.toNat = r.occ.toNat + 1 := by
  rw [r.put_room b hf]
  exact occ_succ_head r.head r.tail (r.occ_lt_of_room hf hb)

theorem Ring.isEmpty_put (b : Byte) (hf : r.isFull = false) (hb : r.occ.toNat ≤ p.cap) :
    (r.put b).1.isEmpty = false := by
  have hocc := r.occ_put b hf hb
  rw [← Bool.not_eq_true, Ring.isEmpty_iff]
  omega

theorem Ring.isFull_after_get (he : r.isEmpty = false) (hb : r.occ.toNat ≤ p.cap) :
    Ring.isFull { r with tail := r.tail + 1 } = false := by
  have hocc := r.occ_after_get he
  rw [← Bool.not_eq_true, Ring.isFull_iff]
  omega

/-- The two ends of a ring share a cell only when it is empty or full. -/
theorem Ring.getCell_ne_putCell (hf : r.isFull = false) (he : r.isEmpty = false) (hb : r.occ.toNat ≤ p.cap) :
    r.getCell ≠ r.putCell := by
  have hpos : r.occ.toNat ≠ 0 := mt r.isEmpty_iff.mpr (by simp [he])
  intro hsame
  rw [r.getCell_eq, r.putCell_eq] at hsame
  exact hpos (cellOf_add_inj r.tail (cap_pos p) (r.occ_lt_of_room hf hb) hsame).symm

end

/-- Settles O38: each leaves the other able to succeed, and the byte read is not in the cell written. -/
theorem putAndGetCommute : Obligations.PutAndGetCommute := by
  intro s b hb hf he
  have heAfter := s.standalone.isEmpty_put b hf hb
  have hfAfter := s.standalone.isFull_after_get he hb
  rw [s.standalone.put_room b hf] at heAfter
  have hbyte := CellMem.read_write_other s.standalone.tx b (s.standalone.getCell_ne_putCell hf he hb)
  refine ⟨_, _, _, _, exec_put_room rfl hf, exec_get_some rfl heAfter, exec_get_some rfl he, exec_put_room rfl hfAfter,
    rfl, rfl, ?_⟩
  exact congrArg (fun v => { Result.of .ok with data := some v }) hbyte

/-! ### The FIFO law (R103) -/

theorem Event.put?_eq_none_of_status {e : Event} (h : e.out.status ≠ some .ok) : e.put? = none := by
  simp only [Event.put?, h, if_false]
  split <;> rfl

theorem Event.put?_eq_none_of_op {e : Event} (h : ∀ b, e.op ≠ .put b) : e.put? = none := by
  unfold Event.put?
  split
  next b hop => exact absurd hop (h b)
  next => rfl

/-- No operation but `PUT` and `GET` moves a ring that is not reset. -/
theorem Ring.Move.eq_of_other {p : RingParams} {r r' : Ring p} {i : Instr} {q : Port} (h : r.Move i q r')
    (hput : ∀ b, i ≠ .put b) (hget : i ≠ .get) (hr : i = .reset → q = .M ∨ q = .I) : r' = r := by
  cases h with
  | stay => rfl
  | put b => exact absurd rfl (hput b)
  | get => exact absurd rfl hget
  | reset _ hq => exact absurd (hr rfl) (by obtain rfl | rfl := hq <;> decide)

section
variable {s t : State} (hb : s.standalone.occ.toNat ≤ s.rp.cap)
include hb

/-- `PUT` takes its byte exactly when it answers `OK`, and returns none. -/
theorem exec_put_flow {b : Byte} (h : exec (.put b) s = .next t) :
    s.standalone.Flow t.standalone (Event.mk s.port (.put b) t.out).put?.toList t.out.data.toList := by
  have hdata : t.out.data = none := (exec_returns h).data_none (.inl nofun)
  rw [hdata]
  obtain ⟨-, rfl⟩ | ⟨-, -, rfl⟩ | ⟨-, hf, rfl⟩ := exec_put_cases h
  · rw [Event.put?_eq_none_of_status s.illegal_status_ne_ok]
    exact .refl hb
  · exact .refl hb
  · have hflow := Ring.flow_put b hf hb
    rw [Ring.put_room _ b hf] at hflow
    exact hflow

/-- `GET` takes no byte and gives the one it returns. -/
theorem exec_get_flow (h : exec .get s = .next t) :
    s.standalone.Flow t.standalone [] t.out.data.toList := by
  obtain ⟨-, rfl⟩ | ⟨-, -, rfl⟩ | ⟨-, he, rfl⟩ := exec_get_cases h
  · rw [State.illegal_out]
    exact .refl hb
  · exact .refl hb
  · exact Ring.flow_get he hb

/-- One operation that does not reset the standalone ring: the ring takes the byte put and gives the byte got. -/
theorem exec_standalone_flow {i : Instr} (h : exec i s = .next t) (hr : i = .reset → s.port = .M ∨ s.port = .I) :
    s.standalone.Flow t.standalone (Event.mk s.port i t.out).put?.toList t.out.data.toList := by
  by_cases hput : ∃ b, i = .put b
  · obtain ⟨b, rfl⟩ := hput
    exact exec_put_flow hb h
  by_cases hget : i = .get
  · subst hget
    exact exec_get_flow hb h
  have hdata : t.out.data = none := (exec_returns h).data_none (.inl hget)
  have hnot : ∀ b, i ≠ .put b := fun b hi => hput ⟨b, hi⟩
  rw [hdata, Event.put?_eq_none_of_op hnot]
  obtain ⟨tr, r, out, fr, rfl, -, hmove⟩ := exec_moves h
  rw [hmove.eq_of_other hnot hget hr]
  exact .refl hb

/-- A run without a reset of the standalone ring is one flow through it. -/
theorem runOps_standalone_flow {ls : List Line} {es : List Event}
    (hr : ∀ l ∈ ls, l.op = .reset → l.port = .M ∨ l.port = .I) (h : runOps s ls = some (t, es)) :
    s.standalone.Flow t.standalone (bytesPut es) (bytesGot es) := by
  induction ls generalizing s es with
  | nil => cases h; exact .refl hb
  | cons l ls ih =>
    obtain ⟨u, es', hp, hrun, rfl⟩ := runOps_cons_some h
    have hfirst : s.standalone.Flow u.standalone _ _ :=
      exec_standalone_flow (s := s.at l.port) hb hp (hr l List.mem_cons_self)
    rw [bytesPut_cons, bytesGot_cons]
    exact hfirst.trans (ih hfirst.bounded (fun k hk => hr k (List.mem_cons_of_mem _ hk)) hrun)

end

/-! ### The round trip (R103) -/

theorem bytesPut_append (es fs : List Event) : bytesPut (es ++ fs) = bytesPut es ++ bytesPut fs :=
  List.filterMap_append

theorem perform_put_room (s : State) (b : Byte) (hf : s.standalone.isFull = false)
    (hb : s.standalone.occ.toNat ≤ s.rp.cap) :
    ∃ u, s.perform .P (.put b) = .next u ∧ u.rp.cap = s.rp.cap ∧ u.out.status = some .ok ∧
      u.standalone.occ.toNat = s.standalone.occ.toNat + 1 :=
  ⟨_, exec_put_room rfl hf, rfl, rfl, occ_succ_head _ _ (s.standalone.occ_lt_of_room hf hb)⟩

theorem perform_get_nonempty (s : State) (he : s.standalone.isEmpty = false) :
    ∃ u, s.perform .C .get = .next u ∧ u.standalone.occ.toNat + 1 = s.standalone.occ.toNat :=
  ⟨_, exec_get_some rfl he, s.standalone.occ_after_get he⟩

/-- As many `PUT`s as there is room for all succeed. -/
theorem runOps_puts (bs : List Byte) (s : State) (hroom : s.standalone.occ.toNat + bs.length ≤ s.rp.cap) :
    ∃ t es, runOps s (bs.map fun b => ⟨.P, .put b⟩) = some (t, es) ∧ bytesPut es = bs ∧
      t.standalone.occ.toNat = s.standalone.occ.toNat + bs.length := by
  induction bs generalizing s with
  | nil => exact ⟨s, [], rfl, rfl, rfl⟩
  | cons b bs ih =>
    rw [List.length_cons] at hroom
    have hf : s.standalone.isFull = false := by rw [← Bool.not_eq_true, Ring.isFull_iff]; omega
    obtain ⟨u, hput, hcap, hok, hocc⟩ := perform_put_room s b hf (by omega)
    obtain ⟨t, es, hrun, hbytes, htocc⟩ := ih u (by omega)
    refine ⟨t, _, by rw [List.map_cons, runOps_cons _ hput, hrun]; rfl, ?_, ?_⟩
    · simp [bytesPut_cons, Event.put?, hok, hbytes]
    · rw [htocc, hocc, List.length_cons]
      omega

/-- As many `GET`s as there are bytes leave the ring empty; none is put. -/
theorem runOps_gets (n : Nat) (s : State) (hocc : s.standalone.occ.toNat = n) :
    ∃ t es, runOps s (List.replicate n ⟨.C, .get⟩) = some (t, es) ∧ bytesPut es = [] ∧
      t.standalone.isEmpty = true := by
  induction n generalizing s with
  | zero => exact ⟨s, [], rfl, rfl, s.standalone.isEmpty_iff.mpr hocc⟩
  | succ n ih =>
    have he : s.standalone.isEmpty = false := by rw [← Bool.not_eq_true, Ring.isEmpty_iff]; omega
    obtain ⟨u, hget, huocc⟩ := perform_get_nonempty s he
    obtain ⟨t, es, hrun, hbytes, hempty⟩ := ih u (by omega)
    exact ⟨t, _, by rw [List.replicate_succ, runOps_cons _ hget, hrun]; rfl, by rw [bytesPut_cons, hbytes]; rfl, hempty⟩

/-- The `PUT`s all succeed and the `GET`s empty the ring, so by the FIFO law what came out is what went in. -/
theorem runOps_roundTrip (bs : List Byte) (s : State) (he : s.standalone.isEmpty = true) (hlen : bs.length ≤ s.rp.cap) :
    ∃ t es, runOps s (bs.map (fun b => ⟨.P, .put b⟩) ++ List.replicate bs.length ⟨.C, .get⟩) = some (t, es) ∧
      bytesPut es = bs ∧ bytesGot es = bs ∧ t.standalone.isEmpty = true := by
  have hocc : s.standalone.occ.toNat = 0 := s.standalone.isEmpty_iff.mp he
  obtain ⟨u, es, hputs, hes, huocc⟩ := runOps_puts bs s (by omega)
  obtain ⟨t, fs, hgets, hfs, hempty⟩ := runOps_gets bs.length u (by omega)
  have hrun := runOps_append hputs hgets
  have hput : bytesPut (es ++ fs) = bs := by rw [bytesPut_append, hes, hfs, List.append_nil]
  have hnoReset : ∀ l ∈ bs.map (fun b => Line.mk .P (.put b)) ++ List.replicate bs.length ⟨.C, .get⟩,
      l.op = .reset → l.port = .M ∨ l.port = .I := by
    intro l hl hop
    obtain hl | hl := List.mem_append.mp hl
    · obtain ⟨b, -, rfl⟩ := List.mem_map.mp hl
      cases hop
    · obtain rfl := List.eq_of_mem_replicate hl
      cases hop
  have hfifo := (runOps_standalone_flow (by omega) hnoReset hrun).inOrder
  rw [Ring.contents_empty _ he, Ring.contents_empty _ hempty, List.nil_append, List.append_nil, hput] at hfifo
  exact ⟨t, _, hrun, hput, hfifo.symm, hempty⟩

/-- Settles O40: the flow through the standalone ring, composed over the run, and the round trip that follows from it. -/
theorem ringIsFifo : Obligations.RingIsFifo := by
  refine ⟨fun ls s t es hb hr h => ?_, runOps_roundTrip⟩
  obtain ⟨inOrder, bounded⟩ := runOps_standalone_flow hb hr h
  exact ⟨inOrder, bounded⟩

end Sys2Proof.Machine
end

section
/-! PROOFS. The statements of `41_transmit.md`: what `ENQ`, `KICK`, `SEND` and `TXRDY` answer (R110 to R112, R114) and leave
alone, the transmit-activity state machine (R116), the drain of a ring (R118) and `SENDBUF` (R113). What each of the four
answers is said once, as an equation at its port. A `SENDBUF` on an idle transport is `State.Sending`, which each accepted
byte and the first refused one keep, and its `KICK` ends as `State.Sent`. -/

namespace Sys2Proof.Machine

/-! ### What the four operations answer (R110 to R112, R114) -/

section
variable {s : State} {b : Byte}

theorem exec_enq (hq : s.port = .M) : exec (.enq b) s =
    .next ((s.setTransport (s.transport.enqueue b).1).respond (s.transport.enqueue b).2) :=
  accepting_yes _ _ _ (by rw [hq]; rfl)

theorem exec_kick (hq : s.port = .M) : exec .kick s =
    .next ((s.setTransport s.transport.bootstrap.1).setOut { Result.of .ok with tx := s.transport.bootstrap.2 }) :=
  accepting_yes _ _ _ (by rw [hq]; rfl)

theorem exec_send (hq : s.port = .M) : exec (.send b) s =
    .next ((s.setTransport (s.transport.enqueue b).1.bootstrap.1).setOut
      { Result.of (s.transport.enqueue b).2 with tx := (s.transport.enqueue b).1.bootstrap.2 }) :=
  accepting_yes _ _ _ (by rw [hq]; rfl)

theorem exec_txrdy (hq : s.port = .I) : exec .txrdy s =
    .next ((s.setTransport s.transport.transmitReady.1).setOut
      { Result.silent with tx := s.transport.transmitReady.2 }) :=
  accepting_yes _ _ _ (by rw [hq]; rfl)

end

section
variable {p : TransportParams} (t : Transport p) (b : Byte)

theorem Transport.enqueue_full (hf : t.ring.isFull = true) : t.enqueue b = (t, .overflow) := by
  rw [Transport.enqueue, t.ring.put_full b hf]

theorem Transport.enqueue_room (hf : t.ring.isFull = false) : t.enqueue b =
    ({ t with ring := { t.ring with tx := t.ring.tx.write t.ring.putCell b, head := t.ring.head + 1 } }, .ok) := by
  rw [Transport.enqueue, t.ring.put_room b hf]

theorem Transport.bootstrap_quiet (h : t.txActive = true ∨ t.ring.isEmpty = true) : t.bootstrap = (t, none) := by
  obtain ⟨_, e⟩ | ⟨_, _, e⟩ | ⟨ha, he, _⟩ := t.bootstrap_cases
  · exact e
  · exact e
  · simp [ha, he] at h

theorem Transport.bootstrap_dispatch (ha : t.txActive = false) (he : t.ring.isEmpty = false) : t.bootstrap =
    ({ t with ring := { t.ring with tail := t.ring.tail + 1 }, txActive := true },
      some (t.ring.tx.read t.ring.getCell)) := by
  simp [Transport.bootstrap, ha, t.ring.get_some he]

theorem Transport.transmitReady_empty (he : t.ring.isEmpty = true) :
    t.transmitReady = ({ t with txActive := false }, none) := by
  simp [Transport.transmitReady, t.ring.get_empty he]

theorem Transport.transmitReady_dispatch (he : t.ring.isEmpty = false) : t.transmitReady =
    ({ t with ring := { t.ring with tail := t.ring.tail + 1 } }, some (t.ring.tx.read t.ring.getCell)) := by
  simp [Transport.transmitReady, t.ring.get_some he]

/-- Both cases of an enqueue step, by `full`. -/
theorem Transport.enqueue_eq : t.enqueue b =
    ({ t with ring := { t.ring with
        head := if t.ring.isFull then t.ring.head else t.ring.head + 1
        tx := if t.ring.isFull then t.ring.tx else t.ring.tx.write t.ring.putCell b } },
      if t.ring.isFull then .overflow else .ok) := by
  obtain ⟨hf, e⟩ | ⟨hf, e⟩ := t.enqueue_cases b <;> simp [e, hf]

/-- The cells after an enqueue step. -/
theorem Transport.read_enqueue (j : Nat) : (t.enqueue b).1.ring.tx.read j =
    if t.ring.isFull = false ∧ j = t.ring.putCell then b else t.ring.tx.read j := by
  obtain ⟨hf, e⟩ | ⟨hf, e⟩ := t.enqueue_cases b
  · simp [e, hf]
  · simp [e, hf, CellMem.read_write]

/-- The cases of a bootstrap step, by whether it dispatches. -/
theorem Transport.bootstrap_eq : t.bootstrap =
    ({ t with
        ring := { t.ring with tail := if !t.txActive && !t.ring.isEmpty then t.ring.tail + 1 else t.ring.tail }
        txActive := t.txActive || (!t.txActive && !t.ring.isEmpty) },
      if !t.txActive && !t.ring.isEmpty then some (t.ring.tx.read t.ring.getCell) else none) := by
  cases hboots : !t.txActive && !t.ring.isEmpty
  · have hquiet : t.txActive = true ∨ t.ring.isEmpty = true := by
      rw [Bool.and_eq_false_iff, Bool.not_eq_false', Bool.not_eq_false'] at hboots; exact hboots
    rw [t.bootstrap_quiet hquiet, Bool.or_false]; rfl
  · rw [Bool.and_eq_true, Bool.not_eq_true', Bool.not_eq_true'] at hboots
    rw [t.bootstrap_dispatch hboots.1 hboots.2, Bool.or_true]; rfl

end

section
variable {s : State} {b : Byte}

theorem exec_enq_full (hq : s.port = .M) (hf : s.transport.ring.isFull = true) :
    exec (.enq b) s = .next (s.respond .overflow) := by
  rw [exec_enq hq, s.transport.enqueue_full b hf]; rfl

theorem exec_enq_room (hq : s.port = .M) (hf : s.transport.ring.isFull = false) :
    exec (.enq b) s = .next ((s.setTransport { s.transport with ring := { s.transport.ring with
      tx := s.transport.ring.tx.write s.transport.ring.putCell b, head := s.transport.ring.head + 1 } }).respond .ok) := by
  rw [exec_enq hq, s.transport.enqueue_room b hf]

theorem exec_kick_quiet (hq : s.port = .M) (h : s.transport.txActive = true ∨ s.transport.ring.isEmpty = true) :
    exec .kick s = .next (s.respond .ok) := by
  rw [exec_kick hq, s.transport.bootstrap_quiet h]; rfl

theorem exec_kick_dispatch (hq : s.port = .M) (ha : s.transport.txActive = false)
    (he : s.transport.ring.isEmpty = false) : exec .kick s = .next ((s.setTransport { s.transport with
      ring := { s.transport.ring with tail := s.transport.ring.tail + 1 }, txActive := true }).setOut
        { Result.of .ok with tx := some (s.transport.ring.tx.read s.transport.ring.getCell) }) := by
  rw [exec_kick hq, s.transport.bootstrap_dispatch ha he]

theorem exec_txrdy_empty (hq : s.port = .I) (he : s.transport.ring.isEmpty = true) :
    exec .txrdy s = .next ((s.setTransport { s.transport with txActive := false }).setOut Result.silent) := by
  rw [exec_txrdy hq, s.transport.transmitReady_empty he]; rfl

theorem exec_txrdy_dispatch (hq : s.port = .I) (he : s.transport.ring.isEmpty = false) :
    exec .txrdy s = .next ((s.setTransport { s.transport with
      ring := { s.transport.ring with tail := s.transport.ring.tail + 1 } }).setOut
        { Result.silent with tx := some (s.transport.ring.tx.read s.transport.ring.getCell) }) := by
  rw [exec_txrdy hq, s.transport.transmitReady_dispatch he]

end

/-- Settles O20: the full ring and the ring with room; read after write gives the cells. -/
theorem enqStoresOrOverflows : Obligations.EnqStoresOrOverflows := by
  refine ⟨fun b => ?_, fun s b hq => ⟨fun hfull => ?_, fun hroom => ?_⟩⟩
  · have hcode : Cmd.of 0x2 0 = 0x200 := rfl
    exact hcode ▸ decode_code_or_operand (.enq b)
  · exact exec_enq_full hq (beq_iff_eq.mpr hfull)
  · exact ⟨_, _, rfl, exec_enq_room hq (beq_eq_false_iff_ne.mpr hroom), fun j => CellMem.read_write _ _ j b⟩

/-- Settles O21: a bootstrap step of an active or empty transport is quiet; of any other it dispatches. -/
theorem kickBootstrapsWhenIdle : Obligations.KickBootstrapsWhenIdle := by
  refine ⟨decode_encode .kick, fun s hq => ⟨fun hquiet => ?_, fun hidle hne => ?_⟩⟩
  · exact exec_kick_quiet hq (hquiet.imp_right beq_iff_eq.mpr)
  · exact exec_kick_dispatch hq hidle (beq_eq_false_iff_ne.mpr hne)

/-- Settles O23: the empty ring and the ring with a byte. -/
theorem txrdyDrainsOrHalts : Obligations.TxrdyDrainsOrHalts := by
  refine ⟨decode_encode .txrdy, fun s hq => ⟨fun hempty => ?_, fun hne => ?_⟩⟩
  · exact exec_txrdy_empty hq (beq_iff_eq.mpr hempty)
  · exact exec_txrdy_dispatch hq (beq_eq_false_iff_ne.mpr hne)

/-- Settles O22: the enqueue step's equation, then the bootstrap step's on what the ring then holds. -/
theorem sendEnqueuesThenBootstraps : Obligations.SendEnqueuesThenBootstraps := by
  refine ⟨fun b => ?_, fun s b hq => ⟨_, exec_send hq, ?_⟩⟩
  · have hcode : Cmd.of 0x1 0 = 0x100 := rfl
    exact hcode ▸ decode_code_or_operand (.send b)
  · have hcells := s.transport.read_enqueue b
    rw [Transport.bootstrap_eq]
    refine ⟨(s.transport.enqueue b).1.ring.tx, ?_, hcells⟩
    rw [hcells, s.transport.enqueue_eq b]
    rfl

/-! ### What the four operations leave alone (R110 to R112, R114, `20_memory.md` R57, R63) -/

/-- One of the four operations of the transmit path. -/
def Transmits (i : Instr) : Prop := i = .kick ∨ i = .txrdy ∨ (∃ b, i = .enq b) ∨ ∃ b, i = .send b

/-- Each of the four moves the transport and writes the outcome, and nothing else. -/
theorem exec_transmit_moves {i : Instr} {s t : State} (hi : Transmits i) (h : exec i s = .next t) :
    ∃ tr out, t = (s.setTransport tr).setOut out ∧ s.transport.Move i s.port tr out.tx := by
  cases ha : s.port.accepts i
  · rw [exec_not_accepted i s ha] at h
    cases h
    exact ⟨s.transport, s.illegal.out, rfl, s.illegal_tx ▸ .stay (.inr (.inr (.inl ha)))⟩
  · obtain rfl | rfl | ⟨b, rfl⟩ | ⟨b, rfl⟩ := hi
    · have hq : s.port = .M := by simpa [accepts_kick] using ha
      rw [exec_kick hq] at h; cases h
      exact ⟨_, _, rfl, hq ▸ .kick⟩
    · have hq : s.port = .I := by simpa [accepts_txrdy] using ha
      rw [exec_txrdy hq] at h; cases h
      exact ⟨_, _, rfl, hq ▸ .txrdy⟩
    · have hq : s.port = .M := by simpa [accepts_enq] using ha
      rw [exec_enq hq] at h; cases h
      exact ⟨_, _, rfl, hq ▸ .enq b⟩
    · have hq : s.port = .M := by simpa [accepts_send] using ha
      rw [exec_send hq] at h; cases h
      exact ⟨_, _, rfl, hq ▸ .send b⟩

section
variable {p : TransportParams} {t t' : Transport p} {i : Instr} {q : Port} {tx : Option Byte}

/-- An enqueue step leaves every cell, or with room every cell but the one at `head & MASK`. -/
theorem Transport.cells_enqueue (t : Transport p) (b : Byte) :
    (∀ j, (t.enqueue b).1.ring.tx.read j = t.ring.tx.read j) ∨ t.ring.isFull = false ∧
      ∀ j, j ≠ t.ring.putCell → (t.enqueue b).1.ring.tx.read j = t.ring.tx.read j := by
  cases hf : t.ring.isFull
  · exact .inr ⟨rfl, fun j hj => by rw [t.read_enqueue, if_neg fun h => hj h.2]⟩
  · exact .inl fun j => by rw [t.enqueue_full b hf]

theorem Transport.bootstrap_tx (t : Transport p) : t.bootstrap.1.ring.tx = t.ring.tx := by
  obtain ⟨_, e⟩ | ⟨_, _, e⟩ | ⟨_, _, e⟩ := t.bootstrap_cases <;> rw [e]

theorem Transport.transmitReady_tx (t : Transport p) : t.transmitReady.1.ring.tx = t.ring.tx := by
  obtain ⟨_, e⟩ | ⟨_, e⟩ := t.transmitReady_cases <;> rw [e]

/-- The transmit path leaves the receive side alone (`20_memory.md` R63). -/
theorem Transport.Move.rx_of_transmits (h : t.Move i q t' tx) (hi : Transmits i) :
    t'.rx = t.rx ∧ t'.rxLen = t.rxLen ∧ t'.lineReady = t.lineReady := by
  cases h with
  | stay => exact ⟨rfl, rfl, rfl⟩
  | enq b => exact t.enqueue_rx b
  | send b => exact (t.enqueue b).1.bootstrap_rx
  | kick => exact t.bootstrap_rx
  | txrdy => exact t.transmitReady_rx
  | poll | rxbyte | reset => simp [Transmits] at hi

/-- The TX cells: only an enqueue step with room writes one, and that at `head & MASK`. -/
theorem Transport.Move.cells (h : t.Move i q t' tx) (hi : Transmits i) :
    (∀ j, t'.ring.tx.read j = t.ring.tx.read j) ∨
    (q = .M ∧ t.ring.isFull = false ∧ ((∃ b, i = .enq b) ∨ ∃ b, i = .send b) ∧
      ∀ j, j ≠ t.ring.putCell → t'.ring.tx.read j = t.ring.tx.read j) := by
  cases h with
  | stay => exact .inl fun _ => rfl
  | enq b => exact (t.cells_enqueue b).imp_right fun ⟨hf, hj⟩ => ⟨rfl, hf, .inl ⟨b, rfl⟩, hj⟩
  | send b =>
    rw [Transport.bootstrap_tx]
    exact (t.cells_enqueue b).imp_right fun ⟨hf, hj⟩ => ⟨rfl, hf, .inr ⟨b, rfl⟩, hj⟩
  | kick => exact .inl fun j => by rw [t.bootstrap_tx]
  | txrdy => exact .inl fun j => by rw [t.transmitReady_tx]
  | poll | rxbyte | reset => simp [Transmits] at hi

theorem Transport.Move.tail_of_enq {b : Byte} (h : t.Move (.enq b) q t' tx) :
    t'.ring.tail = t.ring.tail ∧ t'.txActive = t.txActive := by
  cases h with
  | stay => exact ⟨rfl, rfl⟩
  | enq => exact ⟨t.enqueue_tail b, rfl⟩

end

/-- Settles O28: one lemma per part of the transport; `head` and the cells change by an enqueue step with room only. -/
theorem transmitOperationsFrame : Obligations.TransmitOperationsFrame := by
  intro i s t hi h
  obtain ⟨tr, out, rfl, hmove⟩ := exec_transmit_moves hi h
  obtain ⟨hrx, hrxLen, hlineReady⟩ := hmove.rx_of_transmits hi
  have hnoReset : ¬ (i = .reset ∧ (s.port = .M ∨ s.port = .I)) := by rintro ⟨rfl, -⟩; simp at hi
  have hkept : ¬ (s.port = .M ∧ s.transport.ring.isFull = false ∧ ((∃ b, i = .enq b) ∨ ∃ b, i = .send b)) →
      tr.ring.head.toNat = s.transport.ring.head.toNat ∧ ∀ j, tr.ring.tx.read j = s.transport.ring.tx.read j := by
    intro hno
    refine ⟨congrArg _ (by_contra fun hne => hno (hmove.head hnoReset hne)), ?_⟩
    exact (hmove.cells hi).resolve_right fun ⟨hq, hf, hop, _⟩ => hno ⟨hq, hf, hop⟩
  refine ⟨⟨tr, rfl⟩, ?_, fun j => congrArg (·.read j) hrx, fun hop => hkept ?_, ?_, fun _ _ j hj => ?_,
    fun hno => hkept ?_⟩
  · simp [State.regs, hrxLen, hlineReady]
  · obtain rfl | rfl := hop <;> simp
  · rintro ⟨b, rfl⟩
    exact hmove.tail_of_enq.imp_left (congrArg BitVec.toNat)
  · exact (hmove.cells hi).elim (· j) fun ⟨_, _, _, hcells⟩ => hcells j hj
  · rintro ⟨hq, hf, -⟩; simp [hq, hf] at hno

/-! ### The transmit-activity state machine (R116) -/

section
variable {p : TransportParams} {t t' : Transport p} {i : Instr} {q : Port}

theorem Transport.txState_eq_idle_iff : t.txState = .idle ↔ t.txActive = false := by
  cases h : t.txActive <;> simp [Transport.txState, h]

theorem Transport.txState_eq_active_iff : t.txState = .active ↔ t.txActive = true := by
  cases h : t.txActive <;> simp [Transport.txState, h]

/-- A bootstrap step that dispatches makes an idle transport active. -/
theorem Transport.bootstrap_rise (t : Transport p) {v : Byte} (h : t.bootstrap.2 = some v) :
    t.txActive = false ∧ t.bootstrap.1.txActive = true := by
  obtain ⟨_, e⟩ | ⟨_, _, e⟩ | ⟨ha, _, e⟩ := t.bootstrap_cases <;> rw [e] at h ⊢
  · cases h
  · cases h
  · exact ⟨ha, rfl⟩

/-- A dispatch is a `TXRDY`'s, of a ring with a byte, or a bootstrap step's. -/
theorem Transport.Move.dispatch {v : Byte} (h : t.Move i q t' (some v)) :
    ((i = .txrdy ∧ q = .I) ∧ t.ring.isEmpty = false) ∨ (q = .M ∧ t.txActive = false ∧ t'.txActive = true) := by
  generalize htx : some v = tx at h
  cases h with
  | send b => exact .inr ⟨rfl, (t.enqueue b).1.bootstrap_rise htx.symm⟩
  | kick => exact .inr ⟨rfl, t.bootstrap_rise htx.symm⟩
  | txrdy =>
    obtain ⟨_, e⟩ | ⟨he, _⟩ := t.transmitReady_cases
    · rw [e] at htx; cases htx
    · exact .inl ⟨⟨rfl, rfl⟩, he⟩
  | stay | enq | poll | rxbyte | reset => cases htx

end

/-- Settles O35: `txActive` rises and falls as R26 says, and a dispatch is a `TXRDY`'s or a bootstrap step's. -/
theorem transmitStateMachine : Obligations.TransmitStateMachine := by
  intro i s t h hi
  obtain ⟨tr, r, out, fr, rfl, hmove, -⟩ := exec_moves h
  simp only [Transport.txState_eq_idle_iff, Transport.txState_eq_active_iff]
  have hdispatch : ∀ v, out.tx = some v → _ := fun v hv => Transport.Move.dispatch (hv ▸ hmove)
  refine ⟨fun ha ha' => ?_, fun ha ha' => ?_, fun ha hsome => ?_, fun v hv => ?_⟩
  · obtain ⟨hsome, hq, hop⟩ := hmove.txActive_rises ha ha'
    exact ⟨hq, hop, hsome⟩
  · obtain ⟨hop, hq, hempty⟩ := hmove.txActive_falls (fun e => hi e.1) ha ha'
    refine ⟨hq, hop, hempty, Option.eq_none_iff_forall_ne_some.mpr fun v hv => ?_⟩
    obtain ⟨-, hne⟩ | ⟨-, hidle, -⟩ := hdispatch v hv
    · simp [hempty] at hne
    · simp [ha] at hidle
  · obtain ⟨v, hv⟩ := Option.isSome_iff_exists.mp hsome
    obtain ⟨hop, -⟩ | ⟨-, hidle, -⟩ := hdispatch v hv
    · exact hop.symm
    · simp [ha] at hidle
  · obtain ⟨hop, -⟩ | ⟨hq, hidle, hactive⟩ := hdispatch v hv
    · exact .inl hop
    · exact .inr ⟨hidle, hactive, hq⟩

/-! ### The drain of a ring (R118) -/

theorem perform_txrdy_empty (s : State) (he : s.transport.ring.isEmpty = true) :
    ∃ u, s.perform .I .txrdy = .next u ∧ u.out.tx = none ∧ u.transport.txActive = false ∧
      u.transport.ring.isEmpty = true :=
  ⟨_, exec_txrdy_empty rfl he, rfl, rfl, he⟩

/-- With a byte in the ring, a `TXRDY` dispatches the first of the contents. -/
theorem perform_txrdy_dispatch (s : State) (he : s.transport.ring.isEmpty = false) :
    ∃ u, s.perform .I .txrdy = .next u ∧ s.transport.ring.contents = u.out.tx.toList ++ u.transport.ring.contents ∧
      u.transport.ring.occ.toNat + 1 = s.transport.ring.occ.toNat :=
  ⟨_, exec_txrdy_dispatch rfl he, Ring.contents_get _ he, Ring.occ_after_get _ he⟩

/-- One `TXRDY` for each of the `n` bytes held, and one more. -/
theorem runOps_drain (n : Nat) (s : State) (hocc : s.transport.ring.occ.toNat = n) :
    ∃ t es, runOps s (List.replicate (n + 1) ⟨.I, .txrdy⟩) = some (t, es) ∧
      bytesSent es = s.transport.ring.contents ∧ t.transport.txActive = false ∧ t.transport.ring.isEmpty = true := by
  induction n generalizing s with
  | zero =>
    have hempty := s.transport.ring.isEmpty_iff.mpr hocc
    obtain ⟨u, hlast, htx, hidle, huempty⟩ := perform_txrdy_empty s hempty
    refine ⟨u, _, runOps_cons (l := ⟨.I, .txrdy⟩) [] hlast, ?_, hidle, huempty⟩
    rw [bytesSent_cons, htx, Ring.contents_empty _ hempty]; rfl
  | succ n ih =>
    have hne : s.transport.ring.isEmpty = false := by rw [← Bool.not_eq_true, Ring.isEmpty_iff]; omega
    obtain ⟨u, hfirst, hcontents, huocc⟩ := perform_txrdy_dispatch s hne
    obtain ⟨t, es, hrun, hsent, hidle, hempty⟩ := ih u (by omega)
    refine ⟨t, _, by rw [List.replicate_succ, runOps_cons _ hfirst, hrun]; rfl, ?_, hidle, hempty⟩
    rw [bytesSent_cons, hsent, hcontents]

/-- Settles O42: by induction on the number of bytes held; each `TXRDY` dispatches the first of the contents. -/
theorem drainDispatchesEverything : Obligations.DrainDispatchesEverything := fun s => runOps_drain _ s rfl

/-! ### `SENDBUF` (R113): a mainline that is alone for `n` turns -/

/-- The next `n` turns are the mainline's, which is not suspended, and no `RESET` stands at another port. -/
structure State.MainlineAlone (s : State) (n : Nat) : Prop where
  running : s.agents.suspended = false
  irq     : s.agents.irq.head? ≠ some resetWord
  prod    : s.agents.prod.head? ≠ some resetWord
  cons    : s.agents.cons.head? ≠ some resetWord
  grants  : s.agents.grants = List.replicate n .M

theorem encode_ne_resetWord {i : Instr} (hi : i ≠ .reset) : encode i ≠ resetWord := by
  intro h
  have hdecode := decode_encode i
  rw [h, resetWord, decode_encode] at hdecode
  exact hi (Option.some.inj hdecode).symm

/-- A step's bookkeeping leaves alone what stands at the other ports, and the turns still to come. -/
theorem settle_keeps (s : State) (q : Port) (i : Option Instr) (t : State) :
    (s.settle q i t).agents.irq = t.agents.irq ∧ (s.settle q i t).agents.prod = t.agents.prod ∧
      (s.settle q i t).agents.cons = t.agents.cons ∧ (s.settle q i t).agents.grants = t.agents.grants := by
  simp only [State.settle, State.wakeUp, Agents.sendbufStatus]
  split
  · split
    · split <;> exact ⟨rfl, rfl, rfl, rfl⟩
    · exact ⟨rfl, rfl, rfl, rfl⟩
    · exact ⟨rfl, rfl, rfl, rfl⟩
  · exact ⟨rfl, rfl, rfl, rfl⟩

section
variable {s : State} {n : Nat} {i : Instr} (halone : s.MainlineAlone (n + 1))
  (hword : s.agents.main.head?.bind MainStep.word? = some (encode i)) (hi : i ≠ .reset)
include halone hword

theorem State.MainlineAlone.standing : s.standing .M = some (encode i) := by
  simp [State.standing, State.mainWord, hword, State.blocked, halone.running]

include hi

theorem State.MainlineAlone.resetPort : s.resetPort = none := by
  have hM : s.standing .M ≠ some resetWord := by simpa [halone.standing hword] using encode_ne_resetWord hi
  simpa [State.resetPort, hM] using ⟨halone.irq, halone.prod, halone.cons⟩

theorem State.MainlineAlone.served : s.served = some .M := by
  simp [State.served, halone.resetPort hword hi, halone.grants, List.replicate_succ]

theorem State.MainlineAlone.take_agents : (s.take .M).agents =
    { s.agents with main := afterMainStep s.agents.main, grants := List.replicate n .M } := by
  simp [State.take, State.useTurn, Agents.consume, halone.resetPort hword hi, halone.grants]

/-- The step takes the mainline's word, and leaves the mainline alone for one turn less. -/
theorem State.MainlineAlone.step {u : State} (hu : exec i (s.take .M) = .next u) :
    step s = .next (s.settle .M (some i) u) ∧ (s.settle .M (some i) u).MainlineAlone n ∧
      u.agents.main = afterMainStep s.agents.main := by
  obtain ⟨-, -, -, hagents⟩ := exec_leaves hu
  rw [halone.take_agents hword hi] at hagents
  obtain ⟨hirq, hprod, hcons, hgrants⟩ := settle_keeps s .M (some i) u
  rw [hagents] at hirq hprod hcons hgrants
  refine ⟨?_, ⟨?_, hirq ▸ halone.irq, hprod ▸ halone.prod, hcons ▸ halone.cons, hgrants⟩, by rw [hagents]⟩
  · rw [step_taken s (halone.served hword hi) (halone.standing hword) (decode_encode i), hu]; rfl
  · rw [settle_suspended, hagents]
    exact (congrArg (· && _) halone.running).trans (Bool.false_and _)

end

/-! ### `SENDBUF` on an idle transport (R113) -/

section
variable {s : State} {b : Byte} {bs : List Byte} {r : Status} {rest : List MainStep}

theorem settle_main_enq (h : s.agents.main = .sendbuf (b :: bs) r :: rest) (i : Option Instr) (u : State) :
    (s.settle .M i u).agents.main =
      if u.out.status = some .overflow then .sendbuf [] .overflow :: rest else u.agents.main := by
  simp only [State.settle, State.wakeUp, Agents.sendbufStatus, h, if_true]
  split <;> rfl

theorem settle_kick (h : s.agents.main = .sendbuf [] r :: rest) (i : Option Instr) (u : State) :
    (s.settle .M i u).agents.main = u.agents.main ∧ (s.settle .M i u).agents.sendbufResult = some r := by
  simp only [State.settle, State.wakeUp, Agents.sendbufStatus, h, if_true, and_self]

end

theorem Ring.length_contents {p : RingParams} (r : Ring p) : r.contents.length = r.occ.toNat := by
  simp [Ring.contents]

/-- The mainline, alone for `n` turns, is in a `SENDBUF` with `bs` still to enqueue and the result `r` so far; its
transport is idle and holds `held`. -/
structure State.Sending (s : State) (held bs : List Byte) (r : Status) (rest : List MainStep) (n : Nat) : Prop where
  alone : s.MainlineAlone n
  main  : s.agents.main = .sendbuf bs r :: rest
  idle  : s.transport.txActive = false
  holds : s.transport.ring.contents = held
  fits  : held.length ≤ s.tp.ring.cap

/-- A `SENDBUF` that had `bytes` accepted has ended with the result `r`: the first byte is dispatched by its `KICK`, the
others are held. -/
structure State.Sent (s : State) (bytes : List Byte) (r : Status) (rest : List MainStep) : Prop where
  result : s.agents.sendbufResult = some r
  main   : s.agents.main = rest
  tx     : s.out.tx = bytes.head?
  holds  : s.transport.ring.contents = bytes.drop 1
  active : s.transport.txActive = !bytes.isEmpty

section
variable {s : State} {held : List Byte} {b : Byte} {bs : List Byte} {r : Status} {rest : List MainStep} {n : Nat}

theorem State.Sending.isFull_iff (h : s.Sending held bs r rest n) :
    s.transport.ring.isFull = true ↔ held.length = s.tp.ring.cap := by
  rw [Ring.isFull_iff, ← Ring.length_contents, h.holds]

theorem State.Sending.isEmpty_iff (h : s.Sending held bs r rest n) :
    s.transport.ring.isEmpty = true ↔ held = [] := by
  rw [Ring.isEmpty_iff, ← Ring.length_contents, h.holds, List.length_eq_zero_iff]

/-- An `ENQ` with room: the byte is accepted. -/
theorem State.Sending.accept (h : s.Sending held (b :: bs) r rest (n + 1)) (hroom : held.length < s.tp.ring.cap) :
    ∃ t, step s = .next t ∧ t.tp = s.tp ∧ t.Sending (held ++ [b]) bs r rest n := by
  have hf : s.transport.ring.isFull = false := by
    rw [← Bool.not_eq_true, h.isFull_iff]; exact hroom.ne
  have hb : s.transport.ring.occ.toNat ≤ s.tp.ring.cap := by
    rw [← Ring.length_contents, h.holds]; exact hroom.le
  have hholds := s.transport.ring.contents_put b hf hb
  rw [h.holds, s.transport.ring.put_room b hf] at hholds
  obtain ⟨hstep, halone, hmain⟩ :=
    h.alone.step (i := .enq b) (by rw [h.main]; rfl) nofun (exec_enq_room (s := s.take .M) rfl hf)
  refine ⟨_, hstep, rfl, halone, ?_, h.idle, hholds, ?_⟩
  · rw [settle_main_enq h.main, hmain, h.main]; rfl
  · rw [List.length_append]; exact hroom

/-- An `ENQ` at a full ring: the first `OVERFLOW` ends the enqueues. -/
theorem State.Sending.overflow (h : s.Sending held (b :: bs) r rest (n + 1)) (hfull : held.length = s.tp.ring.cap) :
    ∃ t, step s = .next t ∧ t.tp = s.tp ∧ t.Sending held [] .overflow rest n := by
  have hf := h.isFull_iff.mpr hfull
  obtain ⟨hstep, halone, -⟩ :=
    h.alone.step (i := .enq b) (by rw [h.main]; rfl) nofun (exec_enq_full (s := s.take .M) rfl hf)
  refine ⟨_, hstep, rfl, halone, ?_, h.idle, h.holds, h.fits⟩
  rw [settle_main_enq h.main]; rfl

/-- The `KICK` that ends a `SENDBUF`. -/
theorem State.Sending.kick (h : s.Sending held [] r rest (n + 1)) :
    ∃ t, step s = .next t ∧ t.Sent held r rest := by
  have hword : s.agents.main.head?.bind MainStep.word? = some (encode .kick) := by rw [h.main]; rfl
  cases he : s.transport.ring.isEmpty
  · have hholds := s.transport.ring.contents_get he
    rw [h.holds] at hholds
    obtain ⟨hstep, -, hmain⟩ := h.alone.step hword nofun (exec_kick_dispatch (s := s.take .M) rfl h.idle he)
    obtain ⟨hrest, hresult⟩ := settle_kick h.main (some .kick) _
    rw [hholds]
    exact ⟨_, hstep, hresult, hrest.trans (by rw [hmain, h.main]; rfl), rfl, rfl, rfl⟩
  · obtain rfl := h.isEmpty_iff.mp he
    obtain ⟨hstep, -, hmain⟩ := h.alone.step hword nofun (exec_kick_quiet (s := s.take .M) rfl (.inr he))
    obtain ⟨hrest, hresult⟩ := settle_kick h.main (some .kick) _
    exact ⟨_, hstep, hresult, hrest.trans (by rw [hmain, h.main]; rfl), rfl, h.holds, h.idle⟩

theorem run_succ {s t : State} (k : Nat) (h : step s = .next t) :
    Host.Core.run core (k + 1) s = Host.Core.run core k t := by
  have hstep : core.step s = .next t := h
  simp only [Host.Core.run, hstep]

theorem run_one {s t : State} (h : step s = .next t) : Host.Core.run core 1 s = .next t := run_succ 0 h

/-- A `SENDBUF` has its bytes accepted as long as there is room, in a turn each, one turn for the first refused one, and
one for the `KICK`. -/
theorem run_sendbuf (bs held : List Byte) (s : State) (room : Nat) (hroom : held.length + room = s.tp.ring.cap)
    (h : s.Sending held bs r rest (min bs.length (room + 1) + 1)) :
    ∃ t, Host.Core.run core (min bs.length (room + 1) + 1) s = .next t ∧
      t.Sent (held ++ bs.take room) (if bs.length ≤ room then r else .overflow) rest := by
  induction bs generalizing held s room with
  | nil =>
    simp only [List.length_nil, Nat.zero_min] at h
    obtain ⟨t, hstep, hsent⟩ := h.kick
    exact ⟨t, by simpa using run_one hstep, by simpa using hsent⟩
  | cons b bs ih =>
    rw [List.length_cons, Nat.add_min_add_right] at h ⊢
    cases room with
    | zero =>
      obtain ⟨u, hstep, -, hu⟩ := h.overflow hroom
      rw [Nat.min_zero] at hu ⊢
      obtain ⟨t, hkick, hsent⟩ := hu.kick
      exact ⟨t, by rw [run_succ _ hstep, run_one hkick], by simpa using hsent⟩
    | succ room =>
      obtain ⟨u, hstep, htp, hu⟩ := h.accept (by omega)
      have hroom' : (held ++ [b]).length + room = u.tp.ring.cap := by
        rw [htp, List.length_append, List.length_singleton]; omega
      obtain ⟨t, hrun, hsent⟩ := ih (held ++ [b]) u room hroom' hu
      exact ⟨t, by rw [run_succ _ hstep, hrun], by simpa using hsent⟩

end

/-- Settles O46: an empty ring has room for `CAP` bytes. -/
theorem sendbufAcceptsAtMostCap : Obligations.SendbufAcceptsAtMostCap := by
  intro s bs rest hmain hrunning hirq hprod hcons hgrants hidle hempty
  have hholds := Ring.contents_empty _ hempty
  have hsending : s.Sending [] bs .ok rest _ :=
    ⟨⟨hrunning, hirq, hprod, hcons, hgrants⟩, hmain, hidle, hholds, Nat.zero_le _⟩
  obtain ⟨t, hrun, hsent⟩ := run_sendbuf bs [] s s.tp.ring.cap (Nat.zero_add _) hsending
  have hcap : s.tp.ring.cap ≠ 0 := (cap_pos _).ne'
  obtain ⟨hresult, hmain', htx, hholds', hactive⟩ := hsent
  rw [List.nil_append] at htx hholds' hactive
  refine ⟨t, hrun, hresult, hmain', ?_, hholds', ?_⟩
  · rw [htx, List.head?_take, if_neg hcap]
  · rw [hactive, Bool.eq_iff_iff]
    simp

end Sys2Proof.Machine
end

section
/-! PROOFS. The statements of `42_receive.md`: what `RXBYTE` and `POLL` answer (R130 to R132) and leave alone, the
receive-path state machine (R133), the wake pulse (R137) and what becomes of a whole line (R134, R136, R138). What the
two answer is said once, as an equation per case; a line in the making is `Transport.Holds`, which every payload byte
extends, a terminator turns into the line that waits, and an overflow or a `POLL` empties. -/

namespace Sys2Proof.Machine

/-! ### The terminators (R131) -/

theorem isTerm_iff (b : Byte) : isTerm b = true ↔ b = 0x0D ∨ b = 0x0A := by
  simp [isTerm, Config.CR, Config.LF]

theorem isTerm_eq_false_iff (b : Byte) : isTerm b = false ↔ b ≠ 0x0D ∧ b ≠ 0x0A := by
  rw [← Bool.not_eq_true, isTerm_iff, not_or]

/-- Settles O15: the two codes are `Config.CR` and `Config.LF`. -/
theorem terminatorsAreCrAndLf : Obligations.TerminatorsAreCrAndLf := isTerm_iff

/-! ### What the byte-received handler does in each of its cases (R130) -/

section
variable {p : TransportParams} {t : Transport p} {b : Byte}

theorem Transport.byteReceived_ready (hr : t.lineReady = true) : t.byteReceived b = (t, false) := by
  simp [Transport.byteReceived, hr]

theorem Transport.byteReceived_full (hr : t.lineReady = false) (hl : t.rxLen.val = p.l) :
    t.byteReceived b = ({ t with rxLen := 0 }, false) := by
  simp [Transport.byteReceived, hr, hl]

theorem Transport.byteReceived_payload (hr : t.lineReady = false) (hl : t.rxLen.val < p.l) (hb : isTerm b = false) :
    t.byteReceived b =
      ({ t with rx := t.rx.write t.rxLen.val b, rxLen := ⟨t.rxLen.val + 1, by omega⟩ }, false) := by
  simp [Transport.byteReceived, Transport.appendCell, hr, hl.ne, hb]

theorem Transport.byteReceived_blank (hr : t.lineReady = false) (hl : t.rxLen.val < p.l) (hb : isTerm b = true)
    (h0 : t.rxLen.val = 0) : t.byteReceived b = ({ t with rx := t.rx.write t.rxLen.val b, rxLen := 0 }, false) := by
  simp [Transport.byteReceived, Transport.appendCell, hr, hb, h0, (h0 ▸ hl).ne]

theorem Transport.byteReceived_line (hr : t.lineReady = false) (hl : t.rxLen.val < p.l) (hb : isTerm b = true)
    (h0 : t.rxLen.val ≠ 0) : t.byteReceived b =
      ({ t with rx := t.rx.write t.rxLen.val b, rxLen := ⟨t.rxLen.val + 1, by omega⟩, lineReady := true }, true) := by
  simp [Transport.byteReceived, Transport.appendCell, hr, hl.ne, hb, h0]

/-- With room and no line waiting, the byte goes to `RX:rxLen` and to no other cell. -/
theorem Transport.byteReceived_rx (hr : t.lineReady = false) (hl : t.rxLen.val < p.l) :
    (t.byteReceived b).1.rx = t.rx.write t.rxLen.val b := by
  cases hb : isTerm b
  · rw [t.byteReceived_payload hr hl hb]
  · by_cases h0 : t.rxLen.val = 0
    · rw [t.byteReceived_blank hr hl hb h0]
    · rw [t.byteReceived_line hr hl hb h0]

/-- With a line waiting or the buffer full, no cell is written. -/
theorem Transport.byteReceived_rx_of_no_append (h : t.lineReady = true ∨ t.rxLen.val = p.l) :
    (t.byteReceived b).1.rx = t.rx := by
  obtain ⟨_, e⟩ | ⟨_, _, e⟩ | ⟨hr, hl, _⟩ := t.byteReceived_cases b
  · rw [e]
  · rw [e]
  · simp [hr, hl.ne] at h

/-- The wake pulse (R137): the handler raises it where it makes `lineReady` rise. -/
theorem Transport.byteReceived_wake :
    (t.byteReceived b).2 = true ↔ t.lineReady = false ∧ (t.byteReceived b).1.lineReady = true := by
  obtain ⟨hr, e⟩ | ⟨hr, _, e⟩ | ⟨hr, _, ⟨_, e⟩ | ⟨_, _, e⟩ | ⟨_, _, e⟩⟩ := t.byteReceived_cases b <;> simp [hr, e]

end

/-! ### What `RXBYTE` and `POLL` answer (R130, R132) -/

section
variable {s : State} {b : Byte}

theorem exec_rxbyte (hq : s.port = .I) : exec (.rxbyte b) s =
    .next ((s.setTransport (s.transport.byteReceived b).1).setOut
      { Result.silent with wake := (s.transport.byteReceived b).2 }) :=
  accepting_yes _ _ _ (by rw [hq]; rfl)

theorem exec_poll (hq : s.port = .M) : exec .poll s =
    if s.transport.lineReady = false then .next (s.respond .noLine)
    else if s.transport.rxLen.val < 2 then .fault .pollShortLine
    else .next ((s.setTransport s.transport.consumeLine).setOut
      { Result.of .ok with line := some s.transport.line }) :=
  accepting_yes _ _ _ (by rw [hq]; rfl)

theorem exec_poll_noLine (hq : s.port = .M) (hr : s.transport.lineReady = false) :
    exec .poll s = .next (s.respond .noLine) := by
  rw [exec_poll hq, if_pos hr]

theorem exec_poll_line (hq : s.port = .M) (hr : s.transport.lineReady = true) (hlen : 2 ≤ s.transport.rxLen.val) :
    exec .poll s = .next ((s.setTransport s.transport.consumeLine).setOut
      { Result.of .ok with line := some s.transport.line }) := by
  rw [exec_poll hq, if_neg (by simp [hr]), if_neg (Nat.not_lt.mpr hlen)]

theorem exec_poll_short (hq : s.port = .M) (hr : s.transport.lineReady = true) (hlen : s.transport.rxLen.val < 2) :
    exec .poll s = .fault .pollShortLine := by
  rw [exec_poll hq, if_neg (by simp [hr]), if_pos hlen]

end

/-- Settles O24: the equation of each case; an `RXBYTE` is an effect on the receive side alone, and an append writes the
one cell. -/
theorem rxbyteFollowsItsFourCases : Obligations.RxbyteFollowsItsFourCases := by
  refine ⟨fun b => ?_, fun s b hq => ⟨_, (s.transport.byteReceived b).1.rx, (s.transport.byteReceived b).1.rxLen,
    exec_rxbyte hq, ?_, fun hr => ?_, fun hr hfull => ?_, fun hr hroom => ?_⟩⟩
  · have hcode : Cmd.of 0x9 0 = 0x900 := rfl
    exact hcode ▸ decode_code_or_operand (.rxbyte b)
  · have hside := (Effect.receiveSide_rxbyte b).eq_join s.transport
    exact congrArg (fun tr => (s.setTransport tr).setOut _) hside
  · rw [Transport.byteReceived_ready hr]
    exact ⟨rfl, rfl, fun _ => rfl⟩
  · rw [Transport.byteReceived_full hr hfull]
    exact ⟨rfl, rfl, fun _ => rfl⟩
  · refine ⟨fun j => ?_, fun hpay => ?_, fun hterm => ⟨fun h0 => ?_, fun h0 => ?_⟩⟩
    · exact (congrArg (·.read j) (Transport.byteReceived_rx hr hroom)).trans (CellMem.read_write _ _ j b)
    · rw [Transport.byteReceived_payload hr hroom ((isTerm_eq_false_iff b).mpr hpay)]
      exact ⟨rfl, rfl⟩
    · rw [Transport.byteReceived_blank hr hroom ((isTerm_iff b).mpr hterm) h0]
      exact ⟨congrArg (fun n => { s.regs with rxLen := n }) h0.symm, rfl⟩
    · rw [Transport.byteReceived_line hr hroom ((isTerm_iff b).mpr hterm) h0]
      exact ⟨rfl, rfl⟩

/-- Settles O25: the three cases of `POLL`; I3 says what the delivered bytes are. -/
theorem pollDeliversTheLine : Obligations.PollDeliversTheLine := by
  refine ⟨decode_encode .poll, fun s hq =>
    ⟨exec_poll_noLine hq, fun hr hlen => ?_, fun hinv hr => ?_, exec_poll_short hq⟩⟩
  · have hrange := s.transport.rxLen.isLt
    exact ⟨exec_poll_line hq hr hlen, by omega, by omega⟩
  · exact ⟨hinv.lineLength hr, fun j hj => hinv.linePrefix hr j (by omega)⟩

/-! ### What the two operations leave alone (R130, R132, `20_memory.md` R57, R63) -/

/-- One of the two operations of the receive path. -/
def Receives (i : Instr) : Prop := i = .poll ∨ ∃ b, i = .rxbyte b

/-- Each of the two moves the transport and writes the outcome, and nothing else. -/
theorem exec_receive_moves {i : Instr} {s t : State} (hi : Receives i) (h : exec i s = .next t) :
    ∃ tr out, t = (s.setTransport tr).setOut out ∧ s.transport.Move i s.port tr out.tx := by
  cases ha : s.port.accepts i
  · rw [exec_not_accepted i s ha] at h
    cases h
    exact ⟨s.transport, s.illegal.out, rfl, s.illegal_tx ▸ .stay (.inr (.inr (.inl ha)))⟩
  · obtain rfl | ⟨b, rfl⟩ := hi
    · have hq : s.port = .M := by simpa [accepts_poll] using ha
      rw [exec_poll hq] at h
      split at h
      case isTrue hr => cases h; exact ⟨s.transport, _, rfl, .stay (.inr (.inr (.inr (.inr ⟨rfl, hr⟩))))⟩
      case isFalse hr =>
        split at h <;> cases h
        exact ⟨_, _, rfl, hq ▸ .poll (by simpa using hr)⟩
    · have hq : s.port = .I := by simpa [accepts_rxbyte] using ha
      rw [exec_rxbyte hq] at h; cases h
      exact ⟨_, _, rfl, hq ▸ .rxbyte b⟩

section
variable {p : TransportParams} {t t' : Transport p} {i : Instr} {q : Port} {tx : Option Byte}

/-- The receive path leaves the transmit side alone (`20_memory.md` R63). -/
theorem Transport.Move.tx_of_receives (h : t.Move i q t' tx) (hi : Receives i) :
    t'.ring = t.ring ∧ t'.txActive = t.txActive := by
  cases h with
  | stay | poll => exact ⟨rfl, rfl⟩
  | rxbyte b => exact t.byteReceived_tx b
  | enq | send | kick | txrdy | reset => simp [Receives] at hi

/-- The RX cells: only an `RXBYTE` with room and no line waiting writes one, and that at `rxLen`. -/
theorem Transport.Move.rx_of_receives (h : t.Move i q t' tx) (hi : Receives i) :
    t'.rx = t.rx ∨ ∃ b, i = .rxbyte b ∧ q = .I ∧ t.lineReady = false ∧ t.rxLen.val < p.l ∧
      t'.rx = t.rx.write t.appendCell b := by
  cases h with
  | stay | poll => exact .inl rfl
  | rxbyte b =>
    obtain ⟨hr, _⟩ | ⟨_, hl, _⟩ | ⟨hr, hl, _⟩ := t.byteReceived_cases b
    · exact .inl (t.byteReceived_rx_of_no_append (.inl hr))
    · exact .inl (t.byteReceived_rx_of_no_append (.inr hl))
    · exact .inr ⟨b, rfl, rfl, hr, hl, t.byteReceived_rx hr hl⟩
  | enq | send | kick | txrdy | reset => simp [Receives] at hi

end

/-- Settles O29: the transmit side stays, and a cell is written by an append only. -/
theorem receiveOperationsFrame : Obligations.ReceiveOperationsFrame := by
  intro i s t hi h
  obtain ⟨tr, out, rfl, hmove⟩ := exec_receive_moves hi h
  obtain ⟨hring, hactive⟩ := hmove.tx_of_receives hi
  have hrx := hmove.rx_of_receives hi
  refine ⟨⟨tr, rfl⟩, ?_, fun j => congrArg (·.tx.read j) hring, fun _ _ _ _ j hj => ?_, fun hno j => ?_⟩
  · simp [State.regs, hring, hactive]
  · obtain e | ⟨b, -, -, -, -, e⟩ := hrx
    · exact congrArg (·.read j) e
    · exact (congrArg (·.read j) e).trans (CellMem.read_write_other _ b hj)
  · obtain e | ⟨b, rfl, hq, hr, hl, -⟩ := hrx
    · exact congrArg (·.read j) e
    · simp [hq, hr, hl.ne] at hno

/-! ### The wake pulse (R137) -/

/-- Only an `RXBYTE` at port I pulses: every other outcome is written without a wake. -/
theorem exec_wake {i : Instr} {s t : State} (h : exec i s = .next t) (hw : t.wake = true) :
    ∃ b, i = .rxbyte b ∧ s.port = .I := by
  rcases exec_cases h with ⟨_, rfl⟩ | ⟨_, _, rfl⟩ | ⟨_, _, _, rfl⟩ | ⟨_, _, _, rfl⟩ | ⟨_, _, rfl⟩ | ⟨_, _, _, rfl⟩ |
    ⟨_, _, _, _, rfl⟩ | ⟨_, _, _, rfl⟩ | ⟨_, _, rfl⟩ | ⟨b, hi, hq, _⟩ | ⟨_, _, _, rfl⟩ | ⟨_, _, _, rfl⟩ | ⟨_, _, rfl⟩ |
    ⟨_, _, rfl⟩ | ⟨_, _, rfl⟩
  · rw [State.wake, s.illegal_out] at hw; cases hw
  iterate 8 · cases hw
  · exact ⟨b, hi, hq⟩
  iterate 5 · cases hw

/-- Settles O34: an `RXBYTE` at port I pulses where it makes `lineReady` rise; nothing else pulses or makes it rise. -/
theorem wakeMarksTheRiseOfLineReady : Obligations.WakeMarksTheRiseOfLineReady := by
  intro i s t h
  by_cases hi : ∃ b, i = .rxbyte b ∧ s.port = .I
  · obtain ⟨b, rfl, hq⟩ := hi
    rw [exec_rxbyte hq] at h; cases h
    exact ⟨s.transport.byteReceived_wake, fun _ => ⟨b, rfl⟩⟩
  · have hquiet : ¬ t.wake = true := fun hw => hi (exec_wake h hw)
    refine ⟨iff_of_false hquiet fun ⟨hlow, hhigh⟩ => hi ?_, fun hw => absurd hw hquiet⟩
    obtain ⟨tr, r, out, fr, rfl, hmove, -⟩ := exec_moves h
    obtain ⟨b, hop, hq, -⟩ := hmove.lineReady_rises hlow hhigh
    exact ⟨b, hop, hq⟩

/-! ### The receive-path state machine (R133) -/

section
variable {p : TransportParams} {t t' : Transport p} {i : Instr} {q : Port} {tx : Option Byte}

theorem Transport.rxState_eq_lineReady_iff : t.rxState = .lineReady ↔ t.lineReady = true := by
  unfold Transport.rxState
  cases t.lineReady <;> by_cases h0 : t.rxLen.val = 0 <;> simp [h0]

theorem Transport.rxState_eq_idle_iff : t.rxState = .idle ↔ t.lineReady = false ∧ t.rxLen.val = 0 := by
  unfold Transport.rxState
  cases t.lineReady <;> by_cases h0 : t.rxLen.val = 0 <;> simp [h0]

theorem Transport.rxState_eq_accumulating_iff :
    t.rxState = .accumulating ↔ t.lineReady = false ∧ t.rxLen.val ≠ 0 := by
  unfold Transport.rxState
  cases t.lineReady <;> by_cases h0 : t.rxLen.val = 0 <;> simp [h0]

/-- The state of the receive path is read off the receive side alone. -/
theorem Transport.rxState_congr (e : t'.rx = t.rx ∧ t'.rxLen = t.rxLen ∧ t'.lineReady = t.lineReady) :
    t'.rxState = t.rxState := by
  obtain ⟨-, hlen, hr⟩ := e
  rw [Transport.rxState, hlen, hr, Transport.rxState]

theorem Transport.Move.rxState (h : t.Move i q t' tx) (hi : i ≠ .reset) (hne : t'.rxState ≠ t.rxState) :
    (∃ b, i = .rxbyte b) ∧ q = .I ∧ t.rxState ≠ .lineReady ∨ i = .poll ∧ q = .M ∧ t.rxState = .lineReady := by
  by_cases htx : Transmits i
  · exact absurd (rxState_congr (h.rx_of_transmits htx)) hne
  · cases h with
    | stay => exact absurd rfl hne
    | poll hr => exact .inr ⟨rfl, rfl, rxState_eq_lineReady_iff.mpr hr⟩
    | rxbyte b =>
      refine .inl ⟨⟨b, rfl⟩, rfl, fun hr => hne ?_⟩
      rw [byteReceived_ready (rxState_eq_lineReady_iff.mp hr)]
    | reset => exact absurd rfl hi
    | enq | send | kick | txrdy => simp [Transmits] at htx

end

/-- Settles O36: each row is one case of the handler or of `POLL`; no other move changes the state. -/
theorem receiveStateMachine : Obligations.ReceiveStateMachine := by
  refine fun s t => ⟨fun b hq h => ?_, fun hq h => ?_, fun i h hi hne => ?_⟩
  · rw [exec_rxbyte hq] at h; cases h
    simp only [Transport.rxState_eq_idle_iff, Transport.rxState_eq_accumulating_iff,
      Transport.rxState_eq_lineReady_iff]
    refine ⟨?_, ?_, ?_, ?_, ?_, ?_, ?_⟩
    · rintro ⟨hr, h0⟩ hb hl
      rw [Transport.byteReceived_payload hr (by omega) hb]
      exact ⟨⟨hr, Nat.succ_ne_zero _⟩, by simp [State.readRx, h0], by simp [State.regs, h0]⟩
    · rintro ⟨hr, h0⟩ hb hl
      rw [Transport.byteReceived_blank hr (by omega) hb h0]
      exact ⟨⟨hr, rfl⟩, by simp [State.readRx, h0], rfl⟩
    · rintro ⟨hr, h0⟩ hl
      rw [Transport.byteReceived_full hr (h0.trans hl.symm)]
      exact ⟨⟨hr, rfl⟩, rfl⟩
    · rintro ⟨hr, h0⟩ hl hb
      rw [Transport.byteReceived_payload hr hl hb]
      exact ⟨⟨hr, Nat.succ_ne_zero _⟩, CellMem.read_write_same _ _ b, rfl⟩
    · rintro ⟨hr, h0⟩ hl hb
      rw [Transport.byteReceived_line hr hl hb h0]
      exact ⟨rfl, CellMem.read_write_same _ _ b, rfl, Nat.succ_le_succ (Nat.pos_of_ne_zero h0), rfl⟩
    · rintro ⟨hr, h0⟩ hl
      rw [Transport.byteReceived_full hr hl]
      exact ⟨⟨hr, rfl⟩, rfl, rfl, fun _ => rfl⟩
    · intro hr
      rw [Transport.byteReceived_ready hr]
      exact ⟨hr, rfl, rfl, fun _ => rfl⟩
  · simp only [ne_eq, Transport.rxState_eq_lineReady_iff, Transport.rxState_eq_idle_iff]
    cases hr : s.transport.lineReady
    · rw [exec_poll_noLine hq hr] at h; cases h
      exact ⟨fun hready => (nomatch hready), fun _ => ⟨rfl, rfl⟩⟩
    · rw [exec_poll hq, if_neg (by simp [hr])] at h
      split at h <;> cases h
      exact ⟨fun _ => ⟨⟨rfl, rfl⟩, rfl, rfl, rfl⟩, fun hno => absurd rfl hno⟩
  · obtain ⟨tr, r, out, fr, rfl, hmove, -⟩ := exec_moves h
    exact hmove.rxState hi hne

/-! ### A line in the making -/

/-- The line a transport would deliver has no terminator, by I3 of a line that is ready and I4 of one that is not. -/
theorem Transport.RxInv.line_payload {p : TransportParams} {t : Transport p} (h : t.RxInv) :
    ∀ b ∈ t.line, isTerm b = false := by
  intro b hb
  obtain ⟨j, hj, rfl⟩ := List.mem_map.mp hb
  have hlt : j < t.rxLen.val - 1 := List.mem_range.mp hj
  cases hr : t.lineReady
  · exact h.partialLine hr j (by omega)
  · exact h.linePrefix hr j (by omega)

/-- Settles O45: only a `POLL` returns a line, that of the state before it. -/
theorem deliveredLinesAreFramed : Obligations.DeliveredLinesAreFramed := by
  intro i s t bs hinv h hbs
  obtain ⟨-, -, hlen, rfl⟩ := (exec_returns h).line_some hbs
  have hlength := s.transport.line_length
  have hrange := s.transport.rxLen.isLt
  exact ⟨by omega, by omega, hinv.rx.line_payload⟩

/-- A write at `n` leaves the cells below it as they are. -/
theorem CellMem.map_read_write (m : CellMem) (n : Nat) (b : Byte) :
    (List.range n).map (m.write n b).read = (List.range n).map m.read :=
  List.map_congr_left fun _ hj => m.read_write_other b (List.mem_range.mp hj).ne

/-- No line is ready, and the bytes accumulated so far are `held`. -/
structure Transport.Holds {p : TransportParams} (t : Transport p) (held : List Byte) : Prop where
  notReady : t.lineReady = false
  bytes    : (List.range t.rxLen.val).map t.rx.read = held

section
variable {p : TransportParams} {t : Transport p} {held : List Byte}

theorem Transport.Holds.rxLen (h : t.Holds held) : t.rxLen.val = held.length := by
  rw [← h.bytes, List.length_map, List.length_range]

theorem Transport.holds_nil_iff : t.Holds [] ↔ t.rxState = .idle := by
  rw [rxState_eq_idle_iff]
  exact ⟨fun h => ⟨h.notReady, h.rxLen⟩, fun ⟨hr, h0⟩ => ⟨hr, by rw [h0]; rfl⟩⟩

end

section
variable {s : State} {held : List Byte} {b : Byte} (h : s.transport.Holds held)
include h

/-- A payload byte, with room for it: one more byte is held. -/
theorem perform_rxbyte_payload (hb : isTerm b = false) (hroom : held.length < s.tp.l) :
    ∃ u, s.perform .I (.rxbyte b) = .next u ∧ u.tp = s.tp ∧ u.out = Result.silent ∧
      u.transport.Holds (held ++ [b]) := by
  have hlen := h.rxLen
  refine ⟨_, perform_rxbyte s b, rfl, ?_⟩
  rw [Transport.byteReceived_payload h.notReady (by omega) hb]
  refine ⟨rfl, h.notReady, ?_⟩
  show (List.range (s.transport.rxLen.val + 1)).map (s.transport.rx.write s.transport.rxLen.val b).read = held ++ [b]
  rw [List.range_succ, List.map_append, CellMem.map_read_write, h.bytes, List.map_singleton, CellMem.read_write_same]

/-- A terminator after at least one byte, with room for it: the bytes held are the line that waits. -/
theorem perform_rxbyte_term (hb : isTerm b = true) (hne : 1 ≤ held.length) (hroom : held.length < s.tp.l) :
    ∃ u, s.perform .I (.rxbyte b) = .next u ∧ u.out.line = none ∧ u.transport.lineReady = true ∧
      u.transport.line = held := by
  have hlen := h.rxLen
  refine ⟨_, perform_rxbyte s b, rfl, ?_⟩
  rw [Transport.byteReceived_line h.notReady (by omega) hb (by omega)]
  exact ⟨rfl, (CellMem.map_read_write _ _ b).trans h.bytes⟩

/-- Any byte at a full buffer (R136): the path is idle again, and nobody is told. -/
theorem perform_rxbyte_overflow (hfull : held.length = s.tp.l) :
    ∃ u, s.perform .I (.rxbyte b) = .next u ∧ u.out = Result.silent ∧ u.transport.rxState = .idle := by
  refine ⟨_, perform_rxbyte s b, ?_⟩
  rw [Transport.byteReceived_full h.notReady (h.rxLen.trans hfull)]
  exact ⟨rfl, Transport.rxState_eq_idle_iff.mpr ⟨h.notReady, rfl⟩⟩

end

theorem perform_poll_delivers {s : State} (hr : s.transport.lineReady = true) (hne : 1 ≤ s.transport.line.length) :
    ∃ u, s.perform .M .poll = .next u ∧ u.out.line = some s.transport.line ∧ u.transport.rxState = .idle := by
  have hlength := s.transport.line_length
  exact ⟨_, perform_poll_line s hr (by omega), rfl, Transport.rxState_eq_idle_iff.mpr ⟨rfl, rfl⟩⟩

theorem perform_poll_idle {s : State} (hidle : s.transport.rxState = .idle) :
    ∃ u, s.perform .M .poll = .next u ∧ u.out.line = none ∧ u.transport.rxState = .idle :=
  ⟨_, perform_poll_none s (Transport.rxState_eq_idle_iff.mp hidle).1, rfl, hidle⟩

/-! ### Whole lines (R134, R136, R138) -/

/-- As many payload bytes as there is room for are accumulated, in silence. -/
theorem runOps_payload (bs held : List Byte) (s : State) (h : s.transport.Holds held)
    (hpay : ∀ b ∈ bs, isTerm b = false) (hroom : held.length + bs.length ≤ s.tp.l) :
    ∃ t es, runOps s (bs.map fun b => ⟨.I, .rxbyte b⟩) = some (t, es) ∧ t.tp = s.tp ∧
      t.transport.Holds (held ++ bs) ∧ ∀ e ∈ es, e.out = Result.silent := by
  induction bs generalizing held s with
  | nil => exact ⟨s, [], rfl, rfl, by rwa [List.append_nil], fun _ he => absurd he List.not_mem_nil⟩
  | cons b bs ih =>
    rw [List.length_cons] at hroom
    obtain ⟨hb, hbs⟩ := List.forall_mem_cons.mp hpay
    obtain ⟨u, hfirst, hutp, hsilent, hu⟩ := perform_rxbyte_payload h hb (by omega)
    obtain ⟨t, es, hrun, http, ht, hes⟩ := ih (held ++ [b]) u hu hbs (by
      rw [hutp, List.length_append, List.length_singleton]
      omega)
    refine ⟨t, _, by rw [List.map_cons, runOps_cons _ hfirst, hrun]; rfl, http.trans hutp, ?_, ?_⟩
    · rwa [List.append_assoc] at ht
    · exact List.forall_mem_cons.mpr ⟨hsilent, hes⟩

theorem linesDelivered_append (es fs : List Event) :
    linesDelivered (es ++ fs) = linesDelivered es ++ linesDelivered fs := List.filterMap_append

theorem linesDelivered_silent {es : List Event} (h : ∀ e ∈ es, e.out = Result.silent) : linesDelivered es = [] :=
  List.filterMap_eq_nil_iff.mpr fun e he => by rw [h e he]; rfl

/-- A terminator and two `POLL`s deliver the bytes held, once. -/
theorem runOps_term_poll_poll {s : State} {held : List Byte} {term : Byte} (h : s.transport.Holds held)
    (hterm : isTerm term = true) (hne : 1 ≤ held.length) (hroom : held.length < s.tp.l) :
    ∃ t es, runOps s [⟨.I, .rxbyte term⟩, ⟨.M, .poll⟩, ⟨.M, .poll⟩] = some (t, es) ∧ linesDelivered es = [held] ∧
      t.transport.rxState = .idle := by
  obtain ⟨u, hreceive, huline, hready, hline⟩ := perform_rxbyte_term h hterm hne hroom
  obtain ⟨v, hpoll, hvline, hvidle⟩ := perform_poll_delivers hready (hline ▸ hne)
  obtain ⟨t, hagain, htline, hidle⟩ := perform_poll_idle hvidle
  refine ⟨t, _, by rw [runOps_cons _ hreceive, runOps_cons _ hpoll, runOps_cons _ hagain]; rfl, ?_, hidle⟩
  rw [linesDelivered_cons, linesDelivered_cons, linesDelivered_cons, huline, hvline, htline, hline]; rfl

/-- Settles O43: the payload is accumulated, and a terminator and two `POLL`s deliver what is held. -/
theorem framedLineIsDelivered : Obligations.FramedLineIsDelivered := by
  intro s bs term hidle hpay hterm hne hroom
  obtain ⟨u, es, hrun, htp, hu, hes⟩ :=
    runOps_payload bs [] s (Transport.holds_nil_iff.mpr hidle) hpay (by rw [List.length_nil]; omega)
  obtain ⟨t, fs, hlast, hfs, htidle⟩ := runOps_term_poll_poll hu hterm hne (by rw [htp]; exact hroom)
  refine ⟨t, es ++ fs, runOps_append hrun hlast, ?_, htidle⟩
  rw [linesDelivered_append, linesDelivered_silent hes, hfs]; rfl

/-- Settles O44: the payload fills the buffer, and the next byte empties it. -/
theorem overlongLineIsDiscarded : Obligations.OverlongLineIsDiscarded := by
  intro s bs b hidle hpay hfull
  obtain ⟨u, es, hrun, htp, hu, hes⟩ :=
    runOps_payload bs [] s (Transport.holds_nil_iff.mpr hidle) hpay (by rw [List.length_nil]; omega)
  obtain ⟨t, hlast, hsilent, htidle⟩ := perform_rxbyte_overflow (b := b) hu (by rw [htp]; exact hfull)
  have hend : runOps u [⟨.I, .rxbyte b⟩] = some (t, [⟨.I, .rxbyte b, t.out⟩]) := runOps_cons [] hlast
  refine ⟨t, _, runOps_append hrun hend, htidle, fun e he => ?_⟩
  obtain he | he := List.mem_append.mp he
  · exact hes e he
  · rw [List.mem_singleton.mp he]; exact hsilent

end Sys2Proof.Machine
end

section
/-! PROOFS. The statements of `43_system.md`: `NOP` (R150), `RESET` and its precedence (R151), and the mainline's `WAIT`
(R153). -/

namespace Sys2Proof.Machine

/-! ### `WAIT` and the wake by level (`43_system.md` R153, `70_reset_and_hazards.md` R210) -/

/-- A mainline at a `WAIT` presents no word at port M. -/
theorem mainWord_wait {s : State} {rest : List MainStep} (h : s.agents.main = .wait :: rest) : s.mainWord = none := by
  simp [State.mainWord, h, MainStep.word?]

/-- The turn of a runnable mainline at a `WAIT`. -/
theorem agentTurn_wait {s : State} {rest : List MainStep} (hrun : s.blocked = false)
    (h : s.agents.main = .wait :: rest) : s.agentTurn .M = s.quietStep (s.wait s.useTurn) := by
  simp [State.agentTurn, hrun, h]

/-- The step that takes a `WAIT`. -/
theorem step_wait {s : State} {rest : List MainStep} (hserved : s.served = some .M) (hrun : s.blocked = false)
    (h : s.agents.main = .wait :: rest) : step s = .next (s.quietStep (s.wait s.useTurn)) := by
  rw [step_turn s hserved (mainWord_wait h), agentTurn_wait hrun h]

@[simp] theorem wait_suspended (s : State) (a : Agents) : (s.wait a).suspended = !s.transport.lineReady := rfl
@[simp] theorem wait_main (s : State) (a : Agents) : (s.wait a).main = a.main.tail := rfl
@[simp] theorem quietStep_main (s : State) (a : Agents) : (s.quietStep a).agents.main = a.main := rfl

/-- While the mainline is blocked, only a `RESET` stands at port M. -/
theorem mainWord_of_blocked {s : State} {w : Cmd} (hblocked : s.blocked = true) (h : s.mainWord = some w) :
    w = resetWord := by
  by_contra hne
  simp [State.mainWord, head?_of_mainWord h, hblocked, hne] at h

/-- The operation a step takes stands, as a word, at the port that is served. -/
theorem standing_of_nextOp {s : State} {q : Port} {i : Instr} (h : s.nextOp = some (q, i)) :
    s.served = some q ∧ ∃ w, s.standing q = some w ∧ decode w = some i := by
  unfold State.nextOp at h
  split at h
  · cases h
  · rename_i p hserved
    obtain ⟨j, hj, hpair⟩ := Option.map_eq_some_iff.mp h
    cases hpair
    exact ⟨hserved, Option.bind_eq_some_iff.mp hj⟩

/-- Settles O10: at a `WAIT` the turn finds no word; a blocked mainline's word is `RESET`; and every step ends by testing
the level (`step_asleep`). -/
theorem waitAndWakeAreByLevel : Obligations.WaitAndWakeAreByLevel := by
  refine ⟨fun s rest hserved hawake hmain => ?_, fun s i hsuspended hready hnext => ?_, fun s t => step_asleep⟩
  · have hrun : s.blocked = false := by rw [State.blocked, hawake, Bool.false_and]
    exact ⟨_, step_wait hserved hrun hmain, quietStep_eq s _, by simp [hmain], by simp⟩
  · have hblocked : s.blocked = true := by rw [State.blocked, hsuspended, hready]; rfl
    obtain ⟨-, w, hword, hdecode⟩ := standing_of_nextOp hnext
    rw [mainWord_of_blocked hblocked hword, resetWord, decode_encode] at hdecode
    exact (Option.some.inj hdecode).symm

/-! ### `RESET` is taken first (`43_system.md` R151, `60_exceptions.md` R166) -/

/-- Where a `RESET` stands at some port, `resetPort` finds a port at which one does. -/
theorem resetPort_of_standing {s : State} {q : Port} (h : s.standing q = some resetWord) :
    ∃ q', s.resetPort = some q' ∧ s.standing q' = some resetWord := by
  have hfound : s.resetPort.isSome = true :=
    List.find?_isSome.mpr ⟨q, by cases q <;> decide, beq_iff_eq.mpr h⟩
  obtain ⟨q', hq'⟩ := Option.isSome_iff_exists.mp hfound
  exact ⟨q', hq', by simpa using List.find?_some hq'⟩

/-- Settles O8: the port of a standing `RESET` is served before the order of service is asked. -/
theorem resetIsTakenFirst : Obligations.ResetIsTakenFirst := by
  intro s q hreset
  obtain ⟨q', hport, hstanding⟩ := resetPort_of_standing (show s.standing q = some resetWord from hreset)
  have hserved : s.served = some q' := by rw [State.served, hport, Option.some_or]
  exact ⟨q', nextOp_of s hserved hstanding (decode_encode .reset)⟩

/-! ### What `NOP` and `RESET` answer (`43_system.md` R150, R151) -/

theorem exec_nop {s : State} (hq : s.port = .M ∨ s.port = .P) : exec .nop s = .next (s.respond .ok) :=
  accepting_yes s .nop _ (by simpa [accepts_nop] using hq)

/-- Settles O16: both ports accept `NOP`, and `respond` writes the outcome only. -/
theorem nopChangesNothing : Obligations.NopChangesNothing := ⟨decode_encode .nop, fun _ => exec_nop⟩

/-- The outcome of a `RESET`: `OK` at a port that responds. -/
def State.resetResult (s : State) : Result := { Result.silent with status := if s.port = .I then none else some .ok }

theorem exec_reset_at_transport {s : State} (hq : s.port = .M ∨ s.port = .I) :
    exec .reset s = .next (s.resetTransport.setOut s.resetResult) := by
  simp only [exec, execReset, accepting_yes _ _ _ (accepts_reset _), State.resetResult]
  obtain hq | hq := hq <;> rw [hq] <;> rfl

theorem exec_reset_at_standalone {s : State} (hq : s.port = .P ∨ s.port = .C) :
    exec .reset s = .next (s.resetStandalone.respond .ok) := by
  simp only [exec, execReset, accepting_yes _ _ _ (accepts_reset _)]
  obtain hq | hq := hq <;> rw [hq]

theorem regs_resetTransport (s : State) : s.resetTransport.regs =
    { s.regs with head := 0, tail := 0, txActive := false, rxLen := 0, lineReady := false } := by
  simp [State.regs, Transport.reset, Ring.reset]

theorem regs_resetStandalone (s : State) : s.resetStandalone.regs = { s.regs with ringHead := 0, ringTail := 0 } := by
  simp [State.regs, Ring.reset]

/-- Settles O17: each reset clears the registers of its own side (`regs_resetTransport`, `regs_resetStandalone`) and otherwise
writes cells, outcome and seeds only. -/
theorem resetClearsTheRegisters : Obligations.ResetClearsTheRegisters :=
  ⟨decode_encode .reset,
    fun s hq => ⟨_, exec_reset_at_transport hq, regs_resetTransport s, ⟨_, _, rfl⟩, rfl⟩,
    fun s hq => ⟨_, exec_reset_at_standalone hq, regs_resetStandalone s, ⟨_, _, rfl⟩, rfl⟩⟩

end Sys2Proof.Machine
end

section
/-! PROOFS. The statement of `60_exceptions.md`: there are no fatal errors (R161). -/

namespace Sys2Proof.Machine

/-- A step goes on if the operation it takes, if it takes one, answers: an idle step, a turn without a request and a
reserved word (`43_system.md` R152) go on in every state. -/
theorem step_safe_of_exec_answers {s : State}
    (h : ∀ q i, s.nextOp = some (q, i) → ∃ t, exec i (s.take q) = .next t) : Safe (step s) := by
  cases hserved : s.served with
  | none => exact ⟨_, step_idle s hserved⟩
  | some q =>
    cases hstanding : s.standing q with
    | none => exact ⟨_, step_turn s hserved hstanding⟩
    | some w =>
      cases hdecode : decode w with
      | none => exact ⟨_, step_reserved s hserved hstanding hdecode⟩
      | some i =>
        obtain ⟨t, ht⟩ := h q i (nextOp_of s hserved hstanding hdecode)
        exact ⟨s.settle q (some i) t, by rw [step_taken s hserved hstanding hdecode, ht]; rfl⟩

/-- Settles O50: only an operation could stop the step, and under the receive invariant, which `take` leaves alone, every
operation answers. -/
theorem stepNeverStops : Obligations.StepNeverStops := fun s hs =>
  step_safe_of_exec_answers fun q i _ => exec_answers_of_rxInv i (s.take q) hs.rx

end Sys2Proof.Machine
end

section
/-! PROOFS. The equivalence for the ring (`70_reset_and_hazards.md` R203). Whether a `PUT` will be refused is settled when
it reads `tail`, and whether a `GET` will find nothing when it reads `head`; one that fails takes effect there, one that
succeeds when it publishes its counter. `PutPc.Pending` and `PutPc.Refused` say where a `PUT` stands before and after the
whole `PUT` has been taken, `GetPc.Pending` and `GetPc.Refused` the same of a `GET`; `MicroRing.Sim` is the simulation. -/

namespace Sys2Proof.Machine

/-! ### A `PUT` in micro-steps (R201) -/

/-- A `PUT` of `b` that stands at `pc`, in the ring `r`, before the whole `PUT` is taken: with whole operations the ring
is `r0`, which lacks the cell the `PUT` has written. Past its first read it is sure to succeed. -/
inductive PutPc.Pending {p : RingParams} (r : Ring p) : PutPc p → Byte → Ring p → Prop where
  | p1 (b : Byte) : Pending r (.p1 b) b r
  | p2 (b : Byte) (t : BitVec p.cw) (ht : r.head - t ≠ BitVec.ofNat p.cw p.cap) (hroom : r.occ.toNat < p.cap) :
    Pending r (.p2 b t) b r
  | p3 (b : Byte) (t : BitVec p.cw) (ht : r.head - t ≠ BitVec.ofNat p.cw p.cap) (hroom : r.occ.toNat < p.cap) :
    Pending r (.p3 b t r.head) b r
  | p4 (b : Byte) (hroom : r.occ.toNat < p.cap) : Pending r (.p4 b r.head) b r
  | p5 (b : Byte) (tx : CellMem) (hroom : r.occ.toNat < p.cap) (htx : r.tx = tx.write (cellOf r.head) b) :
    Pending r (.p5 r.head) b { r with tx := tx }

/-- A `PUT` that stands at `pc` and is sure to overflow: the whole `PUT` is taken. -/
inductive PutPc.Refused {p : RingParams} (r : Ring p) : PutPc p → Prop where
  | p2 (b : Byte) (t : BitVec p.cw) (ht : r.head - t = BitVec.ofNat p.cw p.cap) : Refused r (.p2 b t)
  | p3 (b : Byte) (t : BitVec p.cw) (ht : r.head - t = BitVec.ofNat p.cw p.cap) : Refused r (.p3 b t r.head)

/-- To a consumer the ring `r` is the ring `r0`: the same counters, and the same byte at the front if there is one. -/
structure Ring.Agrees {p : RingParams} (r r0 : Ring p) : Prop where
  head  : r.head = r0.head
  tail  : r.tail = r0.tail
  front : r0.isEmpty = false → r.tx.read r0.getCell = r0.tx.read r0.getCell

section
variable {p : RingParams} {r r0 : Ring p} {b : Byte} {pc : PutPc p}

theorem Ring.Agrees.refl (r : Ring p) : r.Agrees r := ⟨rfl, rfl, fun _ => rfl⟩

theorem Ring.isFull_eq_false_of_room (h : r.occ.toNat < p.cap) : r.isFull = false := by
  rw [← Bool.not_eq_true, r.isFull_iff]; omega

/-- The cell a pending `PUT` has written is not the one at the front (R203). -/
theorem PutPc.Pending.agrees (h : pc.Pending r b r0) : r.Agrees r0 := by
  cases h with
  | p1 => exact .refl r
  | p2 => exact .refl r
  | p3 => exact .refl r
  | p4 => exact .refl r
  | p5 _ tx hroom htx =>
    refine ⟨rfl, rfl, fun he => ?_⟩
    have hcell := Ring.getCell_ne_putCell { r with tx := tx } (Ring.isFull_eq_false_of_room hroom) he hroom.le
    rw [htx]
    exact CellMem.read_write_other _ _ hcell

theorem PutPc.Pending.ne_done (h : pc.Pending r b r0) (st : Status) : pc ≠ .done st := by
  rintro rfl; cases h

theorem PutPc.Refused.ne_done (h : pc.Refused r) (st : Status) : pc ≠ .done st := by
  rintro rfl; cases h

/-- A micro-step of a pending `PUT` goes on, or finds the ring full, where the whole `PUT` overflows, or publishes, where
the whole `PUT` succeeds. -/
theorem PutPc.Pending.step (h : pc.Pending r b r0) (hb : r0.occ.toNat ≤ p.cap) :
    (putStep r pc).2.Pending (putStep r pc).1 b r0 ∨
    ((putStep r pc).2.Refused r0 ∧ (putStep r pc).1 = r0 ∧ r0.put b = (r0, .overflow)) ∨
    ((putStep r pc).2 = .done .ok ∧ r0.put b = ((putStep r pc).1, .ok)) := by
  cases h with
  | p1 =>
    cases hf : r.isFull with
    | true => exact .inr (.inl ⟨.p2 b r.tail (beq_iff_eq.mp hf), rfl, r.put_full b hf⟩)
    | false => exact .inl (.p2 b r.tail (beq_eq_false_iff_ne.mp hf) (r.occ_lt_of_room hf hb))
  | p2 _ t ht hroom => exact .inl (.p3 b t ht hroom)
  | p3 _ t ht hroom =>
    simp only [putStep, if_neg ht]
    exact .inl (.p4 b hroom)
  | p4 _ hroom => exact .inl (.p5 (r := { r with tx := r.tx.write (cellOf r.head) b }) b r.tx hroom rfl)
  | p5 _ tx hroom htx =>
    refine .inr (.inr ⟨rfl, ?_⟩)
    rw [Ring.put_room { r with tx := tx } b (Ring.isFull_eq_false_of_room hroom), Ring.putCell, ← htx]
    rfl

theorem PutPc.Refused.step (h : pc.Refused r) :
    (putStep r pc).1 = r ∧ ((putStep r pc).2.Refused r ∨ (putStep r pc).2 = .done .overflow) := by
  cases h with
  | p2 b t ht => exact ⟨rfl, .inl (.p3 b t ht)⟩
  | p3 b t ht => exact ⟨rfl, .inr (if_pos ht)⟩

/-- A `GET` taken meanwhile only makes room. -/
theorem PutPc.Pending.tail_succ (h : pc.Pending r b r0) (he : r0.isEmpty = false) :
    pc.Pending { r with tail := r.tail + 1 } b { r0 with tail := r0.tail + 1 } := by
  have hocc := r0.occ_after_get he
  cases h with
  | p1 => exact .p1 b
  | p2 _ t ht hroom => exact .p2 b t ht (by omega)
  | p3 _ t ht hroom => exact .p3 (r := { r with tail := r.tail + 1 }) b t ht (by omega)
  | p4 _ hroom => exact .p4 (r := { r with tail := r.tail + 1 }) b (by omega)
  | p5 _ tx hroom htx =>
    have hless : (Ring.occ { r with tail := r.tail + 1 }).toNat + 1 = r.occ.toNat := hocc
    exact .p5 (r := { r with tail := r.tail + 1 }) b tx (by omega) htx

theorem PutPc.Refused.tail (h : pc.Refused r) (t : BitVec p.cw) : pc.Refused { r with tail := t } := by
  cases h with
  | p2 b t' ht => exact .p2 b t' ht
  | p3 b t' ht => exact .p3 (r := { r with tail := t }) b t' ht

end

/-! ### A `GET` in micro-steps (R202) -/

/-- A `GET` that stands at `pc` before the whole `GET` is taken, `r` being the ring with whole operations. Past its first
read it is sure to succeed. -/
inductive GetPc.Pending {p : RingParams} (r : Ring p) : GetPc p → Prop where
  | g1 : Pending r .g1
  | g2 (h : BitVec p.cw) (hne : h ≠ r.tail) (he : r.isEmpty = false) : Pending r (.g2 h)
  | g3 (h : BitVec p.cw) (hne : h ≠ r.tail) (he : r.isEmpty = false) : Pending r (.g3 h r.tail)
  | g4 (he : r.isEmpty = false) : Pending r (.g4 r.tail)
  | g5 (he : r.isEmpty = false) : Pending r (.g5 r.tail (r.tx.read r.getCell))

/-- A `GET` that stands at `pc` and is sure to report `EMPTY`: the whole `GET` is taken. -/
inductive GetPc.Refused {p : RingParams} (r : Ring p) : GetPc p → Prop where
  | g2 : Refused r (.g2 r.tail)
  | g3 : Refused r (.g3 r.tail r.tail)

section
variable {p : RingParams} {r r0 : Ring p} {pc : GetPc p}

theorem GetPc.Pending.ne_done (h : pc.Pending r) (v : Option Byte) : pc ≠ .done v := by
  rintro rfl; cases h

theorem GetPc.Refused.ne_done (h : pc.Refused r) (v : Option Byte) : pc ≠ .done v := by
  rintro rfl; cases h

/-- A micro-step of a pending `GET` goes on, or finds the ring empty, where the whole `GET` does, or publishes, where the
whole `GET` returns the same byte. -/
theorem GetPc.Pending.step (h : pc.Pending r0) (ha : r.Agrees r0) :
    ((getStep r pc).1 = r ∧ (getStep r pc).2.Pending r0) ∨
    ((getStep r pc).1 = r ∧ (getStep r pc).2.Refused r0 ∧ r0.isEmpty = true) ∨
    (r0.isEmpty = false ∧ (getStep r pc).1 = { r with tail := r.tail + 1 } ∧
      (getStep r pc).2 = .done (some (r0.tx.read r0.getCell))) := by
  cases h with
  | g1 =>
    rw [getStep, ha.head]
    cases he : r0.isEmpty with
    | true =>
      have heq : r0.head = r0.tail := beq_iff_eq.mp he
      exact .inr (.inl ⟨rfl, heq ▸ .g2, rfl⟩)
    | false => exact .inl ⟨rfl, .g2 r0.head (beq_eq_false_iff_ne.mp he) he⟩
  | g2 h hne he =>
    rw [getStep, ha.tail]
    exact .inl ⟨rfl, .g3 h hne he⟩
  | g3 h hne he =>
    rw [getStep, if_neg hne]
    exact .inl ⟨rfl, .g4 he⟩
  | g4 he =>
    have hfront : r.tx.read (cellOf r0.tail) = r0.tx.read r0.getCell := ha.front he
    rw [getStep, hfront]
    exact .inl ⟨rfl, .g5 he⟩
  | g5 he => exact .inr (.inr ⟨he, by rw [getStep, ha.tail], rfl⟩)

theorem GetPc.Refused.step (h : pc.Refused r0) (ha : r.Agrees r0) :
    (getStep r pc).1 = r ∧ ((getStep r pc).2.Refused r0 ∨ (getStep r pc).2 = .done none) := by
  cases h with
  | g2 =>
    rw [getStep, ha.tail]
    exact ⟨rfl, .inl .g3⟩
  | g3 => exact ⟨rfl, .inr (if_pos rfl)⟩

/-- A `PUT` taken meanwhile leaves the byte at the front where it is. -/
theorem GetPc.Pending.put (h : pc.Pending r) (b : Byte) (hf : r.isFull = false) (hb : r.occ.toNat ≤ p.cap) :
    pc.Pending (r.put b).1 := by
  have he' := r.isEmpty_put b hf hb
  rw [r.put_room b hf] at he' ⊢
  cases h with
  | g1 => exact .g1
  | g2 h hne _ => exact .g2 h hne he'
  | g3 h hne _ => exact .g3 (r := { r with tx := r.tx.write r.putCell b, head := r.head + 1 }) h hne he'
  | g4 _ => exact .g4 (r := { r with tx := r.tx.write r.putCell b, head := r.head + 1 }) he'
  | g5 he =>
    have hfront := CellMem.read_write_other r.tx b (r.getCell_ne_putCell hf he hb)
    exact hfront ▸ .g5 (r := { r with tx := r.tx.write r.putCell b, head := r.head + 1 }) he'

theorem GetPc.Refused.put (h : pc.Refused r) (b : Byte) : pc.Refused (r.put b).1 := by
  have htail : (r.put b).1.tail = r.tail := by
    obtain ⟨_, e⟩ | ⟨_, e⟩ := r.put_cases b <;> rw [e]
  cases h with
  | g2 => exact htail ▸ .g2
  | g3 => exact htail ▸ .g3

end

/-! ### Two concurrent agents (R203) -/

/-- The producer of a ring `r`, beside the producer of whole operations on `r0`: what it does, has to do and has done. -/
inductive MicroRing.Producer {p : RingParams} (r : Ring p) :
    Ring p → Option (PutPc p) → List Byte → List Byte → List Status → List Status → Prop where
  | atRest (puts : List Byte) (log : List Status) : Producer r r none puts puts log log
  | pending {r0 : Ring p} {pc : PutPc p} {b : Byte} (h : pc.Pending r b r0) (puts : List Byte) (log : List Status) :
    Producer r r0 (some pc) puts (b :: puts) log log
  | refused {pc : PutPc p} (h : pc.Refused r) (puts : List Byte) (log : List Status) :
    Producer r r (some pc) puts puts log (log ++ [.overflow])

/-- The consumer, beside the consumer of whole operations on `r0`. -/
inductive MicroRing.Consumer {p : RingParams} (r0 : Ring p) :
    Option (GetPc p) → Nat → Nat → List (Option Byte) → List (Option Byte) → Prop where
  | atRest (gets : Nat) (log : List (Option Byte)) : Consumer r0 none gets gets log log
  | pending {pc : GetPc p} (h : pc.Pending r0) (gets : Nat) (log : List (Option Byte)) :
    Consumer r0 (some pc) gets (gets + 1) log log
  | refused {pc : GetPc p} (h : pc.Refused r0) (gets : Nat) (log : List (Option Byte)) :
    Consumer r0 (some pc) gets gets log (log ++ [none])

/-- The simulation: `a` takes whole operations, `m` micro-steps. -/
structure MicroRing.Sim {p : RingParams} (m a : MicroRing p) : Prop where
  rest     : a.atRest
  bounded  : a.ring.occ.toNat ≤ p.cap
  producer : Producer m.ring a.ring m.putting m.puts a.puts m.putLog a.putLog
  consumer : Consumer a.ring m.getting m.gets a.gets m.getLog a.getLog

namespace MicroRing

section
variable {p : RingParams} {r r0 : Ring p} {putting : Option (PutPc p)} {puts puts0 : List Byte}
  {putLog putLog0 : List Status} {getting : Option (GetPc p)} {gets gets0 : Nat} {getLog getLog0 : List (Option Byte)}

theorem Producer.agrees (h : Producer r r0 putting puts puts0 putLog putLog0) : r.Agrees r0 := by
  cases h with
  | atRest => exact .refl r
  | pending h => exact h.agrees
  | refused => exact .refl r

theorem Producer.tail_succ (h : Producer r r0 putting puts puts0 putLog putLog0) (he : r0.isEmpty = false) :
    Producer { r with tail := r.tail + 1 } { r0 with tail := r0.tail + 1 } putting puts puts0 putLog putLog0 := by
  cases h with
  | atRest => exact .atRest _ _
  | pending h => exact .pending (h.tail_succ he) _ _
  | refused h => exact .refused (h.tail _) _ _

theorem Consumer.put (h : Consumer r0 getting gets gets0 getLog getLog0) (b : Byte) (hf : r0.isFull = false)
    (hb : r0.occ.toNat ≤ p.cap) : Consumer (r0.put b).1 getting gets gets0 getLog getLog0 := by
  cases h with
  | atRest => exact .atRest _ _
  | pending h => exact .pending (h.put b hf hb) _ _
  | refused h => exact .refused (h.put b) _ _

end

section
variable {p : RingParams} {m a : MicroRing p}

theorem afterPut_done {x : Ring p × PutPc p} {st : Status} (h : x.2 = .done st) :
    m.afterPut x = { m with ring := x.1, putting := none, putLog := m.putLog ++ [st] } := by
  rw [afterPut, h]

theorem afterPut_more {x : Ring p × PutPc p} (h : ∀ st, x.2 ≠ .done st) :
    m.afterPut x = { m with ring := x.1, putting := some x.2 } := by
  rw [afterPut]
  split
  · exact absurd ‹_› (h _)
  · rfl

theorem afterGet_done {x : Ring p × GetPc p} {v : Option Byte} (h : x.2 = .done v) :
    m.afterGet x = { m with ring := x.1, getting := none, getLog := m.getLog ++ [v] } := by
  rw [afterGet, h]

theorem afterGet_more {x : Ring p × GetPc p} (h : ∀ v, x.2 ≠ .done v) :
    m.afterGet x = { m with ring := x.1, getting := some x.2 } := by
  rw [afterGet]
  split
  · exact absurd ‹_› (h _)
  · rfl

theorem whole_producer {b : Byte} {bs : List Byte} (h : a.puts = b :: bs) : a.whole .producer =
    { a with ring := (a.ring.put b).1, puts := bs, putLog := a.putLog ++ [(a.ring.put b).2] } := by
  rw [whole, h]

theorem whole_consumer_empty {n : Nat} (h : a.gets = n + 1) (he : a.ring.isEmpty = true) :
    a.whole .consumer = { a with gets := n, getLog := a.getLog ++ [none] } := by
  simp only [whole, h, a.ring.get_empty he]

theorem whole_consumer_some {n : Nat} (h : a.gets = n + 1) (he : a.ring.isEmpty = false) :
    a.whole .consumer = { a with
      ring := { a.ring with tail := a.ring.tail + 1 }, gets := n,
      getLog := a.getLog ++ [some (a.ring.tx.read a.ring.getCell)] } := by
  simp only [whole, h, a.ring.get_some he]

/-- A micro-step of a pending `PUT`: the whole `PUT` is taken in the same turn, or not yet. -/
theorem sim_afterPut_pending {pc : PutPc p} {b : Byte} (hrest : a.atRest) (hb : a.ring.occ.toNat ≤ p.cap)
    (hpc : pc.Pending m.ring b a.ring) (hputs : a.puts = b :: m.puts) (hlog : a.putLog = m.putLog)
    (hc : Consumer a.ring m.getting m.gets a.gets m.getLog a.getLog) :
    (m.afterPut (putStep m.ring pc)).Sim a ∨ (m.afterPut (putStep m.ring pc)).Sim (a.whole .producer) := by
  obtain hgo | ⟨href, hsame, hput⟩ | ⟨hdone, hput⟩ := hpc.step hb
  · left
    rw [afterPut_more hgo.ne_done]
    exact ⟨hrest, hb, by rw [hputs, hlog]; exact .pending hgo _ _, hc⟩
  · right
    rw [afterPut_more href.ne_done, whole_producer hputs, hput, hlog, hsame]
    exact ⟨hrest, hb, .refused href _ _, hc⟩
  · right
    have hf : a.ring.isFull = false := by
      obtain ⟨_, e⟩ | ⟨hf, _⟩ := a.ring.put_cases b
      · rw [hput] at e; cases congrArg Prod.snd e
      · exact hf
    have hc' := hc.put b hf hb
    have hb' := (a.ring.flow_put b hf hb).bounded
    rw [hput] at hc' hb'
    rw [afterPut_done hdone, whole_producer hputs, hput, hlog]
    exact ⟨hrest, hb', .atRest _ _, hc'⟩

theorem Sim.micro_producer (h : m.Sim a) : (m.micro .producer).Sim a ∨ (m.micro .producer).Sim (a.whole .producer) := by
  obtain ⟨r, puts, putting, putLog, gets, getting, getLog⟩ := m
  obtain ⟨r0, puts0, putting0, putLog0, gets0, getting0, getLog0⟩ := a
  obtain ⟨hrest, hb, hp, hc⟩ := h
  cases hp with
  | atRest =>
    cases puts with
    | nil => exact .inl ⟨hrest, hb, .atRest _ _, hc⟩
    | cons b bs =>
      exact sim_afterPut_pending (m := ⟨r, bs, none, putLog, gets, getting, getLog⟩) hrest hb (.p1 b) rfl rfl hc
  | pending hpc => exact sim_afterPut_pending (m := ⟨r, puts, _, putLog, gets, getting, getLog⟩) hrest hb hpc rfl rfl hc
  | @refused pc hpc =>
    left
    obtain ⟨hsame, hgo | hdone⟩ := hpc.step
    · show (afterPut _ (putStep r pc)).Sim _
      rw [afterPut_more hgo.ne_done, hsame]
      exact ⟨hrest, hb, .refused hgo _ _, hc⟩
    · show (afterPut _ (putStep r pc)).Sim _
      rw [afterPut_done hdone, hsame]
      exact ⟨hrest, hb, .atRest _ _, hc⟩

/-- A micro-step of a pending `GET`: the whole `GET` is taken in the same turn, or not yet. -/
theorem sim_afterGet_pending {pc : GetPc p} (hrest : a.atRest) (hb : a.ring.occ.toNat ≤ p.cap)
    (hp : Producer m.ring a.ring m.putting m.puts a.puts m.putLog a.putLog)
    (hpc : pc.Pending a.ring) (hgets : a.gets = m.gets + 1) (hlog : a.getLog = m.getLog) :
    (m.afterGet (getStep m.ring pc)).Sim a ∨ (m.afterGet (getStep m.ring pc)).Sim (a.whole .consumer) := by
  obtain ⟨hsame, hgo⟩ | ⟨hsame, href, he⟩ | ⟨he, hring, hdone⟩ := hpc.step hp.agrees
  · left
    rw [afterGet_more hgo.ne_done, hsame]
    exact ⟨hrest, hb, hp, by rw [hgets, hlog]; exact .pending hgo _ _⟩
  · right
    rw [afterGet_more href.ne_done, whole_consumer_empty hgets he, hsame, hlog]
    exact ⟨hrest, hb, hp, .refused href _ _⟩
  · right
    rw [afterGet_done hdone, whole_consumer_some hgets he, hring, hlog]
    exact ⟨hrest, (a.ring.flow_get he hb).bounded, hp.tail_succ he, .atRest _ _⟩

theorem Sim.micro_consumer (h : m.Sim a) : (m.micro .consumer).Sim a ∨ (m.micro .consumer).Sim (a.whole .consumer) := by
  obtain ⟨r, puts, putting, putLog, gets, getting, getLog⟩ := m
  obtain ⟨r0, puts0, putting0, putLog0, gets0, getting0, getLog0⟩ := a
  obtain ⟨hrest, hb, hp, hc⟩ := h
  cases hc with
  | atRest =>
    cases gets with
    | zero => exact .inl ⟨hrest, hb, hp, .atRest _ _⟩
    | succ n => exact sim_afterGet_pending (m := ⟨r, puts, putting, putLog, n, none, getLog⟩) hrest hb hp .g1 rfl rfl
  | pending hpc => exact sim_afterGet_pending (m := ⟨r, puts, putting, putLog, gets, _, getLog⟩) hrest hb hp hpc rfl rfl
  | @refused pc hpc =>
    left
    obtain ⟨hsame, hgo | hdone⟩ := hpc.step hp.agrees
    · show (afterGet _ (getStep r pc)).Sim _
      rw [afterGet_more hgo.ne_done, hsame]
      exact ⟨hrest, hb, hp, .refused hgo _ _⟩
    · show (afterGet _ (getStep r pc)).Sim _
      rw [afterGet_done hdone, hsame]
      exact ⟨hrest, hb, hp, .atRest _ _⟩

/-- Every micro-step is matched by a whole operation or by none. -/
theorem Sim.micro (h : m.Sim a) (side : Side) : (m.micro side).Sim a ∨ (m.micro side).Sim (a.whole side) := by
  cases side with
  | producer => exact h.micro_producer
  | consumer => exact h.micro_consumer

theorem Sim.run (h : m.Sim a) (turns : List Side) :
    ∃ order : List Side, (turns.foldl MicroRing.micro m).Sim (order.foldl MicroRing.whole a) := by
  induction turns generalizing m a with
  | nil => exact ⟨[], h⟩
  | cons side turns ih =>
    obtain hstep | hstep := h.micro side
    · exact ih hstep
    · obtain ⟨order, horder⟩ := ih hstep
      exact ⟨side :: order, horder⟩

theorem Sim.of_atRest (h : m.atRest) (hb : m.ring.occ.toNat ≤ p.cap) : m.Sim m :=
  ⟨h, hb, by rw [h.1]; exact .atRest _ _, by rw [h.2]; exact .atRest _ _⟩

theorem Sim.eq_of_atRest (h : m.Sim a) (hm : m.atRest) : a = m := by
  obtain ⟨r, puts, putting, putLog, gets, getting, getLog⟩ := m
  obtain ⟨r0, puts0, putting0, putLog0, gets0, getting0, getLog0⟩ := a
  obtain ⟨⟨rfl, rfl⟩, -, hp, hc⟩ := h
  obtain ⟨rfl, rfl⟩ := hm
  cases hp
  cases hc
  rfl

end

end MicroRing

/-- Settles O54: the simulation holds between a ring at rest and itself, every micro-step keeps it, and at rest it is
equality. -/
theorem ringMicroStepsAreWholeOperations : Obligations.RingMicroStepsAreWholeOperations := by
  intro p m turns hrest hb hend
  obtain ⟨order, hsim⟩ := (MicroRing.Sim.of_atRest hrest hb).run turns
  exact ⟨order, hsim.eq_of_atRest hend⟩

end Sys2Proof.Machine
end

section
/-! PROOFS. The equivalence for a preempted mainline (`70_reset_and_hazards.md` R205, R207). A `SEND`, `ENQ` or `KICK` takes
effect where its `PUT` does, or at its start if it has none; what is left of its bootstrap step is already done at the level
of whole operations. A `POLL` that found a line takes effect at its end. `MainPc.Pending` and `MainPc.Performed` say where a
mainline operation stands before and after the whole operation has been taken; `MicroTransport.Sim` is the simulation. -/

namespace Sys2Proof.Machine

/-! ### An `ENQ` or `SEND` as a `PUT` and what follows it (R204) -/

/-- The operation whose `PUT` is of `b`: a `SEND` if it goes on to the bootstrap step, an `ENQ` otherwise. -/
def MainOp.ofPut (boot : Bool) (b : Byte) : MainOp := if boot then .send b else .enq b

/-- What is left of a `SEND` or an `ENQ` after its `PUT`: the bootstrap step, or nothing. -/
def Transport.closing {p : TransportParams} (t : Transport p) (boot : Bool) : Transport p × Option Byte :=
  if boot then t.bootstrap else (t, none)

/-- The mainline operation ends with a status, a transport and the byte dispatched, if any. -/
def MicroTransport.conclude {p : TransportParams} (m : MicroTransport p) (st : Status) (x : Transport p × Option Byte) :
    MicroTransport p :=
  (({ m with transport := x.1 } : MicroTransport p).emit x.2).finish { status := st, line := none }

/-- At the level of whole operations, while the operation `op` in progress in `m` is still to be taken. -/
def MicroTransport.before {p : TransportParams} (m : MicroTransport p) (op : MainOp) (t0 : Transport p) :
    MicroTransport p :=
  { m with transport := t0, running := none, todo := op :: m.todo }

/-! ### Where a mainline operation stands -/

/-- A `POLL` stands at `pc` before the whole `POLL` is taken: with whole operations `rxLen` is `n`, which the `POLL` may
have cleared. Once it has found a line, no handler touches the line. -/
inductive MainPc.Polling {p : TransportParams} (t : Transport p) : MainPc p → Fin (p.l + 1) → Prop where
  | q1 : Polling t .q1 t.rxLen
  | q2 (hr : t.lineReady = true) : Polling t .q2 t.rxLen
  | q3 (k : Nat) (hr : t.lineReady = true) (hk : k ≤ t.rxLen.val - 1) :
    Polling t (.q3 t.rxLen.val ((List.range k).map t.rx.read)) t.rxLen
  | q4 (hr : t.lineReady = true) : Polling t (.q4 t.line) t.rxLen
  | q5 (n : Fin (p.l + 1)) (hr : t.lineReady = true) (h0 : t.rxLen = 0) :
    Polling t (.q5 (Transport.line { t with rxLen := n })) n

/-- The operation `op` stands at `pc` before the whole operation is taken: with whole operations the transport is `t0`, which
lacks the cell a `PUT` has written and has the `rxLen` a `POLL` has cleared. -/
inductive MainPc.Pending {p : TransportParams} (t : Transport p) : MainPc p → MainOp → Transport p → Prop where
  | put {pc : PutPc p.ring} {b : Byte} {r0 : Ring p.ring} (boot : Bool) (h : pc.Pending t.ring b r0) :
    Pending t (.put boot pc) (.ofPut boot b) { t with ring := r0 }
  | kick : Pending t (.k1 .ok) .kick t
  | poll {pc : MainPc p} {n : Fin (p.l + 1)} (h : pc.Polling t n) : Pending t pc .poll { t with rxLen := n }

/-- The operation stands at `pc` after the whole operation, which answers `st`, is taken: with whole operations the transport
is `x.1`, and the byte `x.2`, if any, is dispatched. -/
inductive MainPc.Performed {p : TransportParams} (t : Transport p) :
    MainPc p → Status → Transport p × Option Byte → Prop where
  | refused {pc : PutPc p.ring} (boot : Bool) (h : pc.Refused t.ring) :
    Performed t (.put boot pc) .overflow (t.closing boot)
  | k1 (st : Status) : Performed t (.k1 st) st t.bootstrap
  | k2 {pc : GetPc p.ring} (st : Status) (ha : t.txActive = false)
    (h : pc.Pending t.ring ∨ pc.Refused t.ring ∧ t.ring.isEmpty = true) : Performed t (.k2 st pc) st t.bootstrap
  | k3 (st : Status) (v : Byte) : Performed t (.k3 st v) st ({ t with txActive := true }, some v)
  | k4 (st : Status) (v : Byte) : Performed t (.k4 st v) st (t, some v)

/-- `a` takes whole operations and `m` micro-steps: the mainline is at rest and they are the same, or it is in an operation
that is still to be taken in `a`, or that is already taken in `a`. -/
inductive MicroTransport.Phase {p : TransportParams} (m a : MicroTransport p) : Prop where
  | atRest (hm : m.running = none) (ha : a = m)
  | pending {pc : MainPc p} {op : MainOp} {t0 : Transport p} (hm : m.running = some pc)
    (h : pc.Pending m.transport op t0) (ha : a = m.before op t0)
  | performed {pc : MainPc p} {st : Status} {x : Transport p × Option Byte} (hm : m.running = some pc)
    (h : pc.Performed m.transport st x) (ha : a = m.conclude st x)

/-- What whole operations keep under the environment contract: I1, and I5 as an equation (`10_state.md` R38). -/
structure MicroTransport.Lawful {p : TransportParams} (a : MicroTransport p) : Prop where
  bounded     : a.transport.ring.occ.toNat ≤ p.ring.cap
  oneInFlight : a.inflight = a.transport.txActive.toNat

/-- The simulation. -/
structure MicroTransport.Sim {p : TransportParams} (m a : MicroTransport p) : Prop where
  lawful : a.Lawful
  phase  : m.Phase a

/-! ### The handlers, at a transport -/

section
variable {p : TransportParams} (t : Transport p) (b : Byte)

/-- The byte-received handler beside another transmit side. -/
theorem Transport.byteReceived_beside (r : Ring p.ring) (act : Bool) :
    Transport.byteReceived { t with ring := r, txActive := act } b =
      ({ (t.byteReceived b).1 with ring := r, txActive := act }, (t.byteReceived b).2) :=
  Transport.byteReceived_join { t with ring := r, txActive := act } t b

theorem Transport.byteReceived_beside_ring (r : Ring p.ring) :
    Transport.byteReceived { t with ring := r } b = ({ (t.byteReceived b).1 with ring := r }, (t.byteReceived b).2) := by
  refine (t.byteReceived_beside b r t.txActive).trans ?_
  rw [← (t.byteReceived_tx b).2]

theorem Transport.byteReceived_beside_txActive (act : Bool) :
    Transport.byteReceived { t with txActive := act } b =
      ({ (t.byteReceived b).1 with txActive := act }, (t.byteReceived b).2) := by
  refine (t.byteReceived_beside b t.ring act).trans ?_
  rw [← (t.byteReceived_tx b).1]

/-- The bootstrap step and the byte-received handler, in either order (`20_memory.md` R63). -/
theorem Transport.byteReceived_bootstrap :
    t.bootstrap.1.byteReceived b = ((t.byteReceived b).1.bootstrap.1, (t.byteReceived b).2) ∧
      (t.byteReceived b).1.bootstrap.2 = t.bootstrap.2 := by
  have hboot := t.bootstrap_join (t.byteReceived b).1
  have hjoin : t.join (t.byteReceived b).1 = (t.byteReceived b).1 :=
    ((Effect.receiveSide_rxbyte b).eq_join t).symm
  rw [hjoin] at hboot
  rw [hboot]
  refine ⟨?_, rfl⟩
  have hrx := Transport.byteReceived_join t.bootstrap.1 t b
  have hself : t.bootstrap.1.join t = t.bootstrap.1 := (Effect.transmitSide_kick.eq_join t).symm
  rwa [hself] at hrx

/-- After a transmit-ready handler on an active transport the bootstrap step does nothing: it is still active, or empty. -/
theorem Transport.bootstrap_transmitReady (ha : t.txActive = true) :
    t.transmitReady.1.bootstrap = (t.transmitReady.1, none) := by
  refine t.transmitReady.1.bootstrap_quiet ?_
  obtain ⟨he, e⟩ | ⟨_, e⟩ := t.transmitReady_cases <;> rw [e]
  · exact .inr he
  · exact .inl ha

end

section
variable {p : TransportParams} {t t0 : Transport p} {pc : MainPc p} {op : MainOp} {st : Status}
  {x : Transport p × Option Byte}

theorem Ring.Agrees.isEmpty_eq {q : RingParams} {r r0 : Ring q} (h : r.Agrees r0) : r0.isEmpty = r.isEmpty := by
  rw [Ring.isEmpty, Ring.isEmpty, h.head, h.tail]

/-- A `POLL` is about the receive side alone. -/
theorem MainPc.Polling.of_rx_eq {t' : Transport p} {n : Fin (p.l + 1)} (h : pc.Polling t n)
    (e : t'.rx = t.rx ∧ t'.rxLen = t.rxLen ∧ t'.lineReady = t.lineReady) : pc.Polling t' n := by
  obtain ⟨_, _, rx, rxLen, lineReady⟩ := t
  obtain ⟨ring', txActive', rx', rxLen', lineReady'⟩ := t'
  obtain ⟨rfl, rfl, rfl⟩ : rx' = rx ∧ rxLen' = rxLen ∧ lineReady' = lineReady := e
  cases h with
  | q1 => exact .q1 (t := ⟨ring', txActive', rx', rxLen', lineReady'⟩)
  | q2 hr => exact .q2 (t := ⟨ring', txActive', rx', rxLen', lineReady'⟩) hr
  | q3 k hr hk => exact .q3 (t := ⟨ring', txActive', rx', rxLen', lineReady'⟩) k hr hk
  | q4 hr => exact .q4 (t := ⟨ring', txActive', rx', rxLen', lineReady'⟩) hr
  | q5 n hr h0 => exact .q5 (t := ⟨ring', txActive', rx', rxLen', lineReady'⟩) n hr h0

theorem MainPc.Polling.fresh_or_ready {n : Fin (p.l + 1)} (h : pc.Polling t n) :
    pc = .q1 ∧ n = t.rxLen ∨ t.lineReady = true := by
  cases h with
  | q1 => exact .inl ⟨rfl, rfl⟩
  | q2 hr => exact .inr hr
  | q3 _ hr _ => exact .inr hr
  | q4 hr => exact .inr hr
  | q5 _ hr _ => exact .inr hr

/-- The transmit-ready handler beside another `rxLen`. -/
theorem Transport.transmitReady_beside_rxLen (t : Transport p) (n : Fin (p.l + 1)) :
    Transport.transmitReady { t with rxLen := n } = ({ t.transmitReady.1 with rxLen := n }, t.transmitReady.2) := by
  obtain ⟨hrx, -, hready⟩ := t.transmitReady_rx
  refine (t.transmitReady_join { t with rxLen := n }).trans ?_
  rw [Transport.join, ← hrx, ← hready]

/-- A transmit-ready handler sees nothing of what a pending operation has done so far. -/
theorem MainPc.Pending.txrdy (h : pc.Pending t op t0) :
    t0.transmitReady.2 = t.transmitReady.2 ∧ pc.Pending t.transmitReady.1 op t0.transmitReady.1 := by
  cases h with
  | @put pc b r0 boot h =>
    have hsame := h.agrees.isEmpty_eq
    obtain ⟨he, e⟩ | ⟨he, e⟩ := t.transmitReady_cases
    · rw [Transport.transmitReady_empty { t with ring := r0 } (hsame.trans he), e]
      exact ⟨rfl, .put (t := { t with txActive := false }) boot h⟩
    · have he0 : r0.isEmpty = false := hsame.trans he
      have hfront : r0.tx.read r0.getCell = t.ring.tx.read t.ring.getCell := by
        rw [← h.agrees.front he0, Ring.getCell, Ring.getCell, h.agrees.tail]
      rw [Transport.transmitReady_dispatch { t with ring := r0 } he0, e]
      exact ⟨congrArg some hfront,
        .put (t := { t with ring := { t.ring with tail := t.ring.tail + 1 } }) boot (h.tail_succ he0)⟩
  | kick => exact ⟨rfl, .kick⟩
  | @poll _ n h =>
    rw [t.transmitReady_beside_rxLen n]
    exact ⟨rfl, .poll (h.of_rx_eq t.transmitReady_rx)⟩

/-- A byte-received handler does the same beside a pending operation: it is about the receive side, and a `POLL` that
found a line makes it discard its byte (R207). -/
theorem MainPc.Pending.rxbyte (h : pc.Pending t op t0) (b : Byte) :
    (t0.byteReceived b).2 = (t.byteReceived b).2 ∧ pc.Pending (t.byteReceived b).1 op (t0.byteReceived b).1 := by
  cases h with
  | @put pc b' r0 boot h =>
    rw [t.byteReceived_beside_ring b r0]
    exact ⟨rfl, .put (t := (t.byteReceived b).1) boot ((t.byteReceived_ring b).symm ▸ h)⟩
  | kick => exact ⟨rfl, .kick⟩
  | @poll _ n h =>
    obtain ⟨rfl, rfl⟩ | hr := h.fresh_or_ready
    · exact ⟨rfl, .poll .q1⟩
    · rw [Transport.byteReceived_ready (t := { t with rxLen := n }) hr, Transport.byteReceived_ready hr]
      exact ⟨rfl, .poll h⟩

/-- A transmit-ready handler after an operation that has dispatched nothing and left the transport active: what is left of
its bootstrap step will do nothing. With a byte still to dispatch there is no such handler, since none is in flight
(R205). -/
theorem MainPc.Performed.txrdy (h : pc.Performed t st x) (hx : x.2 = none) (ha : x.1.txActive = true) :
    x.1 = t ∧ pc.Performed t.transmitReady.1 st (t.transmitReady.1, none) := by
  have hquiet : t.bootstrap.2 = none → t.bootstrap.1.txActive = true →
      t.txActive = true ∧ t.bootstrap.1 = t := by
    obtain ⟨_, e⟩ | ⟨_, _, e⟩ | ⟨_, _, e⟩ := t.bootstrap_cases <;> simp [e]
  cases h with
  | @refused pc boot h =>
    have hring : pc.Refused t.transmitReady.1.ring := by
      obtain ⟨_, e⟩ | ⟨_, e⟩ := t.transmitReady_cases <;> rw [e]
      · exact h
      · exact h.tail _
    cases boot with
    | false => exact ⟨rfl, .refused false hring⟩
    | true =>
      obtain ⟨hact, hsame⟩ := hquiet hx ha
      exact ⟨hsame, t.bootstrap_transmitReady hact ▸ .refused true hring⟩
  | k1 st =>
    obtain ⟨hact, hsame⟩ := hquiet hx ha
    exact ⟨hsame, t.bootstrap_transmitReady hact ▸ .k1 st⟩
  | k2 st hidle h =>
    obtain ⟨hact, -⟩ := hquiet hx ha
    rw [hidle] at hact
    cases hact
  | k3 => cases hx
  | k4 => cases hx

/-- A byte-received handler and what is left of the transmit side of an operation, in either order. -/
theorem MainPc.Performed.rxbyte (h : pc.Performed t st x) (b : Byte) :
    (x.1.byteReceived b).2 = (t.byteReceived b).2 ∧
      pc.Performed (t.byteReceived b).1 st ((x.1.byteReceived b).1, x.2) := by
  have hring := t.byteReceived_ring b
  obtain ⟨hrx, hv⟩ := t.byteReceived_bootstrap b
  have hboot : (t.byteReceived b).1.bootstrap = ((t.bootstrap.1.byteReceived b).1, t.bootstrap.2) := by
    rw [hrx, ← hv]
  have hwake : (t.bootstrap.1.byteReceived b).2 = (t.byteReceived b).2 := by rw [hrx]
  cases h with
  | refused boot h =>
    cases boot with
    | false => exact ⟨rfl, .refused false (hring.symm ▸ h)⟩
    | true => exact ⟨hwake, hboot ▸ .refused true (hring.symm ▸ h)⟩
  | k1 st => exact ⟨hwake, hboot ▸ .k1 st⟩
  | k2 st ha h =>
    exact ⟨hwake, hboot ▸ .k2 st ((t.byteReceived_txActive b).trans ha) (hring.symm ▸ h)⟩
  | k3 st v =>
    rw [t.byteReceived_beside_txActive b true]
    exact ⟨rfl, .k3 st v⟩
  | k4 st v => exact ⟨rfl, .k4 st v⟩

end

/-! ### What the mainline does -/

section
variable {p : TransportParams} {m a : MicroTransport p}

theorem MicroTransport.conclude_quiet (m : MicroTransport p) (st : Status) (t : Transport p) :
    m.conclude st (t, none) = ({ m with transport := t } : MicroTransport p).finish { status := st, line := none } := by
  simp [MicroTransport.conclude, MicroTransport.emit]

theorem MicroTransport.mainAt_put_more {pc : PutPc p.ring} (boot : Bool)
    (h : ∀ st, (putStep m.transport.ring pc).2 ≠ .done st) :
    m.mainAt (.put boot pc) =
      ({ m with transport := { m.transport with ring := (putStep m.transport.ring pc).1 } } : MicroTransport p).goto
        (.put boot (putStep m.transport.ring pc).2) := by
  rw [mainAt]
  split
  · exact absurd ‹_› (h _)
  · rfl

theorem MicroTransport.mainAt_put_done {pc : PutPc p.ring} (boot : Bool) {st : Status}
    (h : (putStep m.transport.ring pc).2 = .done st) :
    m.mainAt (.put boot pc) =
      let m' : MicroTransport p :=
        { m with transport := { m.transport with ring := (putStep m.transport.ring pc).1 } }
      if boot then m'.goto (.k1 st) else m'.finish { status := st, line := none } := by
  rw [mainAt, h]

theorem MicroTransport.mainAt_k2_more {pc : GetPc p.ring} (st : Status)
    (h : ∀ v, (getStep m.transport.ring pc).2 ≠ .done v) :
    m.mainAt (.k2 st pc) =
      ({ m with transport := { m.transport with ring := (getStep m.transport.ring pc).1 } } : MicroTransport p).goto
        (.k2 st (getStep m.transport.ring pc).2) := by
  rw [mainAt]
  split
  · exact absurd ‹_› (h _)
  · exact absurd ‹_› (h _)
  · rfl

theorem MicroTransport.mainAt_k2_empty {pc : GetPc p.ring} (st : Status)
    (h : (getStep m.transport.ring pc).2 = .done none) :
    m.mainAt (.k2 st pc) =
      ({ m with transport := { m.transport with ring := (getStep m.transport.ring pc).1 } } : MicroTransport p).finish
        { status := st, line := none } := by
  rw [mainAt, h]

theorem MicroTransport.mainAt_k2_byte {pc : GetPc p.ring} (st : Status) {v : Byte}
    (h : (getStep m.transport.ring pc).2 = .done (some v)) :
    m.mainAt (.k2 st pc) =
      ({ m with transport := { m.transport with ring := (getStep m.transport.ring pc).1 } } : MicroTransport p).goto
        (.k3 st v) := by
  rw [mainAt, h]

theorem MicroTransport.whole_main {op : MainOp} {ops : List MainOp} (h : a.todo = op :: ops) :
    a.whole .main = ({ a with todo := ops } : MicroTransport p).perform op := by
  rw [whole, h]

theorem MicroTransport.perform_ofPut (m : MicroTransport p) (boot : Bool) (b : Byte) :
    m.perform (.ofPut boot b) =
      m.conclude (m.transport.enqueue b).2 ((m.transport.enqueue b).1.closing boot) := by
  cases boot with
  | true => rfl
  | false => exact (m.conclude_quiet _ _).symm

/-! ### The mainline's micro-steps keep the simulation -/

/-- From the end of its `PUT` on, an operation is taken. -/
theorem MicroTransport.phase_closing (m : MicroTransport p) (boot : Bool) (st : Status) :
    Phase (if boot then m.goto (.k1 st) else m.finish { status := st, line := none })
      (m.conclude st (m.transport.closing boot)) := by
  cases boot with
  | true => exact .performed rfl (.k1 st) rfl
  | false => exact .atRest rfl (m.conclude_quiet st _)

theorem MicroTransport.phase_k1 (m : MicroTransport p) (st : Status) :
    Phase (m.mainAt (.k1 st)) (m.conclude st m.transport.bootstrap) := by
  cases ha : m.transport.txActive with
  | true =>
    rw [mainAt, if_pos ha, m.transport.bootstrap_quiet (.inl ha)]
    exact .atRest rfl (m.conclude_quiet st _)
  | false =>
    rw [mainAt, if_neg (by simp [ha])]
    exact .performed rfl (.k2 st ha (.inl .g1)) rfl

/-- An operation that is taken goes on to its end without another. -/
theorem MainPc.Performed.mainAt {pc : MainPc p} {st : Status} {x : Transport p × Option Byte}
    (h : pc.Performed m.transport st x) : (m.mainAt pc).Phase (m.conclude st x) := by
  cases h with
  | refused boot h =>
    obtain ⟨hsame, hgo | hdone⟩ := h.step
    · rw [MicroTransport.mainAt_put_more boot hgo.ne_done, hsame]
      exact .performed rfl (.refused boot hgo) rfl
    · rw [MicroTransport.mainAt_put_done boot hdone, hsame]
      exact m.phase_closing boot .overflow
  | k1 st => exact m.phase_k1 st
  | k2 st ha h =>
    have hagrees := Ring.Agrees.refl m.transport.ring
    obtain h | ⟨h, he⟩ := h
    · obtain ⟨hsame, hgo⟩ | ⟨hsame, href, he⟩ | ⟨he, hring, hdone⟩ := h.step hagrees
      · rw [MicroTransport.mainAt_k2_more st hgo.ne_done, hsame]
        exact .performed rfl (.k2 st ha (.inl hgo)) rfl
      · rw [MicroTransport.mainAt_k2_more st href.ne_done, hsame]
        exact .performed rfl (.k2 st ha (.inr ⟨href, he⟩)) rfl
      · rw [MicroTransport.mainAt_k2_byte st hdone, hring, m.transport.bootstrap_dispatch ha he]
        exact .performed rfl (.k3 st _) rfl
    · obtain ⟨hsame, hgo | hdone⟩ := h.step hagrees
      · rw [MicroTransport.mainAt_k2_more st hgo.ne_done, hsame]
        exact .performed rfl (.k2 st ha (.inr ⟨hgo, he⟩)) rfl
      · rw [MicroTransport.mainAt_k2_empty st hdone, hsame, m.transport.bootstrap_quiet (.inr he)]
        exact .atRest rfl (m.conclude_quiet st _)
  | k3 st v => exact .performed rfl (.k4 st v) rfl
  | k4 st v => exact .atRest rfl rfl

theorem MainPc.Polling.mainAt {pc : MainPc p} {n : Fin (p.l + 1)} (h : pc.Polling m.transport n) :
    (m.mainAt pc).Phase (m.before .poll { m.transport with rxLen := n }) ∨
      (m.mainAt pc).Phase ((m.before .poll { m.transport with rxLen := n }).whole .main) := by
  cases h with
  | q1 =>
    cases hr : m.transport.lineReady with
    | true =>
      left
      rw [MicroTransport.mainAt, if_pos hr]
      exact .pending rfl (.poll (.q2 hr)) rfl
    | false =>
      right
      have hnot : ¬ m.transport.lineReady = true := by simp [hr]
      rw [MicroTransport.mainAt, if_neg hnot]
      exact .atRest rfl (if_neg hnot)
  | q2 hr => exact .inl (.pending rfl (.poll (.q3 0 hr (Nat.zero_le _))) rfl)
  | q3 k hr hk =>
    left
    rw [MicroTransport.mainAt, List.length_map, List.length_range]
    split
    · rename_i hlt
      have hk' : k + 1 ≤ m.transport.rxLen.val - 1 := by omega
      have hnext : (List.range k).map m.transport.rx.read ++ [m.transport.rx.read k] =
          (List.range (k + 1)).map m.transport.rx.read := by
        rw [List.range_succ, List.map_append, List.map_singleton]
      rw [hnext]
      exact .pending rfl (.poll (.q3 (k + 1) hr hk')) rfl
    · have hall : k = m.transport.rxLen.val - 1 := by omega
      rw [hall]
      exact .pending rfl (.poll (.q4 hr)) rfl
  | q4 hr =>
    exact .inl (.pending rfl (.poll (.q5 (t := { m.transport with rxLen := 0 }) m.transport.rxLen hr rfl)) rfl)
  | q5 n hr h0 =>
    right
    refine .atRest rfl ((if_pos hr).trans ?_)
    rw [MicroTransport.mainAt, Transport.consumeLine, ← h0]
    rfl

/-- A micro-step of an operation that is still to be taken: the whole operation is taken in the same turn, or not yet. -/
theorem MainPc.Pending.mainAt {pc : MainPc p} {op : MainOp} {t0 : Transport p}
    (h : pc.Pending m.transport op t0) (hb : t0.ring.occ.toNat ≤ p.ring.cap) :
    (m.mainAt pc).Phase (m.before op t0) ∨ (m.mainAt pc).Phase ((m.before op t0).whole .main) := by
  cases h with
  | @put pc b r0 boot h =>
    have hwhole : (m.before (.ofPut boot b) { m.transport with ring := r0 }).whole .main =
        m.conclude (r0.put b).2 (Transport.closing { m.transport with ring := (r0.put b).1 } boot) :=
      MicroTransport.perform_ofPut { m with transport := { m.transport with ring := r0 }, running := none } boot b
    obtain hgo | ⟨href, hsame, hput⟩ | ⟨hdone, hput⟩ := h.step hb
    · left
      rw [MicroTransport.mainAt_put_more boot hgo.ne_done]
      exact .pending rfl (.put boot hgo) rfl
    · right
      rw [MicroTransport.mainAt_put_more boot href.ne_done, hwhole, hput, hsame]
      exact .performed rfl (.refused boot href) rfl
    · right
      rw [MicroTransport.mainAt_put_done boot hdone, hwhole, hput]
      exact MicroTransport.phase_closing
        { m with transport := { m.transport with ring := (putStep m.transport.ring pc).1 } } boot .ok
  | kick => exact .inr (m.phase_k1 .ok)
  | poll h => exact h.mainAt

/-- An operation about to start has done nothing. -/
theorem MainPc.Pending.start (op : MainOp) (t : Transport p) : op.start.Pending t op t := by
  cases op with
  | send b => exact .put true (.p1 b)
  | enq b => exact .put false (.p1 b)
  | kick => exact .kick
  | poll => exact .poll .q1

theorem MicroTransport.before_of_atRest {op : MainOp} {ops : List MainOp} (hm : m.running = none)
    (htodo : m.todo = op :: ops) : ({ m with todo := ops } : MicroTransport p).before op m.transport = m := by
  obtain ⟨_, todo, running, _, _, _, _⟩ := m
  obtain rfl : running = none := hm
  obtain rfl : todo = op :: ops := htodo
  rfl

/-! ### Whole operations and handlers keep the simulation -/

theorem Transport.lawful_bootstrap (t : Transport p) (hb : t.ring.occ.toNat ≤ p.ring.cap) :
    t.bootstrap.1.ring.occ.toNat ≤ p.ring.cap ∧
      t.txActive.toNat + t.bootstrap.2.toList.length = t.bootstrap.1.txActive.toNat := by
  refine ⟨(t.flow_bootstrap hb).bounded, ?_⟩
  rw [← t.inflight_bootstrap]
  cases t.bootstrap.2 <;> rfl

theorem MicroTransport.Lawful.perform (h : m.Lawful) (op : MainOp) : (m.perform op).Lawful := by
  obtain ⟨hb, hone⟩ := h
  have henq : ∀ b, (m.transport.enqueue b).1.ring.occ.toNat ≤ p.ring.cap :=
    fun b => (m.transport.flow_enqueue hb b).bounded
  cases op with
  | send b =>
    obtain ⟨hb', hone'⟩ := (m.transport.enqueue b).1.lawful_bootstrap (henq b)
    exact ⟨hb', (congrArg (· + _) hone).trans hone'⟩
  | enq b => exact ⟨henq b, hone⟩
  | kick =>
    obtain ⟨hb', hone'⟩ := m.transport.lawful_bootstrap hb
    exact ⟨hb', (congrArg (· + _) hone).trans hone'⟩
  | poll =>
    rw [MicroTransport.perform]
    split
    · exact ⟨hb, hone⟩
    · exact ⟨hb, hone⟩

/-- Under the contract a turn of whole operations keeps I1 and I5. -/
theorem MicroTransport.Lawful.whole (h : a.Lawful) (turn : Turn) (hcontract : turn = .txrdy → a.inflight = 1) :
    (a.whole turn).Lawful := by
  obtain ⟨hb, hone⟩ := h
  cases turn with
  | main =>
    cases htodo : a.todo with
    | nil => rw [MicroTransport.whole, htodo]; exact ⟨hb, hone⟩
    | cons op ops =>
      rw [MicroTransport.whole_main htodo]
      exact MicroTransport.Lawful.perform (m := { a with todo := ops }) ⟨hb, hone⟩ op
  | txrdy =>
    have hcount := hcontract rfl
    have hact : a.transport.txActive.toNat = 1 := hone.symm.trans hcount
    rw [MicroTransport.whole_handler a (by decide)]
    obtain ⟨-, e⟩ | ⟨he, e⟩ := a.handler_txrdy_cases
    · rw [e]
      exact ⟨hb, by rw [hcount]; rfl⟩
    · rw [e]
      exact ⟨(Ring.flow_get he hb).bounded, by rw [hcount, hact]⟩
  | rxbyte b =>
    obtain ⟨hring, hact⟩ := a.transport.byteReceived_tx b
    refine ⟨?_, hone.trans (congrArg Bool.toNat hact.symm)⟩
    show (a.transport.byteReceived b).1.ring.occ.toNat ≤ _
    rw [hring]
    exact hb

/-- A byte-received handler in both keeps the simulation. -/
theorem MicroTransport.Phase.rxbyte (h : m.Phase a) (b : Byte) :
    (m.micro (.rxbyte b)).Phase (a.whole (.rxbyte b)) := by
  cases h with
  | atRest hm ha => exact .atRest hm (ha ▸ rfl)
  | @pending pc op t0 hm h ha =>
    obtain ⟨hwake, h⟩ := h.rxbyte b
    refine .pending hm h ?_
    rw [ha]
    simp only [whole, micro, handler, before, hwake]
  | @performed pc st x hm h ha =>
    obtain ⟨hwake, h⟩ := h.rxbyte b
    refine .performed hm h ?_
    rw [ha]
    simp only [whole, micro, handler, MicroTransport.conclude, emit, finish, hwake]

/-- With one byte in flight in `m`, there is one at the level of whole operations, and none is still to be dispatched. -/
theorem MicroTransport.Sim.txrdy (h : m.Sim a) (hcount : m.inflight = 1) :
    a.inflight = 1 ∧ (m.micro .txrdy).Phase (a.whole .txrdy) := by
  obtain ⟨⟨hb, hone⟩, hphase⟩ := h
  cases hphase with
  | atRest hm ha => exact ⟨ha ▸ hcount, .atRest hm (ha ▸ rfl)⟩
  | @pending pc op t0 hm h ha =>
    obtain ⟨hsent, h⟩ := h.txrdy
    refine ⟨ha ▸ hcount, .pending hm h ?_⟩
    rw [ha]
    simp only [whole, micro, handler, before, emit, hsent]
  | @performed pc st x hm h ha =>
    subst ha
    have hone' : 1 + x.2.toList.length = x.1.txActive.toNat := hcount ▸ hone
    have hle : x.1.txActive.toNat ≤ 1 := Bool.toNat_le _
    have hnone : x.2 = none := by
      cases hx : x.2 with
      | none => rfl
      | some v => rw [hx, Option.toList_some, List.length_singleton] at hone'; omega
    have hact : x.1.txActive = true := by
      cases hx : x.1.txActive with
      | true => rfl
      | false => rw [hx] at hone'; simp at hone'
    obtain ⟨hsame, h⟩ := h.txrdy hnone hact
    have hx : x = (m.transport, none) := Prod.ext hsame hnone
    rw [hx, m.conclude_quiet]
    refine ⟨hcount, .performed hm h ?_⟩
    exact (MicroTransport.conclude_quiet (m.micro .txrdy) st _).symm

/-- A turn of the mainline is matched by a whole operation or by none. -/
theorem MicroTransport.Sim.main (h : m.Sim a) : (m.micro .main).Phase a ∨ (m.micro .main).Phase (a.whole .main) := by
  obtain ⟨⟨hb, -⟩, hphase⟩ := h
  cases hphase with
  | atRest hm ha =>
    subst ha
    cases htodo : a.todo with
    | nil => exact .inl (.atRest (by simp [micro, hm, htodo]) (by simp [micro, hm, htodo]))
    | cons op ops =>
      have hmicro : a.micro .main = ({ a with todo := ops } : MicroTransport p).mainAt op.start := by
        rw [micro, hm, htodo]
      have hstart := MainPc.Pending.mainAt (m := { a with todo := ops }) (.start op a.transport) hb
      rwa [before_of_atRest hm htodo, ← hmicro] at hstart
  | @pending pc op t0 hm h ha =>
    subst ha
    have hmicro : m.micro .main = m.mainAt pc := by rw [micro, hm]
    rw [hmicro]
    exact h.mainAt hb
  | @performed pc st x hm h ha =>
    subst ha
    have hmicro : m.micro .main = m.mainAt pc := by rw [micro, hm]
    rw [hmicro]
    exact .inl h.mainAt

/-- Every turn in which the contract holds is matched by the same turn at the level of whole operations, in which it holds
too, or by none. -/
theorem MicroTransport.Sim.micro (h : m.Sim a) (turn : Turn) (hcontract : turn = .txrdy → m.inflight = 1) :
    (m.micro turn).Sim a ∨ (turn = .txrdy → a.inflight = 1) ∧ (m.micro turn).Sim (a.whole turn) := by
  cases turn with
  | main =>
    obtain hphase | hphase := h.main
    · exact .inl ⟨h.lawful, hphase⟩
    · exact .inr ⟨nofun, h.lawful.whole .main nofun, hphase⟩
  | txrdy =>
    obtain ⟨hcount, hphase⟩ := h.txrdy (hcontract rfl)
    exact .inr ⟨fun _ => hcount, h.lawful.whole .txrdy fun _ => hcount, hphase⟩
  | rxbyte b => exact .inr ⟨nofun, h.lawful.whole (.rxbyte b) nofun, h.phase.rxbyte b⟩

theorem MicroTransport.Sim.run (h : m.Sim a) (turns : List Turn)
    (hcontract : KeepsContractAlong MicroTransport.micro m turns) :
    ∃ order : List Turn, KeepsContractAlong MicroTransport.whole a order ∧
      (turns.foldl MicroTransport.micro m).Sim (order.foldl MicroTransport.whole a) := by
  induction turns generalizing m a with
  | nil => exact ⟨[], trivial, h⟩
  | cons turn turns ih =>
    obtain ⟨hfirst, hrest⟩ := hcontract
    obtain hstep | ⟨hcount, hstep⟩ := h.micro turn hfirst
    · exact ih hstep hrest
    · obtain ⟨order, hkeeps, hsim⟩ := ih hstep hrest
      exact ⟨turn :: order, ⟨hcount, hkeeps⟩, hsim⟩

theorem MicroTransport.Sim.eq_of_atRest (h : m.Sim a) (hm : m.running = none) : a = m := by
  cases h.phase with
  | atRest _ ha => exact ha
  | pending hm' => rw [hm] at hm'; cases hm'
  | performed hm' => rw [hm] at hm'; cases hm'

end

/-- Settles O55: the simulation holds between a mainline at rest and itself, every turn in which the contract holds keeps
it, and at rest it is equality. -/
theorem preemptedMainlineIsWholeOperations : Obligations.PreemptedMainlineIsWholeOperations := by
  intro p m turns hrest hb _ hle hiff hcontract hend
  have hone : m.inflight = m.transport.txActive.toNat := by
    cases hact : m.transport.txActive with
    | true => exact hiff.mp hact
    | false =>
      have hne : m.inflight ≠ 1 := mt hiff.mpr (by simp [hact])
      rw [Bool.toNat_false]
      omega
  obtain ⟨order, hkeeps, hsim⟩ := MicroTransport.Sim.run ⟨⟨hb, hone⟩, .atRest hrest rfl⟩ turns hcontract
  exact ⟨order, hkeeps, hsim.eq_of_atRest hend⟩

end Sys2Proof.Machine
end

section
/-! PROOFS. The micro-steps of one operation (`70_reset_and_hazards.md` R200 to R209): taken with nothing between they are
the whole operation, and those that publish come last. What a micro-step of the mainline can do is said once, as
`MicroTransport.MainMove`. -/

namespace Sys2Proof.Machine

/-! ### Micro-steps taken with nothing between (R200) -/

section
variable {p : RingParams} (r : Ring p)

theorem putStep_iterate (b : Byte) :
    (fun x => putStep x.1 x.2)^[5] (r, PutPc.p1 b) = ((r.put b).1, .done (r.put b).2) := by
  obtain ⟨hf, e⟩ | ⟨hf, e⟩ := r.put_cases b
  · have hfull : r.head - r.tail = BitVec.ofNat p.cw p.cap := beq_iff_eq.mp hf
    simp only [Function.iterate_succ_apply, Function.iterate_zero_apply, putStep, if_pos hfull, e]
  · have hroom : r.head - r.tail ≠ BitVec.ofNat p.cw p.cap := beq_eq_false_iff_ne.mp hf
    simp only [Function.iterate_succ_apply, Function.iterate_zero_apply, putStep, if_neg hroom, e, Ring.putCell]

theorem getStep_iterate : (fun x => getStep x.1 x.2)^[5] (r, GetPc.g1) =
    match r.get with
    | none => (r, .done none)
    | some (v, r') => (r', .done (some v)) := by
  obtain ⟨he, e⟩ | ⟨he, e⟩ := r.get_cases
  · have hempty : r.head = r.tail := beq_iff_eq.mp he
    simp only [Function.iterate_succ_apply, Function.iterate_zero_apply, getStep, if_pos hempty, e]
  · have hbyte : r.head ≠ r.tail := beq_eq_false_iff_ne.mp he
    simp only [Function.iterate_succ_apply, Function.iterate_zero_apply, getStep, if_neg hbyte, e, Ring.getCell]

end

section
variable {p : TransportParams} (t : Transport p)

theorem txrdyStep_iterate : (fun x => txrdyStep x.1 x.2)^[6] (t, TxrdyPc.get .g1) =
    (t.transmitReady.1, .done t.transmitReady.2) := by
  obtain ⟨he, e⟩ | ⟨he, e⟩ := t.transmitReady_cases
  · have hempty : t.ring.head = t.ring.tail := beq_iff_eq.mp he
    simp only [Function.iterate_succ_apply, Function.iterate_zero_apply, txrdyStep, getStep, if_pos hempty, e]
  · have hbyte : t.ring.head ≠ t.ring.tail := beq_eq_false_iff_ne.mp he
    simp only [Function.iterate_succ_apply, Function.iterate_zero_apply, txrdyStep, getStep, if_neg hbyte, e, Ring.getCell]

theorem rxbyteStep_iterate (b : Byte) : (fun x => rxbyteStep x.1 x.2)^[6] (t, RxbytePc.b1 b) =
    ((t.byteReceived b).1, .done (t.byteReceived b).2) := by
  obtain ⟨hr, e⟩ | ⟨hr, hl, e⟩ | ⟨hr, hl, ⟨hb, e⟩ | ⟨hb, h0, e⟩ | ⟨hb, h1, e⟩⟩ := t.byteReceived_cases b <;>
    rw [e] <;> simp only [Function.iterate_succ_apply, Function.iterate_zero_apply]
  · simp [rxbyteStep, hr]
  · simp [rxbyteStep, hr, hl]
  · simp [rxbyteStep, hr, hl, hb]
  · have hl0 : 0 < p.l := h0 ▸ hl
    simp [rxbyteStep, hr, hl0, hb, h0]
  · have hne : t.rxLen.val ≠ 0 := by omega
    simp [rxbyteStep, hr, hl, hb, hne]

end

/-- Settles O56: each operation is run through its micro-steps in each of its cases. -/
theorem uninterruptedMicroStepsAreTheOperation : Obligations.UninterruptedMicroStepsAreTheOperation :=
  ⟨fun _ r b => putStep_iterate r b, fun _ r => getStep_iterate r, fun _ t => txrdyStep_iterate t,
    fun _ t b => rxbyteStep_iterate t b⟩

/-! ### The micro-steps of `PUT`, `GET` and `RXBYTE` that publish (R201, R202, R209) -/

section
variable {p : RingParams} {r : Ring p}

theorem eq_p5_of_putStep_head {pc : PutPc p} (h : (putStep r pc).1.head ≠ r.head) :
    ∃ h', pc = .p5 h' ∧ (putStep r pc).1 = { r with head := h' + 1 } := by
  obtain e | ⟨b, c, -, e⟩ | hp5 := putStep_ring r pc
  · exact absurd (by rw [e]) h
  · exact absurd (by rw [e]) h
  · exact hp5

theorem eq_p4_of_putStep_p5 {pc : PutPc p} {h : BitVec p.cw} (hpc : (putStep r pc).2 = .p5 h) :
    ∃ b, pc = .p4 b h ∧ (putStep r pc).1.tx.read (cellOf h) = b ∧ (putStep r pc).1.head = r.head := by
  cases pc with
  | p4 b c => cases hpc; exact ⟨b, rfl, CellMem.read_write_same _ _ _, rfl⟩
  | p3 b t c => simp only [putStep] at hpc; split at hpc <;> cases hpc
  | p1 | p2 | p5 | done => cases hpc

theorem eq_g5_of_getStep_tail {pc : GetPc p} (h : (getStep r pc).1.tail ≠ r.tail) :
    ∃ t v, pc = .g5 t v ∧ (getStep r pc).2 = .done (some v) := by
  obtain e | ⟨t, v, rfl, -⟩ := getStep_ring r pc
  · exact absurd (by rw [e]) h
  · exact ⟨t, v, rfl, rfl⟩

theorem eq_g4_of_getStep_g5 {pc : GetPc p} {t : BitVec p.cw} {v : Byte} (hpc : (getStep r pc).2 = .g5 t v) :
    pc = .g4 t ∧ v = r.tx.read (cellOf t) ∧ (getStep r pc).1 = r := by
  cases pc with
  | g4 c => cases hpc; exact ⟨rfl, rfl, rfl⟩
  | g3 c t => simp only [getStep] at hpc; split at hpc <;> cases hpc
  | g1 | g2 | g5 | done => cases hpc

end

section
variable {p : TransportParams} {t : Transport p} {pc : RxbytePc p}

theorem eq_b5_of_rxbyteStep_lineReady (h : (rxbyteStep t pc).1.lineReady ≠ t.lineReady) :
    pc = .b5 ∧ (rxbyteStep t pc).1 = { t with lineReady := true } := by
  cases pc with
  | b5 => exact ⟨rfl, rfl⟩
  | _ => exact absurd rfl h

theorem eq_b4_of_rxbyteStep_b5 (h : (rxbyteStep t pc).2 = .b5) :
    ∃ b n, pc = .b4 b n ∧ isTerm b = true ∧ (rxbyteStep t pc).1 = { t with rxLen := n.succ } := by
  cases pc with
  | b1 b => simp only [rxbyteStep] at h; split at h <;> cases h
  | b2 b => simp only [rxbyteStep] at h; split at h <;> cases h
  | b4 b n =>
    refine ⟨b, n, rfl, ?_, rfl⟩
    by_contra hb
    simp only [rxbyteStep, if_neg hb] at h
    cases h
  | b3 | b5 | b6 | clear | done => cases h

theorem eq_b3_of_rxbyteStep_b4 {b : Byte} {n : Fin p.l} (h : (rxbyteStep t pc).2 = .b4 b n) :
    pc = .b3 b n ∧ (rxbyteStep t pc).1.rx.read n.val = b ∧ (rxbyteStep t pc).1.rxLen = t.rxLen ∧
      (rxbyteStep t pc).1.lineReady = t.lineReady := by
  cases pc with
  | b3 c k => cases h; exact ⟨rfl, CellMem.read_write_same _ _ _, rfl, rfl⟩
  | b1 c => simp only [rxbyteStep] at h; split at h <;> cases h
  | b2 c => simp only [rxbyteStep] at h; split at h <;> cases h
  | b4 c k =>
    simp only [rxbyteStep] at h
    split at h
    · split at h <;> cases h
    · cases h
  | b5 | b6 | clear | done => cases h

end

/-! ### The mainline's micro-steps (R204, R206) -/

/-- The transport with another ring. -/
def MicroTransport.setRing {p : TransportParams} (m : MicroTransport p) (r : Ring p.ring) : MicroTransport p :=
  { m with transport := { m.transport with ring := r } }

/-- Everything a micro-step of the mainline can do. -/
inductive MicroTransport.MainMove {p : TransportParams} (m : MicroTransport p) : MainPc p → MicroTransport p → Prop where
  | put (boot : Bool) (pc : PutPc p.ring) : MainMove m (.put boot pc)
    ((m.setRing (putStep m.transport.ring pc).1).goto (.put boot (putStep m.transport.ring pc).2))
  | putThenBoot (pc : PutPc p.ring) (st : Status) : MainMove m (.put true pc)
    ((m.setRing (putStep m.transport.ring pc).1).goto (.k1 st))
  | putEnds (pc : PutPc p.ring) (st : Status) : MainMove m (.put false pc)
    ((m.setRing (putStep m.transport.ring pc).1).finish { status := st, line := none })
  | k1Active (st : Status) : MainMove m (.k1 st) (m.finish { status := st, line := none })
  | k1Idle (st : Status) : MainMove m (.k1 st) (m.goto (.k2 st .g1))
  | k2 (st : Status) (pc : GetPc p.ring) : MainMove m (.k2 st pc)
    ((m.setRing (getStep m.transport.ring pc).1).goto (.k2 st (getStep m.transport.ring pc).2))
  | k2Byte (st : Status) (pc : GetPc p.ring) (v : Byte) : MainMove m (.k2 st pc)
    ((m.setRing (getStep m.transport.ring pc).1).goto (.k3 st v))
  | k2Empty (st : Status) (pc : GetPc p.ring) : MainMove m (.k2 st pc)
    ((m.setRing (getStep m.transport.ring pc).1).finish { status := st, line := none })
  | k3 (st : Status) (v : Byte) : MainMove m (.k3 st v)
    (({ m with transport := { m.transport with txActive := true } } : MicroTransport p).goto (.k4 st v))
  | k4 (st : Status) (v : Byte) : MainMove m (.k4 st v) ((m.emit (some v)).finish { status := st, line := none })
  | q1Line : MainMove m .q1 (m.goto .q2)
  | q1None : MainMove m .q1 (m.finish { status := .noLine, line := none })
  | q2 : MainMove m .q2 (m.goto (.q3 m.transport.rxLen.val []))
  | q3Read (n : Nat) (got : List Byte) (h : got.length + 1 < n) : MainMove m (.q3 n got)
    (m.goto (.q3 n (got ++ [m.transport.rx.read got.length])))
  | q3All (n : Nat) (got : List Byte) (h : n ≤ got.length + 1) : MainMove m (.q3 n got) (m.goto (.q4 got))
  | q4 (got : List Byte) : MainMove m (.q4 got)
    (({ m with transport := { m.transport with rxLen := 0 } } : MicroTransport p).goto (.q5 got))
  | q5 (got : List Byte) : MainMove m (.q5 got)
    (({ m with transport := { m.transport with lineReady := false } } : MicroTransport p).finish
      { status := .ok, line := some got })

namespace MicroTransport

variable {p : TransportParams} {m m' : MicroTransport p} {pc : MainPc p}

theorem mainAt_moves (m : MicroTransport p) (pc : MainPc p) : m.MainMove pc (m.mainAt pc) := by
  cases pc with
  | put boot pc =>
    by_cases hdone : ∃ st, (putStep m.transport.ring pc).2 = .done st
    · obtain ⟨st, hdone⟩ := hdone
      rw [mainAt_put_done boot hdone]
      cases boot with
      | true => exact .putThenBoot pc st
      | false => exact .putEnds pc st
    · rw [mainAt_put_more boot fun st h => hdone ⟨st, h⟩]
      exact .put boot pc
  | k1 st =>
    rw [mainAt]
    split
    · exact .k1Active st
    · exact .k1Idle st
  | k2 st pc =>
    by_cases hdone : ∃ v, (getStep m.transport.ring pc).2 = .done v
    · obtain ⟨v | v, hdone⟩ := hdone
      · rw [mainAt_k2_empty st hdone]
        exact .k2Empty st pc
      · rw [mainAt_k2_byte st hdone]
        exact .k2Byte st pc v
    · rw [mainAt_k2_more st fun v h => hdone ⟨v, h⟩]
      exact .k2 st pc
  | k3 st v => exact .k3 st v
  | k4 st v => exact .k4 st v
  | q1 =>
    rw [mainAt]
    split
    · exact .q1Line
    · exact .q1None
  | q2 => exact .q2
  | q3 n got =>
    rw [mainAt]
    split
    · exact .q3Read n got ‹_›
    · exact .q3All n got (Nat.le_of_not_lt ‹_›)
  | q4 got => exact .q4 got
  | q5 got => exact .q5 got

theorem MainMove.eq_k4_of_sent (h : m.MainMove pc m') (hsent : m'.sent ≠ m.sent) : ∃ st v, pc = .k4 st v := by
  cases h with
  | k4 st v => exact ⟨st, v, rfl⟩
  | _ => exact absurd rfl hsent

theorem MainMove.eq_k3_of_k4 {st : Status} {v : Byte} (h : m.MainMove pc m') (hpc : m'.running = some (.k4 st v)) :
    pc = .k3 st v ∧ m'.transport.txActive = true ∧ m'.sent = m.sent := by
  cases h with
  | k3 st v => cases hpc; exact ⟨rfl, rfl, rfl⟩
  | _ => cases hpc

theorem MainMove.eq_q4_of_rxLen (h : m.MainMove pc m') (hlen : m'.transport.rxLen ≠ m.transport.rxLen) :
    ∃ got, pc = .q4 got := by
  cases h with
  | q4 got => exact ⟨got, rfl⟩
  | _ => exact absurd rfl hlen

theorem MainMove.eq_q5_of_lineReady (h : m.MainMove pc m') (hready : m'.transport.lineReady ≠ m.transport.lineReady) :
    ∃ got, pc = .q5 got ∧ m'.transport.lineReady = false := by
  cases h with
  | q5 got => exact ⟨got, rfl, rfl⟩
  | _ => exact absurd rfl hready

theorem MainMove.eq_q4_of_q5 {got : List Byte} (h : m.MainMove pc m') (hpc : m'.running = some (.q5 got)) :
    pc = .q4 got ∧ m'.transport.rxLen.val = 0 ∧ m'.transport.lineReady = m.transport.lineReady := by
  cases h with
  | q4 got => cases hpc; exact ⟨rfl, rfl, rfl⟩
  | _ => cases hpc

theorem MainMove.eq_q3_of_q4 {got : List Byte} (h : m.MainMove pc m') (hpc : m'.running = some (.q4 got)) :
    ∃ n, pc = .q3 n got ∧ n ≤ got.length + 1 := by
  cases h with
  | q3All n got h => cases hpc; exact ⟨n, rfl, h⟩
  | _ => cases hpc

theorem MainMove.eq_q2_or_q3_of_q3 {n : Nat} {got : List Byte} (h : m.MainMove pc m')
    (hpc : m'.running = some (.q3 n got)) :
    (pc = .q2 ∧ n = m.transport.rxLen.val ∧ got = []) ∨
      ∃ before, pc = .q3 n before ∧ before.length + 1 < n ∧ got = before ++ [m.transport.rx.read before.length] := by
  cases h with
  | q2 => cases hpc; exact .inl ⟨rfl, rfl, rfl⟩
  | q3Read n before h => cases hpc; exact .inr ⟨before, rfl, h, rfl⟩
  | _ => cases hpc

end MicroTransport

/-- Settles O57: by what each micro-step can do; the mainline's by `MicroTransport.mainAt_moves`. -/
theorem publicationComesLast : Obligations.PublicationComesLast :=
  ⟨fun _ _ _ => eq_p5_of_putStep_head, fun _ _ _ _ => eq_p4_of_putStep_p5,
    fun _ _ _ => eq_g5_of_getStep_tail, fun _ _ _ _ _ => eq_g4_of_getStep_g5,
    fun _ _ _ => eq_b5_of_rxbyteStep_lineReady, fun _ _ _ => eq_b4_of_rxbyteStep_b5,
    fun _ _ _ _ _ => eq_b3_of_rxbyteStep_b4,
    fun _ m pc => (m.mainAt_moves pc).eq_k4_of_sent, fun _ m pc _ _ => (m.mainAt_moves pc).eq_k3_of_k4,
    fun _ m pc => ⟨(m.mainAt_moves pc).eq_q4_of_rxLen, (m.mainAt_moves pc).eq_q5_of_lineReady⟩,
    fun _ m pc _ => (m.mainAt_moves pc).eq_q4_of_q5, fun _ m pc _ => (m.mainAt_moves pc).eq_q3_of_q4,
    fun _ m pc _ _ => (m.mainAt_moves pc).eq_q2_or_q3_of_q3, fun _ _ _ => ⟨rfl, rfl, rfl⟩⟩

end Sys2Proof.Machine
end

section
/-! PROOFS. The micro-step model beside `exec` (`70_reset_and_hazards.md` R200), and what a spurious `TXRDY` breaks (R211). -/

namespace Sys2Proof.Machine

/-! ### The handlers and the whole operations of the micro-step model are `exec`'s (R200, `60_exceptions.md` R169) -/

/-- A mainline operation takes nothing out of flight. -/
theorem inflightAfter_mainOp (op : MainOp) (tx : Option Byte) (n : Nat) :
    inflightAfter .M (some op.instr) tx n = n + tx.toList.length := by
  cases op <;> cases tx <;> rfl

theorem inflightAfter_txrdy (tx : Option Byte) (n : Nat) :
    inflightAfter .I (some .txrdy) tx n = n - 1 + tx.toList.length := by
  cases tx <;> rfl

theorem MicroTransport.handler_leaves_mainline {p : TransportParams} (m : MicroTransport p) {turn : Turn}
    (h : turn ≠ .main) :
    (m.micro turn).running = m.running ∧ (m.micro turn).todo = m.todo ∧ (m.micro turn).answers = m.answers := by
  cases turn with
  | main => exact absurd rfl h
  | txrdy => exact ⟨rfl, rfl, rfl⟩
  | rxbyte b => exact ⟨rfl, rfl, rfl⟩

section
variable {s : State} {m : MicroTransport s.tp}

/-- A whole mainline operation of the micro-step model, and `exec`'s at port M (R132 gives a `POLL` at a short line no
meaning). -/
theorem exec_mainOp (hm : m.transport = s.transport) (hq : s.port = .M) (op : MainOp)
    (hline : s.transport.lineReady = true → 2 ≤ s.transport.rxLen.val) :
    ∃ (a : Answer) (tx : Option Byte), exec op.instr s = .next { s with
        transport := (m.perform op).transport,
        out := { status := some a.status, data := none, line := a.line, tx := tx, wake := false } } ∧
      (m.perform op).answers = m.answers ++ [a] ∧ (m.perform op).sent = m.sent ++ tx.toList ∧
      (m.perform op).inflight = m.inflight + tx.toList.length := by
  cases op with
  | send b => exact ⟨_, _, by rw [MainOp.instr, exec_send hq, ← hm]; rfl, rfl, rfl, rfl⟩
  | enq b =>
    exact ⟨_, none, by rw [MainOp.instr, exec_enq hq, ← hm]; rfl, rfl, (List.append_nil _).symm, rfl⟩
  | kick => exact ⟨_, _, by rw [MainOp.instr, exec_kick hq, ← hm]; rfl, rfl, rfl, rfl⟩
  | poll =>
    cases hr : s.transport.lineReady with
    | true =>
      have hperform : m.perform .poll = ({ m with transport := m.transport.consumeLine } : MicroTransport s.tp).finish
          { status := .ok, line := some m.transport.line } := if_pos (hm ▸ hr)
      rw [hperform]
      exact ⟨_, none, by rw [MainOp.instr, exec_poll_line hq hr (hline hr), ← hm]; rfl, rfl,
        (List.append_nil _).symm, rfl⟩
    | false =>
      have hperform : m.perform .poll = m.finish { status := .noLine, line := none } := if_neg (by simp [hm, hr])
      rw [hperform]
      exact ⟨_, none, by rw [MainOp.instr, exec_poll_noLine hq hr, finish_transport, hm]; rfl, rfl,
        (List.append_nil _).symm, rfl⟩

end

/-- Settles O58: `exec`'s answer of each operation at its port, over the same transport. -/
theorem microModelTakesTheMeaningsOfExec : Obligations.MicroModelTakesTheMeaningsOfExec := by
  intro s m hm
  refine ⟨fun hq => ⟨m.transport.transmitReady.2, ?_, rfl, ?_⟩, fun hq b => ⟨(m.transport.byteReceived b).2, ?_, rfl⟩,
    fun turn => m.handler_leaves_mainline, fun hq op hline => ?_⟩
  · rw [exec_txrdy hq, ← hm]; rfl
  · exact (inflightAfter_txrdy _ _).symm
  · rw [exec_rxbyte hq, ← hm]; rfl
  · obtain ⟨a, tx, hexec, hanswers, hsent, hcount⟩ := exec_mainOp hm hq op hline
    exact ⟨a, tx, hexec, hanswers, hsent, hcount.trans (inflightAfter_mainOp op tx _).symm⟩

/-! ### A spurious `TXRDY` (R211) -/

/-- Nothing is to be enqueued any more, and the bytes sent and still to be sent are `bs`. -/
structure MicroTransport.Draining {p : TransportParams} (m : MicroTransport p) (bs : List Byte) : Prop where
  onlyKicks : ∀ op ∈ m.todo, op = .kick
  bounded   : m.transport.ring.occ.toNat ≤ p.ring.cap
  supply    : m.sent ++ m.transport.ring.contents = bs

section
variable {p : TransportParams} {m : MicroTransport p} {bs : List Byte}

/-- Bytes that leave the ring are sent. -/
theorem MicroTransport.Draining.supply_of_flow (h : m.Draining bs) {r : Ring p.ring} {v : Option Byte}
    (hflow : m.transport.ring.Flow r [] v.toList) : (m.sent ++ v.toList) ++ r.contents = bs := by
  rw [List.append_assoc, ← hflow.inOrder, List.append_nil]
  exact h.supply

/-- Whole operations and handlers, with or without a byte in flight, send each byte once and in order. -/
theorem MicroTransport.Draining.whole (h : m.Draining bs) (turn : Turn) : (m.whole turn).Draining bs := by
  cases turn with
  | main =>
    cases htodo : m.todo with
    | nil => rw [MicroTransport.whole, htodo]; exact h
    | cons op ops =>
      obtain rfl : op = .kick := h.onlyKicks op (htodo ▸ List.mem_cons_self)
      have hflow := m.transport.flow_bootstrap h.bounded
      rw [MicroTransport.whole_main htodo]
      exact ⟨fun op hop => h.onlyKicks op (htodo ▸ List.mem_cons_of_mem _ hop), hflow.bounded, h.supply_of_flow hflow⟩
  | txrdy =>
    have hflow := m.transport.flow_transmitReady h.bounded
    exact ⟨h.onlyKicks, hflow.bounded, h.supply_of_flow hflow⟩
  | rxbyte b =>
    have hring := m.transport.byteReceived_ring b
    refine ⟨h.onlyKicks, ?_, ?_⟩
    · exact hring.symm ▸ h.bounded
    · exact (congrArg (fun r => m.sent ++ r.contents) hring).trans h.supply

theorem MicroTransport.Draining.run (h : m.Draining bs) (order : List Turn) :
    (order.foldl MicroTransport.whole m).Draining bs := by
  induction order generalizing m with
  | nil => exact h
  | cons turn order ih => exact ih (h.whole turn)

end

/-- An idle transport that holds one byte, and a `KICK` to do. -/
def idleWithByte : MicroTransport { ring := { n := 1, slack := 0 }, l := 2 } :=
  { transport := { Transport.reset _ 0 with ring := { head := 1, tail := 0, tx := { cells := [(0, 0x61)], seed := 0 } } },
    todo := [.kick], running := none, inflight := 0, answers := [], sent := [], wakes := 0 }

/-- The `TXRDY` comes when the `KICK` has read the byte (g4) and not yet written `tail` (g5). -/
def spuriousTurns : List Turn := [.main, .main, .main, .main, .main, .txrdy, .main, .main, .main]

theorem idleWithByte_draining : idleWithByte.Draining [0x61] := ⟨by decide, by decide, by decide⟩

/-- Settles O59: with the one `TXRDY` of `spuriousTurns` the byte is dispatched twice; no order of whole operations dispatches
more than the one byte. -/
theorem spuriousTransmitReadyBreaksTheEquivalence : Obligations.SpuriousTransmitReadyBreaksTheEquivalence := by
  have htwice : (spuriousTurns.foldl MicroTransport.micro idleWithByte).sent = [0x61, 0x61] := by decide
  refine ⟨_, idleWithByte, spuriousTurns, rfl, by decide, by decide, by decide, by decide, ?_, by decide, fun order hsame => ?_⟩
  · intro hcontract
    obtain ⟨-, -, -, -, -, hcount, -⟩ := hcontract
    exact absurd (hcount rfl) (by decide)
  · have hsupply := congrArg List.length (idleWithByte_draining.run order).supply
    rw [hsame, htwice, List.length_append, List.length_cons, List.length_singleton] at hsupply
    omega

end Sys2Proof.Machine
end
